-- ==== Sys2Proof/Word.lean ====
section
/-! DEFINITION. The word types of the block: 32-bit command and register words (00_scope.md R10),
8-bit symbols (R9). -/

namespace Sys2Proof

/-- A 32-bit data word of the HOST interface (00_scope.md R10). -/
abbrev Word := BitVec 32

/-- A byte of a buffer, and a symbol (00_scope.md R9). -/
abbrev Byte := BitVec 8

end Sys2Proof
end

