-- ==== Sys2Proof/Syntax.lean ====
section
/-! DEFINITION. The commands of the block (30_encoding.md R141), one constructor per row of
opcode_table.json, and the events the outside world brings: HOST accesses (20_memory.md R100), the HOST's wait
loop (30_encoding.md R158), the ENGINE's turn (00_scope.md R12) and power-on reset (70_reset_and_hazards.md R450). -/

namespace Sys2Proof

/-- The ten commands of 30_encoding.md R141. QUERY alone has an operand, the 8-bit SYM field (R142). -/
inductive Instr where
  | nop
  | compress
  | decompress
  | scan
  | build
  | assign
  | encode
  | parse
  | decode
  | query (sym : Byte)
  deriving DecidableEq, Repr

/-- The sizes of a HOST access: 1, 2 or 4 bytes (20_memory.md R100). -/
inductive AccessSize where
  | one
  | two
  | four
  deriving DecidableEq, Repr

/-- One HOST access (20_memory.md R100): a byte address relative to the block's base, a size and, for a write,
the data and its byte lanes. Lane i enables byte `addr + i` (log 10). -/
inductive HostAccess where
  | read (size : AccessSize) (addr : Word)
  | write (size : AccessSize) (addr : Word) (lanes : BitVec 4) (data : Word)
  deriving DecidableEq, Repr

/-- What can happen next (log 4). -/
inductive Event where
  /-- One HOST access (20_memory.md R101). -/
  | access (a : HostAccess)
  /-- The HOST's WAIT loop: read STATUS until bit 0 of the value read is 0 (30_encoding.md R158). -/
  | wait
  /-- The ENGINE's turn: the completion step of a pending command (00_scope.md R12). -/
  | engine
  /-- The platform asserts and releases `rst_n` (70_reset_and_hazards.md R450). -/
  | powerOn
  deriving DecidableEq, Repr

end Sys2Proof
end

