-- ==== Sys2Proof/WellFormed.lean ====
section
/-! DEFINITION. Which command words are legal (30_encoding.md R143), as a check on the three fields of the one
format (R140); and the well-formed commands: their fields pass that check. -/

namespace Sys2Proof

/-- The three fields of a command word (30_encoding.md R140). -/
structure CommandFields where
  op : Byte
  sym : Byte
  rsvd : BitVec 16
  deriving DecidableEq, Repr

/-- The ten legal OP values (30_encoding.md R141, R143). -/
def legalOps : List Byte := [0x00, 0x01, 0x02, 0x10, 0x11, 0x12, 0x13, 0x14, 0x15, 0x20]

/-- `legal(w)` of 30_encoding.md R143, on the fields of w. -/
def CommandFields.legal (f : CommandFields) : Bool :=
  legalOps.contains f.op && f.rsvd == 0 && (f.op == 0x20 || f.sym == 0)

/-- The fields a command is encoded with (30_encoding.md R140, R141). -/
def Instr.fields : Instr → CommandFields
  | .nop => ⟨0x00, 0, 0⟩
  | .compress => ⟨0x01, 0, 0⟩
  | .decompress => ⟨0x02, 0, 0⟩
  | .scan => ⟨0x10, 0, 0⟩
  | .build => ⟨0x11, 0, 0⟩
  | .assign => ⟨0x12, 0, 0⟩
  | .encode => ⟨0x13, 0, 0⟩
  | .parse => ⟨0x14, 0, 0⟩
  | .decode => ⟨0x15, 0, 0⟩
  | .query sym => ⟨0x20, sym, 0⟩

/-- A command is well formed when its fields are legal. The type of QUERY's operand already bounds it to the
8 bits of SYM (30_encoding.md R142), so every command is; the check can only refuse raw fields. -/
def Instr.wellFormed (i : Instr) : Bool := i.fields.legal

end Sys2Proof
end

