-- ==== Sys2Proof/Decode.lean ====
section
/-! DEFINITION. The decoder, total on any bytes and rejecting by name (30_encoding.md R140–R146), the encoder
written from the same table (R141), and the byte order of words (20_memory.md R107). -/

namespace Sys2Proof

/-- Bits 7:0 of a command word, the opcode (30_encoding.md R140). -/
def wordOp (w : Word) : Byte := w.extractLsb' 0 8

/-- Bits 15:8 of a command word, SYM (30_encoding.md R140). -/
def wordSym (w : Word) : Byte := w.extractLsb' 8 8

/-- Bits 31:16 of a command word, RSVD (30_encoding.md R140). -/
def wordRsvd (w : Word) : BitVec 16 := w.extractLsb' 16 16

/-- `legal(w)` (30_encoding.md R143). -/
def legal (w : Word) : Bool := (CommandFields.mk (wordOp w) (wordSym w) (wordRsvd w)).legal

/-- Little-endian: the byte at the lowest address is bits 7:0 (20_memory.md R107, 30_encoding.md R151). -/
def leWord (b0 b1 b2 b3 : Byte) : Word := b3 ++ b2 ++ b1 ++ b0

/-- The four bytes of a word, lowest address first (20_memory.md R107). -/
def leBytes (w : Word) : List Byte :=
  [w.extractLsb' 0 8, w.extractLsb' 8 8, w.extractLsb' 16 8, w.extractLsb' 24 8]

/-- Why the decoder rejects (30_encoding.md R144). -/
inductive Reject where
  /-- Fewer than the four bytes of a command word (R146). -/
  | tooShort
  /-- RSVD ≠ 0. -/
  | reservedBits
  /-- An OP value outside the ten of R141. -/
  | unknownOpcode
  /-- A command other than QUERY with SYM ≠ 0. -/
  | symNotZero
  deriving DecidableEq, Repr

/-- A command without operand: SYM must be 0 (30_encoding.md R140). -/
def plainCommand (i : Instr) (sym : Byte) : Except Reject Instr :=
  if sym = 0 then .ok i else .error .symNotZero

/-- The opcode map (30_encoding.md R141), applied to OP and SYM. -/
def decodeFields (op sym : Byte) : Except Reject Instr :=
  match op.toNat with
  | 0x00 => plainCommand .nop sym
  | 0x01 => plainCommand .compress sym
  | 0x02 => plainCommand .decompress sym
  | 0x10 => plainCommand .scan sym
  | 0x11 => plainCommand .build sym
  | 0x12 => plainCommand .assign sym
  | 0x13 => plainCommand .encode sym
  | 0x14 => plainCommand .parse sym
  | 0x15 => plainCommand .decode sym
  | 0x20 => .ok (.query sym)
  | _ => .error .unknownOpcode

/-- The command a 32-bit word stands for, or why it stands for none (30_encoding.md R140–R144). -/
def decodeWord (w : Word) : Except Reject Instr :=
  if wordRsvd w = 0 then decodeFields (wordOp w) (wordSym w) else .error .reservedBits

/-- The decoder on bytes, lowest address first: one word of four bytes (30_encoding.md R146) and the rest. -/
def decode : List Byte → Except Reject (Instr × List Byte)
  | b0 :: b1 :: b2 :: b3 :: rest =>
    match decodeWord (leWord b0 b1 b2 b3) with
    | .ok i => .ok (i, rest)
    | .error e => .error e
  | _ => .error .tooShort

/-- The command word of a command (30_encoding.md R140, R141). -/
def encodeWord : Instr → Word
  | .nop => 0x00000000
  | .compress => 0x00000001
  | .decompress => 0x00000002
  | .scan => 0x00000010
  | .build => 0x00000011
  | .assign => 0x00000012
  | .encode => 0x00000013
  | .parse => 0x00000014
  | .decode => 0x00000015
  | .query sym => 0#16 ++ sym ++ 0x20#8

/-- The bytes of a command word as the bus carries them (20_memory.md R107). -/
def encode (i : Instr) : List Byte := leBytes (encodeWord i)

/-- The word of a row of opcode_table.json: bit 0 is the least significant bit, the bits above `nbits` are 0. -/
def tableWord (nbits w : Nat) : Word := BitVec.ofNat 32 (w % 2 ^ nbits)

/-- What the decoder reads from an instruction whose bits, numbered as opcode_table.json numbers them, are `w`. -/
def decodeTableWord (nbits w : Nat) : Option Instr :=
  match decode (leBytes (tableWord nbits w)) with
  | .ok (i, _) => some i
  | .error _ => none

end Sys2Proof
end

