-- ==== Sys2Proof/Config.lean ====
section
/-! DEFINITION. What the spec leaves OPEN (00_scope.md R8; 93_implementation_defined.md): the parameters of
the block and the free values. Every constant here but the two sizes derived from it is opaque: nothing can be
proved about which value it has. -/

namespace Sys2Proof

/-- The parameter UNWRITTEN_READ (00_scope.md R8, 10_state.md R67, 92_eei_decisions.md D36): what a read of a
buffer byte that nobody has written does. -/
inductive UnwrittenRead where
  | fault
  | draw
  deriving DecidableEq, Repr, Inhabited

/-- IBUF_SIZE − 1, left open (log 1): R8 bounds the size by 1 and 2^28, which is what 28 free bits say. -/
opaque Config.ibufSizeLessOne : BitVec 28

/-- OBUF_SIZE − 1, left open (log 1). -/
opaque Config.obufSizeLessOne : BitVec 28

/-- UNWRITTEN_READ, left open (log 2). -/
opaque Config.unwrittenRead : UnwrittenRead

/-- A free byte: the draw number of the step, and the block address the byte stands at (log 3). -/
opaque Config.drawByte : Nat → Nat → Byte

/-- IBUF_SIZE, 1 … 2^28 (00_scope.md R8). -/
def Config.ibufSize : Word := BitVec.ofNat 32 (Config.ibufSizeLessOne.toNat + 1)

/-- OBUF_SIZE, 1 … 2^28 (00_scope.md R8). -/
def Config.obufSize : Word := BitVec.ofNat 32 (Config.obufSizeLessOne.toNat + 1)

end Sys2Proof
end

