-- ==== Sys2Proof/Machine/State.lean ====
section
/-! DEFINITION. Everything the spec gives the machine, as plain data (10_state.md), and the machine right after
power-on reset (70_reset_and_hazards.md R450). -/

namespace Sys2Proof.Machine

/-- STATUS (10_state.md R37). Bits 31:8 are reserved, read 0 and ignore writes (R34), so the eight fields are the
whole register; `Status.toWord` (Flags.lean) is the word a HOST reads. -/
structure Status where
  busy : Bool
  done : Bool
  err : Bool
  busyWr : Bool
  ftValid : Bool
  treeValid : Bool
  ctValid : Bool
  hdrValid : Bool
  deriving DecidableEq, Repr

/-- ERR_CODE and ERR_INFO (10_state.md R38, R39). -/
structure ErrorRegs where
  code : Byte
  info : Word
  deriving DecidableEq, Repr

/-- IRQ_EN (10_state.md R40). -/
structure IrqEnable where
  doneEn : Bool
  errEn : Bool
  deriving DecidableEq, Repr

/-- IN_OFF, IN_LEN, OUT_OFF, OUT_CAP (10_state.md R41–R44). -/
structure RangeRegs where
  inOff : Word
  inLen : Word
  outOff : Word
  outCap : Word
  deriving DecidableEq, Repr

/-- OUT_LEN, SYM_COUNT, TOTAL_SYMBOLS, VALID_BITS, MAX_LEN, PAY_OFF (10_state.md R45–R47, R49–R51). -/
structure ResultRegs where
  outLen : Word
  symCount : BitVec 9
  totalSymbols : Word
  validBits : Word
  maxLen : Byte
  payOff : Word
  deriving DecidableEq, Repr

/-- Q_FREQ, Q_INFO (bits 23:0 are used), Q_CODE0 … Q_CODE7 (10_state.md R52–R54). -/
structure QueryRegs where
  freq : Word
  info : BitVec 24
  code : Vector Word 8
  deriving DecidableEq, Repr

/-- One present symbol of the frequency table: its byte value and its 32-bit count (10_state.md R60). -/
structure FtEntry where
  sym : Byte
  cnt : Word
  deriving DecidableEq, Repr

/-- FT (10_state.md R60): the present symbols with their counts, in rank order. FT.cnt, FT.rank, FT.ord and FT.K
are its views (Operands.lean; log 12). -/
abbrev FreqTable := List FtEntry

/-- An entry of the node store (10_state.md R61): the tag is the constructor, so a node that is neither a leaf nor
internal cannot be written down. Children are indices below 511; weights are 40 bits (00_scope.md R9). -/
inductive Node where
  | leaf (sym : Byte) (weight : BitVec 40)
  | internal (left right : Fin 511) (weight : BitVec 40)
  deriving DecidableEq, Repr

/-- NODE[0..510], ROOT and NODE_COUNT (10_state.md R61, R62). -/
structure Tree where
  node : Vector Node 511
  root : Fin 511
  count : BitVec 10
  deriving DecidableEq, Repr

/-- CT (10_state.md R63): CT.bits[s] for each byte value; CT.len[s] is its length, 0 when s has no entry (log 12).
A code is a bit sequence, c_0 first (00_scope.md R16). -/
abbrev CodeTable := Vector (List Bool) 256

/-- HDR (10_state.md R64). -/
structure Header where
  n : Word
  vbc : Word
  pay : Word
  deriving DecidableEq, Repr

/-- The parameters of 00_scope.md R8 that a rule reads; no step changes them. -/
structure Params where
  ibufSize : Word
  obufSize : Word
  unwrittenRead : UnwrittenRead
  deriving DecidableEq, Repr

/-- The bytes of IBUF and OBUF somebody has written, by block address (20_memory.md R102, R104). -/
abbrev Memory := List Host.Cell

/-- What an unlisted address reads as: nothing. A byte nobody has written has no value (10_state.md R67); the
parameter UNWRITTEN_READ says what a read of it does (log 2). -/
def Memory.unlisted : Option Byte := none

/-- The canonical form of a memory: addresses strictly rising, and no entry equal to what an unlisted address
reads as. -/
abbrev Memory.wf (m : Memory) : Prop :=
  m.Pairwise (fun x y => x.1 < y.1) ∧ ∀ c ∈ m, some c.2 ≠ Memory.unlisted

/-- The machine. -/
structure State where
  /-- The parameters of the block; IBUF_SIZE and OBUF_SIZE are also registers (10_state.md R48). -/
  params : Params
  /-- LAST_CMD, read through CMD (10_state.md R36, R68). -/
  lastCmd : Word
  status : Status
  errs : ErrorRegs
  irqEn : IrqEnable
  range : RangeRegs
  result : ResultRegs
  query : QueryRegs
  ft : FreqTable
  tree : Tree
  ct : CodeTable
  hdr : Header
  mem : Memory
  /-- The model's own (log 4): the events still to come, oldest first. -/
  agenda : List Event
  /-- The model's own (log 5): the data the HOST's reads have returned, newest first. -/
  reads : List Word
  /-- The model's own (log 3): the number of the next draw. -/
  draws : Nat
  deriving DecidableEq, Repr

/-- Why the machine has no next state. -/
inductive Fault where
  /-- A read, by the HOST or by a command, of the buffer byte at this block address, which nobody has written
  since power-on, when UNWRITTEN_READ is `fault` (10_state.md R67, 93_implementation_defined.md U5). Safe. -/
  | unwrittenRead (addr : Nat)
  /-- A command would read IBUF at this offset, which is not below IBUF_SIZE: no such byte exists
  (20_memory.md R102). Raised only by DECODE in a state whose header latch no PARSE or DECOMPRESS could have
  written (44_decoder_bit_reader.md R326; log 15). Safe. -/
  | outsideIbuf (offset : Nat)
  deriving DecidableEq, Repr

/-- Why an instruction has no meaning here. -/
inductive Refusal where
  /-- Raised by an arm of `exec` whose instruction has no meaning yet; no arm does. Safe. -/
  | notModelled (mnemonic : String)
  deriving DecidableEq, Repr

/-- Power-on reset (70_reset_and_hazards.md R450; the reset column of 10_state.md R33). The tables, whose contents
the spec leaves unspecified, are empty or zero (log 7); the model's own fields are empty or zero (log 3, 4, 5). -/
def State.reset : State where
  params := ⟨Config.ibufSize, Config.obufSize, Config.unwrittenRead⟩
  lastCmd := 0
  status := ⟨false, false, false, false, false, false, false, false⟩
  errs := ⟨0, 0⟩
  irqEn := ⟨false, false⟩
  range := ⟨0, 0, 0, 0⟩
  result := ⟨0, 0, 0, 0, 0, 0⟩
  query := ⟨0, 0, Vector.replicate 8 0⟩
  ft := []
  tree := ⟨Vector.replicate 511 (.leaf 0 0), 0, 0⟩
  ct := Vector.replicate 256 []
  hdr := ⟨0, 0, 0⟩
  mem := []
  agenda := []
  reads := []
  draws := 0

end Sys2Proof.Machine
end

