-- ==== Sys2Proof/Machine/Flags.lean ====
section
/-! DEFINITION. STATUS as a word, its VALID bits as a mask, write-one-to-clear, and the interrupt line
(10_state.md R37, R34, R69; 60_exceptions.md R409, R425). -/

namespace Sys2Proof.Machine

/-- The word a read of STATUS returns (10_state.md R37): BUSY is bit 0, HDR_VALID bit 7, bits 31:8 read 0. -/
def Status.toWord (st : Status) : Word :=
  BitVec.ofNat 32 (st.busy.toNat + 2 * st.done.toNat + 4 * st.err.toNat + 8 * st.busyWr.toNat
    + 16 * st.ftValid.toNat + 32 * st.treeValid.toNat + 64 * st.ctValid.toNat + 128 * st.hdrValid.toNat)

/-- The prerequisites a command misses: mask AND NOT (STATUS AND 0xF0) (60_exceptions.md R409). -/
def Status.missing (st : Status) (mask : Word) : Word :=
  mask &&& ~~~(st.toWord &&& 0xF0)

/-- A HOST write to STATUS: each of DONE, ERR and BUSY_WR is cleared where the written bit is 1
(10_state.md R34, R37). -/
def Status.writeOneToClear (st : Status) (v : Word) : Status :=
  { st with
    done := st.done && !v.getLsbD 1
    err := st.err && !v.getLsbD 2
    busyWr := st.busyWr && !v.getLsbD 3 }

/-- No table is valid any more (60_exceptions.md R420). -/
def Status.clearValid (st : Status) : Status :=
  { st with ftValid := false, treeValid := false, ctValid := false, hdrValid := false }

/-- The word a read of IRQ_EN returns (10_state.md R40). -/
def IrqEnable.toWord (e : IrqEnable) : Word := BitVec.ofNat 32 (e.doneEn.toNat + 2 * e.errEn.toNat)

/-- What a write to IRQ_EN stores: bits 1:0 (10_state.md R40). -/
def IrqEnable.ofWord (v : Word) : IrqEnable := ⟨v.getLsbD 0, v.getLsbD 1⟩

/-- The interrupt output (60_exceptions.md R425, 10_state.md R69). -/
def State.irq (s : State) : Bool :=
  (s.status.done && s.irqEn.doneEn) || (s.status.err && s.irqEn.errEn)

end Sys2Proof.Machine
end

