-- ==== Sys2Proof/Machine/Ops.lean ====
section
/-! DEFINITION. The named operations over memory and registers: the byte memory, the two completions of a command
(success, 60_exceptions.md R424; error, R420 and R421, the block's way of taking an exception), acceptance
(45_pipeline_commands.md R370, which with STATUS write-one-to-clear is the way back from an error, R428), and the
resets (70_reset_and_hazards.md R450–R452). -/

namespace Sys2Proof.Machine

/-! ### Memory -/

/-- The value at an address: what is listed there, or what an unlisted address reads as. -/
def Memory.read (m : Memory) (a : Nat) : Option Byte :=
  match m.find? (fun c => c.1 == a) with
  | some c => some c.2
  | none => Memory.unlisted

/-- The cells of bytes stored at increasing addresses from `a`. -/
def Memory.cells (a : Nat) : List Byte → Memory
  | [] => []
  | b :: bs => (a, b) :: Memory.cells (a + 1) bs

/-- Store bytes at increasing addresses from `a`, keeping every other address. -/
def Memory.store (m : Memory) (a : Nat) (bs : List Byte) : Memory :=
  m.filter (fun c => decide (c.1 < a)) ++ Memory.cells a bs
    ++ m.filter (fun c => decide (a + bs.length ≤ c.1))

/-- IBUF_BASE (20_memory.md R102). -/
def ibufBase : Nat := 0x10000000

/-- OBUF_BASE (20_memory.md R102). -/
def obufBase : Nat := 0x20000000

/-- A read of one buffer byte (10_state.md R67): the byte if somebody wrote it; else the parameter UNWRITTEN_READ
decides between a model fault and a free value, one for each byte and step (log 2, 3, 17). -/
def State.readByte (s : State) (a : Nat) : Except Fault Byte :=
  match s.mem.read a with
  | some b => .ok b
  | none =>
    match s.params.unwrittenRead with
    | .fault => .error (.unwrittenRead a)
    | .draw => .ok (Config.drawByte s.draws a)

/-- The next step takes fresh free values (log 3). -/
def State.tick (s : State) : State := { s with draws := s.draws + 1 }

/-! ### The output window -/

/-- How many bytes of OBUF[OUT_OFF .. OUT_OFF+OUT_CAP−1] exist (10_state.md R44; log 11). -/
def State.windowSize (s : State) : Nat :=
  min s.range.outCap.toNat (s.params.obufSize.toNat - s.range.outOff.toNat)

/-- The block address of OBUF[OUT_OFF] (20_memory.md R104). -/
def State.windowBase (s : State) : Nat := obufBase + s.range.outOff.toNat

/-- `n` free bytes for the addresses from `a` on. -/
def State.drawnBytes (s : State) (a : Nat) : Nat → List Byte
  | 0 => []
  | n + 1 => Config.drawByte s.draws a :: s.drawnBytes (a + 1) n

/-- Every byte of the output window takes any value, a draw per byte (60_exceptions.md R420,
70_reset_and_hazards.md R452). -/
def State.drawWindow (s : State) : State :=
  { s with mem := s.mem.store s.windowBase (s.drawnBytes s.windowBase s.windowSize) }

/-- The commands that write OBUF (60_exceptions.md R420, 20_memory.md R110). -/
def writesObuf : Instr → Bool
  | .compress => true
  | .decompress => true
  | .encode => true
  | .decode => true
  | .nop => false
  | .scan => false
  | .build => false
  | .assign => false
  | .parse => false
  | .query _ => false

/-! ### Completions -/

/-- The errors of 60_exceptions.md R400. -/
inductive ErrorCode where
  | emptyInput
  | unknownSymbol
  | malformedHeader
  | truncatedStream
  | malformedTree
  | invalidCode
  | illegalCommand
  | sequenceError
  | rangeError
  | outputOverflow
  deriving DecidableEq, Repr

/-- The value of ERR_CODE for each error (60_exceptions.md R400). -/
def ErrorCode.code : ErrorCode → Byte
  | .emptyInput => 1
  | .unknownSymbol => 2
  | .malformedHeader => 3
  | .truncatedStream => 4
  | .malformedTree => 5
  | .invalidCode => 6
  | .illegalCommand => 7
  | .sequenceError => 8
  | .rangeError => 9
  | .outputOverflow => 10

/-- The pre-check errors, detected before the command changes anything (60_exceptions.md R421). -/
def ErrorCode.isPreCheck : ErrorCode → Bool
  | .illegalCommand => true
  | .sequenceError => true
  | .rangeError => true
  | .emptyInput => false
  | .unknownSymbol => false
  | .malformedHeader => false
  | .truncatedStream => false
  | .malformedTree => false
  | .invalidCode => false
  | .outputOverflow => false

/-- Success completion (60_exceptions.md R424), after the command's own updates. -/
def State.complete (s : State) : State :=
  { s with
    errs := ⟨0, 0⟩
    status := { s.status with done := true, busy := false } }.tick

/-- What every error completion does (60_exceptions.md R420, R421). -/
def State.recordError (e : ErrorCode) (info : Word) (s : State) : State :=
  { s with
    errs := ⟨e.code, info⟩
    status := { s.status with err := true, busy := false } }.tick

/-- What an execution error takes away (60_exceptions.md R420): the VALID bits, the result registers and, for a
command that writes OBUF, the output window. The contents of the tables, now unspecified, are kept (log 8). -/
def State.discardResults (window : Bool) (s : State) : State :=
  let s := if window then s.drawWindow else s
  { s with status := s.status.clearValid, result := ⟨0, 0, 0, 0, 0, 0⟩ }

/-- `raise E(info)` (00_scope.md R17): error completion of a command, the one way an exception is taken.
A pre-check error changes nothing else (60_exceptions.md R421); an execution error has the effects of R420.
`window` says whether the command writes OBUF. -/
def State.raiseError (window : Bool) (e : ErrorCode) (info : Word) (s : State) : State :=
  if e.isPreCheck then s.recordError e info
  else (s.discardResults window).recordError e info

/-- Acceptance of a command word while idle (45_pipeline_commands.md R370). It also clears the error of the
command before, the second way back from an error (60_exceptions.md R428). -/
def State.accept (w : Word) (s : State) : State :=
  { s with
    lastCmd := w
    errs := ⟨0, 0⟩
    status := { s.status with busy := true, done := false, err := false } }

/-- The HOST acknowledges by writing STATUS, the first way back from an error (60_exceptions.md R428,
10_state.md R37). -/
def State.acknowledge (v : Word) (s : State) : State :=
  { s with status := s.status.writeOneToClear v }

/-! ### How a command ends -/

/-- Why a command's own computation does not reach its success completion: it raises an error of the block, or
the model faults. -/
inductive Stop where
  | error (e : ErrorCode) (info : Word)
  | fault (f : Fault)
  deriving DecidableEq, Repr

/-- A computation of a command. -/
abbrev Run (α : Type) := Except Stop α

/-- `raise E(info)` inside a computation. -/
def raise {α : Type} (e : ErrorCode) (info : Nat) : Run α := .error (.error e (BitVec.ofNat 32 info))

/-- The completion step of command `i` from state `s`, whose computation gives `r`: the state with the command's
updates, which then completes with success; or the error completion from `s` itself, so that nothing of the
command is half applied (60_exceptions.md R426). -/
def finish (i : Instr) (s : State) (r : Run State) : Host.Outcome State Fault Refusal :=
  match r with
  | .ok t => .next t.complete
  | .error (.error e info) => .next (s.raiseError (writesObuf i) e info)
  | .error (.fault f) => .fault f

/-! ### Resets -/

/-- Power-on reset (70_reset_and_hazards.md R450): every register, table and buffer byte as at reset. The
parameters, and the model's own fields, stay (log 19). -/
def State.powerOnReset (s : State) : State :=
  { State.reset with params := s.params, agenda := s.agenda, reads := s.reads, draws := s.draws }

/-- Soft reset of an idle block (70_reset_and_hazards.md R451): as power-on reset, but every buffer byte stays. -/
def State.softReset (s : State) : State := { s.powerOnReset with mem := s.mem }

end Sys2Proof.Machine
end

