-- ==== Sys2Proof/Machine/Operands.lean ====
section
/-! DEFINITION. The operands of the commands: the IBUF primitives (00_scope.md R17), the checks on the range
registers and the VALID bits (60_exceptions.md R409–R411), and the views of FT and CT (10_state.md R60, R63). -/

namespace Sys2Proof.Machine

/-- `ceil8(x)`, the bytes x bits need (00_scope.md R15). -/
def ceil8 (x : Nat) : Nat := (x + 7) / 8

/-- The largest 32-bit value. -/
def word32Max : Nat := 0xFFFFFFFF

/-- `min(x, 0xFFFFFFFF)` (60_exceptions.md R411). -/
def saturate (x : Nat) : Nat := min x word32Max

/-! ### IBUF -/

/-- `IB[o]`, one byte of the input buffer (00_scope.md R17, 20_memory.md R104). -/
def State.ib (s : State) (o : Nat) : Run Byte :=
  if o < s.params.ibufSize.toNat then
    match s.readByte (ibufBase + o) with
    | .ok b => .ok b
    | .error f => .error (.fault f)
  else .error (.fault (.outsideIbuf o))

/-- `IB[o .. o+n−1]`, read in increasing address order. -/
def State.ibytes (s : State) : (o n : Nat) → Run (List Byte)
  | _, 0 => .ok []
  | o, n + 1 => do
    let b ← s.ib o
    let bs ← s.ibytes (o + 1) n
    return b :: bs

/-- `LE32(o)` (00_scope.md R17, 30_encoding.md R151). -/
def State.le32 (s : State) (o : Nat) : Run Word := do
  let b0 ← s.ib o
  let b1 ← s.ib (o + 1)
  let b2 ← s.ib (o + 2)
  let b3 ← s.ib (o + 3)
  return leWord b0 b1 b2 b3

/-- IBUF[IN_OFF .. IN_OFF+IN_LEN−1], the input of SCAN and COMPRESS. -/
def State.inputBytes (s : State) : Run (List Byte) :=
  s.ibytes s.range.inOff.toNat s.range.inLen.toNat

/-! ### The checks -/

/-- SEQUENCE_ERROR: a table the command needs is not valid (60_exceptions.md R409). -/
def State.checkTables (s : State) (mask : Word) : Run Unit :=
  if s.status.missing mask = 0 then .ok ()
  else raise .sequenceError (s.status.missing mask).toNat

/-- RANGE_ERROR(1): IN_OFF + IN_LEN > IBUF_SIZE, without wrap-around (60_exceptions.md R410). -/
def State.checkInput (s : State) : Run Unit :=
  if s.params.ibufSize.toNat < s.range.inOff.toNat + s.range.inLen.toNat then raise .rangeError 1
  else .ok ()

/-- RANGE_ERROR(2): OUT_OFF + OUT_CAP > OBUF_SIZE, without wrap-around (60_exceptions.md R410). -/
def State.checkOutput (s : State) : Run Unit :=
  if s.params.obufSize.toNat < s.range.outOff.toNat + s.range.outCap.toNat then raise .rangeError 2
  else .ok ()

/-- EMPTY_INPUT: IN_LEN = 0 (60_exceptions.md R402). -/
def State.checkNonEmpty (s : State) : Run Unit :=
  if s.range.inLen = 0 then raise .emptyInput 0 else .ok ()

/-- OUTPUT_OVERFLOW of an encoder: `bits` does not fit VALID_BITS, or `bytes` does not fit the window
(60_exceptions.md R411). -/
def State.checkEncoded (s : State) (bits bytes : Nat) : Run Unit :=
  if word32Max < bits ∨ s.range.outCap.toNat < bytes then raise .outputOverflow (saturate bytes)
  else .ok ()

/-- OUTPUT_OVERFLOW of a decoder: HDR.n > OUT_CAP (60_exceptions.md R411). -/
def State.checkDecoded (s : State) (n : Word) : Run Unit :=
  if s.range.outCap.toNat < n.toNat then raise .outputOverflow n.toNat else .ok ()

/-- The command's OBUF writes, from OBUF[OUT_OFF] up (20_memory.md R104, R110). -/
def State.output (s : State) (bs : List Byte) : Memory := s.mem.store s.windowBase bs

/-! ### Views of the tables -/

/-- FT.cnt[s]: 0 for an absent symbol (10_state.md R60). -/
def FreqTable.cnt (ft : FreqTable) (sym : Byte) : Word :=
  match ft.find? (fun e => e.sym == sym) with
  | some e => e.cnt
  | none => 0

/-- FT.rank[s], meaningful for a present symbol (10_state.md R60). -/
def FreqTable.rank (ft : FreqTable) (sym : Byte) : Byte :=
  BitVec.ofNat 8 (ft.findIdx (fun e => e.sym == sym))

/-- FT.ord[r], meaningful for r < FT.K (10_state.md R60). -/
def FreqTable.ord (ft : FreqTable) (r : Nat) : Byte :=
  match ft[r]? with
  | some e => e.sym
  | none => 0

/-- FT.K (10_state.md R60). -/
def FreqTable.k (ft : FreqTable) : BitVec 9 := BitVec.ofNat 9 ft.length

/-- CT.bits[s] (10_state.md R63). -/
def CodeTable.bits (ct : CodeTable) (sym : Byte) : List Bool := ct[sym.toNat]'sym.isLt

/-- CT.len[s] (10_state.md R63). -/
def CodeTable.len (ct : CodeTable) (sym : Byte) : Nat := (CodeTable.bits ct sym).length

end Sys2Proof.Machine
end

