-- ==== Sys2Proof/Machine/CodeAssigner.lean ====
section
/-! DEFINITION. The code assigner (42_code_assigner.md): the tree walk, ASSIGN and QUERY. -/

namespace Sys2Proof.Machine

/-- CT.bits[s] ← c (10_state.md R63). -/
def CodeTable.put (ct : CodeTable) (sym : Byte) (c : List Bool) : CodeTable := ct.set sym.toNat c sym.isLt

/-- The table without entries (42_code_assigner.md R250). -/
def CodeTable.empty : CodeTable := Vector.replicate 256 []

/-- `walk(x, p)` (42_code_assigner.md R250): bit 0 descends left, bit 1 right. The first argument bounds the
depth; a built tree is at most 255 deep (41_tree_builder.md R225; log 14). -/
def walk (node : Vector Node 511) : (depth : Nat) → (x : Fin 511) → (p : List Bool) → CodeTable → CodeTable
  | 0, _, _, ct => ct
  | depth + 1, x, p, ct =>
    match node[x] with
    | .leaf sym _ => ct.put sym p
    | .internal left right _ =>
      walk node depth right (p ++ [true]) (walk node depth left (p ++ [false]) ct)

/-- `Assign()` (42_code_assigner.md R250); a single leaf has the one-bit code 0 (R251). -/
def assignCodes (t : Tree) : CodeTable :=
  match t.node[t.root] with
  | .leaf sym _ => CodeTable.empty.put sym [false]
  | .internal _ _ _ => walk t.node 256 t.root [] CodeTable.empty

/-- `MaxLen()` (42_code_assigner.md R254). -/
def CodeTable.maxLen (ct : CodeTable) : Nat := ct.toList.foldl (fun m c => max m c.length) 0

/-- The updates of ASSIGN (42_code_assigner.md R255). -/
def State.assigned (s : State) : State :=
  let ct := assignCodes s.tree
  { s with
    ct := ct
    status := { s.status with ctValid := true }
    result := { s.result with maxLen := BitVec.ofNat 8 (CodeTable.maxLen ct), outLen := 0 } }

/-- ASSIGN (42_code_assigner.md R255). -/
def execAssign (s : State) : Host.Outcome State Fault Refusal :=
  finish .assign s (do
    s.checkTables 0x30
    return s.assigned)

/-- The number whose bit i is the i-th bit of the sequence. -/
def lsbFirst : List Bool → Nat
  | [] => 0
  | b :: bs => b.toNat + 2 * lsbFirst bs

/-- Q_CODEj of the code c: bit i is c_{32·j+i}, and 0 past the end of c (10_state.md R54). -/
def queryCode (c : List Bool) (j : Nat) : Word := BitVec.ofNat 32 (lsbFirst ((c.drop (32 * j)).take 32))

/-- PRESENT of the queried symbol (10_state.md R53). -/
def State.queryPresent (s : State) (sym : Byte) : Bool :=
  s.status.ftValid && decide (0 < (FreqTable.cnt s.ft sym).toNat)

/-- The code QUERY reads out, empty where CODE_LEN is 0 (42_code_assigner.md R256). -/
def State.queryBits (s : State) (sym : Byte) : List Bool :=
  if s.queryPresent sym && s.status.ctValid then CodeTable.bits s.ct sym else []

/-- The Q registers QUERY writes (42_code_assigner.md R256; 10_state.md R52–R54). -/
def State.queryRegs (s : State) (sym : Byte) : QueryRegs :=
  let present := s.queryPresent sym
  let c := s.queryBits sym
  { freq := if present then FreqTable.cnt s.ft sym else 0
    info := BitVec.ofNat 8 c.length ++ (if present then FreqTable.rank s.ft sym else 0) ++ 0#7
      ++ BitVec.ofBool present
    code := #v[queryCode c 0, queryCode c 1, queryCode c 2, queryCode c 3, queryCode c 4, queryCode c 5,
      queryCode c 6, queryCode c 7] }

/-- QUERY s (42_code_assigner.md R256). -/
def execQuery (sym : Byte) (s : State) : Host.Outcome State Fault Refusal :=
  finish (.query sym) s (.ok { s with query := s.queryRegs sym })

end Sys2Proof.Machine
end

