-- ==== Sys2Proof/Machine/Decoder.lean ====
section
/-! DEFINITION. header parser, bit_reader and decoder (44_decoder_bit_reader.md), PARSE and DECODE. -/

namespace Sys2Proof.Machine

/-- `need(o, w)` of ParseHeader (44_decoder_bit_reader.md R321): the w-byte field at offset o is present. -/
def need (len o w : Nat) : Run Unit :=
  if len < o + w then raise .malformedHeader o else .ok ()

/-- The entry loop of ParseHeader (44_decoder_bit_reader.md R321): `m` entries from rank `r` on, after the
entries `ft` read so far. -/
def State.parseEntries (s : State) (off len : Nat) : (m r : Nat) → FreqTable → Run FreqTable
  | 0, _, ft => .ok ft
  | m + 1, r, ft => do
    need len (4 + 5 * r) 1
    let sym ← s.ib (off + 4 + 5 * r)
    if ft.any (fun e => e.sym == sym) then raise .malformedHeader (4 + 5 * r)
    else
      need len (5 + 5 * r) 4
      let f ← s.le32 (off + 5 + 5 * r)
      if f = 0 then raise .malformedHeader (5 + 5 * r)
      else s.parseEntries off len m (r + 1) (ft ++ [⟨sym, f⟩])

/-- `ParseHeader(off, len)` (44_decoder_bit_reader.md R321): FT and HDR. -/
def State.parseHeader (s : State) (off len : Nat) : Run (FreqTable × Header) := do
  need len 0 4
  let kw ← s.le32 off
  let k := kw.toNat
  if k = 0 ∨ 256 < k then raise .malformedHeader 0
  else
    let ft ← s.parseEntries off len k 0 []
    need len (4 + 5 * k) 4
    let n ← s.le32 (off + 4 + 5 * k)
    if n = 0 then raise .malformedHeader (4 + 5 * k)
    else
      need len (8 + 5 * k) 4
      let v ← s.le32 (off + 8 + 5 * k)
      if len - (12 + 5 * k) < ceil8 v.toNat then raise .truncatedStream 0
      else return (ft, ⟨n, v, BitVec.ofNat 32 (off + 12 + 5 * k)⟩)

/-- The updates of PARSE (44_decoder_bit_reader.md R325). -/
def State.parsed (s : State) (ft : FreqTable) (hdr : Header) : State :=
  { s with
    ft := ft
    hdr := hdr
    status := { s.status with ftValid := true, treeValid := false, ctValid := false, hdrValid := true }
    result :=
      { outLen := 0, symCount := FreqTable.k ft, totalSymbols := hdr.n, validBits := hdr.vbc, maxLen := 0,
        payOff := hdr.pay } }

/-- PARSE (44_decoder_bit_reader.md R325). -/
def execParse (s : State) : Host.Outcome State Fault Refusal :=
  finish .parse s (do
    s.checkInput
    let (ft, hdr) ← s.parseHeader s.range.inOff.toNat s.range.inLen.toNat
    return s.parsed ft hdr)

/-- Bit p of a payload byte sequence, first bit in bit 7 (30_encoding.md R153). -/
def payloadBit (b : Byte) (p : Nat) : Bool := b.getLsbD (7 - p % 8)

/-- `ReadBit(pay, p)` (44_decoder_bit_reader.md R320). -/
def State.readBit (s : State) (pay p : Nat) : Run Bool := do
  let b ← s.ib (pay + p / 8)
  return payloadBit b p

/-- The loop of `Decode` (44_decoder_bit_reader.md R322): `avail` valid bits are left from bit `p` on, `emitted`
symbols are out and `m` are still due; the cursor is `cur`. Answers the symbols still due. The cursor stands on a
leaf only when ROOT is that leaf (k = 1): then each symbol takes one 0 bit, and a 1 bit has no path (R323). -/
def State.decodeLoop (s : State) (t : Tree) (pay : Nat) :
    (avail p emitted m : Nat) → (cur : Fin 511) → Run (List Byte)
  | _, _, _, 0, _ => .ok []
  | 0, _, emitted, _ + 1, _ => raise .truncatedStream emitted
  | avail + 1, p, emitted, m + 1, cur => do
    let bit ← s.readBit pay p
    match t.node[cur] with
    | .leaf sym _ =>
      if bit then raise .invalidCode emitted
      else
        let rest ← s.decodeLoop t pay avail (p + 1) (emitted + 1) m t.root
        return sym :: rest
    | .internal left right _ =>
      let next := if bit then right else left
      match t.node[next] with
      | .leaf sym _ =>
        let rest ← s.decodeLoop t pay avail (p + 1) (emitted + 1) m t.root
        return sym :: rest
      | .internal _ _ _ => s.decodeLoop t pay avail (p + 1) emitted (m + 1) next

/-- `Decode`, from the first payload bit and the root (44_decoder_bit_reader.md R322). -/
def State.decodePayload (s : State) (t : Tree) (h : Header) : Run (List Byte) :=
  s.decodeLoop t h.pay.toNat h.vbc.toNat 0 0 h.n.toNat t.root

/-- The updates of DECODE, which decoded the bytes `out` (44_decoder_bit_reader.md R326). -/
def State.decoded (s : State) (out : List Byte) : State :=
  { s with
    mem := s.output out
    result := { s.result with outLen := s.hdr.n } }

/-- DECODE (44_decoder_bit_reader.md R326). -/
def execDecode (s : State) : Host.Outcome State Fault Refusal :=
  finish .decode s (do
    s.checkTables 0xB0
    s.checkOutput
    s.checkDecoded s.hdr.n
    let out ← s.decodePayload s.tree s.hdr
    return s.decoded out)

end Sys2Proof.Machine
end

