-- ==== Sys2Proof/Machine/Encoder.lean ====
section
/-! DEFINITION. encoder, bit_packer and artifact writer (43_encoder_bit_packer.md), and ENCODE. -/

namespace Sys2Proof.Machine

/-- One payload byte from at most eight bits, the first in bit 7, padding bits 0 (30_encoding.md R153, R154). -/
def byteMsb (bs : List Bool) : Byte :=
  BitVec.ofNat 8 ((List.range 8).foldl (fun v t => 2 * v + (bs.getD t false).toNat) 0)

/-- `n` payload bytes. -/
def packBytes : Nat → List Bool → List Byte
  | 0, _ => []
  | n + 1, bs => byteMsb (bs.take 8) :: packBytes n (bs.drop 8)

/-- `Pack` (43_encoder_bit_packer.md R280): the ceil8(B) bytes of a bit sequence. -/
def pack (bs : List Bool) : List Byte := packBytes (ceil8 bs.length) bs

/-- `Stream` (43_encoder_bit_packer.md R281): the codes of the input bytes, in input order. -/
def stream (ct : CodeTable) (bs : List Byte) : List Bool := bs.flatMap (CodeTable.bits ct)

/-- `WriteHeader` (43_encoder_bit_packer.md R283; 30_encoding.md R150): the header bytes in order. -/
def headerBytes (ft : FreqTable) (n vbc : Nat) : List Byte :=
  leBytes (BitVec.ofNat 32 ft.length) ++ ft.flatMap (fun e => e.sym :: leBytes e.cnt)
    ++ leBytes (BitVec.ofNat 32 n) ++ leBytes (BitVec.ofNat 32 vbc)

/-- Pass 1 of ENCODE (43_encoder_bit_packer.md R284): read `n` input bytes from the i-th on; the first one without
a code raises UNKNOWN_SYMBOL with its offset (R282). -/
def State.encodeInput (s : State) : (i n : Nat) → Run (List Byte)
  | _, 0 => .ok []
  | i, n + 1 => do
    let b ← s.ib (s.range.inOff.toNat + i)
    if CodeTable.len s.ct b = 0 then raise .unknownSymbol i
    else
      let bs ← s.encodeInput (i + 1) n
      return b :: bs

/-- The updates of ENCODE over the bytes read (43_encoder_bit_packer.md R284). -/
def State.encoded (s : State) (bs : List Byte) : State :=
  let bits := stream s.ct bs
  { s with
    mem := s.output (pack bits)
    result := { s.result with
      validBits := BitVec.ofNat 32 bits.length
      totalSymbols := s.range.inLen
      outLen := BitVec.ofNat 32 (ceil8 bits.length) } }

/-- ENCODE (43_encoder_bit_packer.md R284). -/
def execEncode (s : State) : Host.Outcome State Fault Refusal :=
  finish .encode s (do
    s.checkTables 0x70
    s.checkInput
    s.checkOutput
    s.checkNonEmpty
    let bs ← s.encodeInput 0 s.range.inLen.toNat
    s.checkEncoded (stream s.ct bs).length (ceil8 (stream s.ct bs).length)
    return s.encoded bs)

end Sys2Proof.Machine
end

