-- ==== Sys2Proof/Machine/Scanner.lean ====
section
/-! DEFINITION. frequency_table_scanner (40_frequency_scanner.md): the scan function and SCAN. -/

namespace Sys2Proof.Machine

/-- One byte of the scan (40_frequency_scanner.md R200): a symbol seen before counts one more, a new one is
appended with the next rank. -/
def FreqTable.bump : FreqTable → Byte → FreqTable
  | [], b => [⟨b, 1⟩]
  | e :: es, b => if e.sym = b then { e with cnt := e.cnt + 1 } :: es else e :: FreqTable.bump es b

/-- `Scan` over the bytes read (40_frequency_scanner.md R200). -/
def scanBytes (bs : List Byte) : FreqTable := bs.foldl FreqTable.bump []

/-- The updates of SCAN over the bytes read (40_frequency_scanner.md R201). -/
def State.scanned (s : State) (bs : List Byte) : State :=
  let ft := scanBytes bs
  { s with
    ft := ft
    status := { s.status with ftValid := true, treeValid := false, ctValid := false, hdrValid := false }
    result :=
      { outLen := 0, symCount := FreqTable.k ft, totalSymbols := s.range.inLen, validBits := 0, maxLen := 0,
        payOff := 0 } }

/-- SCAN (40_frequency_scanner.md R201). -/
def execScan (s : State) : Host.Outcome State Fault Refusal :=
  finish .scan s (do
    s.checkInput
    s.checkNonEmpty
    let bs ← s.inputBytes
    return s.scanned bs)

end Sys2Proof.Machine
end

