-- ==== Sys2Proof/Machine/TreeBuilder.lean ====
section
/-! DEFINITION. huffman_tree_builder and its priority queue (41_tree_builder.md), and BUILD. -/

namespace Sys2Proof.Machine

/-- A queue entry (w, q, x) (41_tree_builder.md R220). -/
structure QueueEntry where
  weight : BitVec 40
  seq : Nat
  node : Fin 511
  deriving DecidableEq, Repr

/-- The order of queue entries: by weight, then by insertion sequence (41_tree_builder.md R220). -/
def QueueEntry.less (x y : QueueEntry) : Bool :=
  decide (x.weight < y.weight) || (decide (x.weight = y.weight) && decide (x.seq < y.seq))

/-- `insert(Q, e)`: the queue is kept sorted, so that `extractMin` takes its head. R220 leaves the structure of
the queue free (log 13). -/
def queueInsert : List QueueEntry → QueueEntry → List QueueEntry
  | [], e => [e]
  | x :: xs, e => if e.less x then e :: x :: xs else x :: queueInsert xs e

/-- The variables of `Build()` (41_tree_builder.md R222): NODE, Q, q and next. -/
structure BuildState where
  node : Vector Node 511
  queue : List QueueEntry
  seq : Nat
  next : Nat
  deriving DecidableEq, Repr

/-- NODE[next] ← nd, and its insertion with the next sequence number (41_tree_builder.md R221, R222). -/
def BuildState.add (b : BuildState) (nd : Node) (weight : BitVec 40) (queue : List QueueEntry) : BuildState where
  node := b.node.setIfInBounds b.next nd
  queue := queueInsert queue ⟨weight, b.seq, Fin.ofNat 511 b.next⟩
  seq := b.seq + 1
  next := b.next + 1

/-- The leaves, in FT order (41_tree_builder.md R221, R222). -/
def loadLeaves : FreqTable → BuildState → BuildState
  | [], b => b
  | e :: es, b =>
    loadLeaves es (b.add (.leaf e.sym (e.cnt.setWidth 40)) (e.cnt.setWidth 40) b.queue)

/-- `while |Q| > 1`: extract two entries, the first becomes the left child, and insert their parent
(41_tree_builder.md R222). Each turn leaves one entry fewer, so the number of leaves bounds the turns. -/
def mergeAll : Nat → BuildState → BuildState
  | 0, b => b
  | fuel + 1, b =>
    match b.queue with
    | x :: y :: rest =>
      mergeAll fuel
        (b.add (.internal x.node y.node (x.weight + y.weight)) (x.weight + y.weight) rest)
    | _ => b

/-- `Build()` (41_tree_builder.md R222). NODE entries it does not write keep their contents (log 18); on an
empty FT, which never reaches it (R223), ROOT keeps its value (log 16). -/
def buildTree (ft : FreqTable) (old : Tree) : Tree :=
  let b := mergeAll ft.length (loadLeaves ft ⟨old.node, [], 0, 0⟩)
  { node := b.node
    root := match b.queue with
      | e :: _ => e.node
      | [] => old.root
    count := BitVec.ofNat 10 b.next }

/-- The updates of BUILD (41_tree_builder.md R226). -/
def State.built (s : State) : State :=
  { s with
    tree := buildTree s.ft s.tree
    status := { s.status with treeValid := true, ctValid := false }
    result := { s.result with maxLen := 0, outLen := 0 } }

/-- BUILD (41_tree_builder.md R226). -/
def execBuild (s : State) : Host.Outcome State Fault Refusal :=
  finish .build s (do
    s.checkTables 0x10
    return s.built)

end Sys2Proof.Machine
end

