-- ==== Sys2Proof/Machine/Pipeline.lean ====
section
/-! DEFINITION. NOP and the whole-path commands COMPRESS and DECOMPRESS (45_pipeline_commands.md). -/

namespace Sys2Proof.Machine

/-- NOP (45_pipeline_commands.md R371). -/
def execNop (s : State) : Host.Outcome State Fault Refusal := finish .nop s (.ok s)

/-- `Bits(FT, CT)` (42_code_assigner.md R253): an exact natural number. -/
def totalBits (ft : FreqTable) (ct : CodeTable) : Nat :=
  (ft.map (fun e => e.cnt.toNat * CodeTable.len ct e.sym)).sum

/-- The artifact: header, then packed payload (30_encoding.md R150). -/
def artifact (ft : FreqTable) (ct : CodeTable) (bs : List Byte) : List Byte :=
  headerBytes ft bs.length (totalBits ft ct) ++ pack (stream ct bs)

/-- The frequency table, tree and code table COMPRESS makes of its input (45_pipeline_commands.md R372). -/
def State.freshCodes (s : State) (bs : List Byte) : FreqTable × Tree × CodeTable :=
  let ft := scanBytes bs
  let tree := buildTree ft s.tree
  (ft, tree, assignCodes tree)

/-- L, the bytes of an artifact whose payload has `v` bits (30_encoding.md R150, 45_pipeline_commands.md R372). -/
def artifactSize (ft : FreqTable) (v : Nat) : Nat := 12 + 5 * ft.length + ceil8 v

/-- The updates of COMPRESS over the bytes read (45_pipeline_commands.md R372; PAY_OFF: log 21). -/
def State.compressed (s : State) (bs : List Byte) : State :=
  let (ft, tree, ct) := s.freshCodes bs
  let v := totalBits ft ct
  { s with
    ft := ft
    tree := tree
    ct := ct
    mem := s.output (artifact ft ct bs)
    status := { s.status with ftValid := true, treeValid := true, ctValid := true, hdrValid := false }
    result :=
      { outLen := BitVec.ofNat 32 (artifactSize ft v), symCount := FreqTable.k ft, totalSymbols := s.range.inLen,
        validBits := BitVec.ofNat 32 v, maxLen := BitVec.ofNat 8 (CodeTable.maxLen ct), payOff := 0 } }

/-- COMPRESS (45_pipeline_commands.md R372). -/
def execCompress (s : State) : Host.Outcome State Fault Refusal :=
  finish .compress s (do
    s.checkInput
    s.checkOutput
    s.checkNonEmpty
    let bs ← s.inputBytes
    let (ft, _, ct) := s.freshCodes bs
    s.checkEncoded (totalBits ft ct) (artifactSize ft (totalBits ft ct))
    return s.compressed bs)

/-- The updates of DECOMPRESS, which parsed `ft` and `hdr` and decoded `out` (45_pipeline_commands.md R373). -/
def State.decompressed (s : State) (ft : FreqTable) (hdr : Header) (out : List Byte) : State :=
  { s with
    ft := ft
    hdr := hdr
    tree := buildTree ft s.tree
    mem := s.output out
    status := { s.status with ftValid := true, treeValid := true, ctValid := false, hdrValid := true }
    result :=
      { outLen := hdr.n, symCount := FreqTable.k ft, totalSymbols := hdr.n, validBits := hdr.vbc,
        maxLen := 0, payOff := hdr.pay } }

/-- DECOMPRESS (45_pipeline_commands.md R373). -/
def execDecompress (s : State) : Host.Outcome State Fault Refusal :=
  finish .decompress s (do
    s.checkInput
    s.checkOutput
    let (ft, hdr) ← s.parseHeader s.range.inOff.toNat s.range.inLen.toNat
    s.checkDecoded hdr.n
    let out ← s.decodePayload (buildTree ft s.tree) hdr
    return s.decompressed ft hdr out)

end Sys2Proof.Machine
end

