-- ==== Sys2Proof/Machine/HostPort.lean ====
section
/-! DEFINITION. The HOST's side of the block: the address map (20_memory.md R102), the CSR file (10_state.md R33),
what a HOST read returns and what a HOST write does, idle and while BUSY (20_memory.md R103–R115). -/

namespace Sys2Proof.Machine

/-! ### The address map -/

/-- The defined registers (10_state.md R33). -/
inductive Csr where
  | id
  | ctrl
  | cmd
  | status
  | errCode
  | errInfo
  | irqEn
  | inOff
  | inLen
  | outOff
  | outCap
  | outLen
  | symCount
  | totalSymbols
  | validBits
  | maxLen
  | payOff
  | qFreq
  | qInfo
  | qCode (j : Fin 8)
  | ibufSize
  | obufSize
  deriving DecidableEq, Repr

/-- The register at an offset of the CSR window; none at a reserved offset (10_state.md R33, R55). -/
def Csr.ofOffset (off : Nat) : Option Csr :=
  match off with
  | 0x000 => some .id
  | 0x004 => some .ctrl
  | 0x008 => some .cmd
  | 0x00C => some .status
  | 0x010 => some .errCode
  | 0x014 => some .errInfo
  | 0x018 => some .irqEn
  | 0x01C => some .inOff
  | 0x020 => some .inLen
  | 0x024 => some .outOff
  | 0x028 => some .outCap
  | 0x02C => some .outLen
  | 0x030 => some .symCount
  | 0x034 => some .totalSymbols
  | 0x038 => some .validBits
  | 0x03C => some .maxLen
  | 0x040 => some .payOff
  | 0x044 => some .qFreq
  | 0x048 => some .qInfo
  | 0x04C => some (.qCode 0)
  | 0x050 => some (.qCode 1)
  | 0x054 => some (.qCode 2)
  | 0x058 => some (.qCode 3)
  | 0x05C => some (.qCode 4)
  | 0x060 => some (.qCode 5)
  | 0x064 => some (.qCode 6)
  | 0x068 => some (.qCode 7)
  | 0x06C => some .ibufSize
  | 0x070 => some .obufSize
  | _ => none

/-- The window an address lies in, with the offset inside it (20_memory.md R102). -/
inductive Region where
  | csr (off : Nat)
  | ibuf (off : Nat)
  | obuf (off : Nat)
  | unmapped
  deriving DecidableEq, Repr

/-- The address map (20_memory.md R102). -/
def State.region (s : State) (a : Nat) : Region :=
  if a < 0x1000 then .csr a
  else if ibufBase ≤ a ∧ a < ibufBase + s.params.ibufSize.toNat then .ibuf (a - ibufBase)
  else if obufBase ≤ a ∧ a < obufBase + s.params.obufSize.toNat then .obuf (a - obufBase)
  else .unmapped

/-- The bytes of an access (20_memory.md R100). -/
def accessBytes : AccessSize → Nat
  | .one => 1
  | .two => 2
  | .four => 4

/-- A CSR access is defined only when it is four bytes wide and aligned (20_memory.md R103). -/
def csrAccessOk (size : AccessSize) (a : Nat) : Bool := decide (size = .four) && decide (a % 4 = 0)

/-- A buffer access is performed only when it is naturally aligned and lies wholly in the window
(20_memory.md R105). -/
def bufferAccessOk (size : AccessSize) (a off limit : Nat) : Bool :=
  decide (a % accessBytes size = 0) && decide (off + accessBytes size ≤ limit)

/-! ### Reads -/

/-- The value of a register (10_state.md R31–R54); narrower registers are zero-extended, and CTRL reads 0 (R35). -/
def State.csrRead (s : State) : Csr → Word
  | .id => 0x48554631
  | .ctrl => 0
  | .cmd => s.lastCmd
  | .status => s.status.toWord
  | .errCode => s.errs.code.setWidth 32
  | .errInfo => s.errs.info
  | .irqEn => s.irqEn.toWord
  | .inOff => s.range.inOff
  | .inLen => s.range.inLen
  | .outOff => s.range.outOff
  | .outCap => s.range.outCap
  | .outLen => s.result.outLen
  | .symCount => s.result.symCount.setWidth 32
  | .totalSymbols => s.result.totalSymbols
  | .validBits => s.result.validBits
  | .maxLen => s.result.maxLen.setWidth 32
  | .payOff => s.result.payOff
  | .qFreq => s.query.freq
  | .qInfo => s.query.info.setWidth 32
  | .qCode j => s.query.code[j]
  | .ibufSize => s.params.ibufSize
  | .obufSize => s.params.obufSize

/-- The word at a CSR offset; reserved offsets read 0 (10_state.md R55). -/
def State.csrReadAt (s : State) (off : Nat) : Word :=
  match Csr.ofOffset off with
  | some r => s.csrRead r
  | none => 0

/-- The data word of bytes read from increasing addresses, the lowest in bits 7:0 (20_memory.md R107). -/
def leData (bs : List Byte) : Word := BitVec.ofNat 32 (bs.foldr (fun b v => b.toNat + 256 * v) 0)

/-- `n` buffer bytes from block address `a` up; the lowest unwritten one decides a fault (log 22). -/
def State.readBytes (s : State) : (a n : Nat) → Except Fault (List Byte)
  | _, 0 => .ok []
  | a, n + 1 => do
    let b ← s.readByte a
    let bs ← s.readBytes (a + 1) n
    return b :: bs

/-- The data a HOST read returns (20_memory.md R103, R105–R107, R112, R114, R115). -/
def State.hostReadData (s : State) (size : AccessSize) (addr : Word) : Except Fault Word :=
  let a := addr.toNat
  match s.region a with
  | .csr off => .ok (if csrAccessOk size a then s.csrReadAt off else 0)
  | .ibuf off =>
    if bufferAccessOk size a off s.params.ibufSize.toNat then do
      let bs ← s.readBytes a (accessBytes size)
      return leData bs
    else .ok 0
  | .obuf off =>
    if bufferAccessOk size a off s.params.obufSize.toNat then
      if s.status.busy then .ok (leData (s.drawnBytes a (accessBytes size)))
      else do
        let bs ← s.readBytes a (accessBytes size)
        return leData bs
    else .ok 0
  | .unmapped => .ok 0

/-! ### Writes -/

/-- A HOST write dropped while BUSY (20_memory.md R113). -/
def State.dropWrite (s : State) : State := { s with status := { s.status with busyWr := true } }

/-- A HOST write to one of the range registers: dropped while BUSY (10_state.md R41–R44, 20_memory.md R113). -/
def State.writeRange (s : State) (r : RangeRegs) : State :=
  if s.status.busy then s.dropWrite else { s with range := r }

/-- What an abort does to the output window of the abandoned command (70_reset_and_hazards.md R452). -/
def State.abandon (s : State) : State :=
  if s.status.busy then
    match decodeWord s.lastCmd with
    | .ok i => if writesObuf i then s.drawWindow else s
    | .error _ => s
  else s

/-- A HOST write of `v` to a register (10_state.md R33, R35–R44; 20_memory.md R113). -/
def State.csrWrite (s : State) (v : Word) : Csr → State
  | .ctrl => if v.getLsbD 0 then s.abandon.softReset else s
  | .cmd => if s.status.busy then s.dropWrite else s.accept v
  | .status => s.acknowledge v
  | .irqEn => { s with irqEn := IrqEnable.ofWord v }
  | .inOff => s.writeRange { s.range with inOff := v }
  | .inLen => s.writeRange { s.range with inLen := v }
  | .outOff => s.writeRange { s.range with outOff := v }
  | .outCap => s.writeRange { s.range with outCap := v }
  | .id => s
  | .errCode => s
  | .errInfo => s
  | .outLen => s
  | .symCount => s
  | .totalSymbols => s
  | .validBits => s
  | .maxLen => s
  | .payOff => s
  | .qFreq => s
  | .qInfo => s
  | .qCode _ => s
  | .ibufSize => s
  | .obufSize => s

/-- A HOST write at a CSR offset; a reserved offset ignores it (10_state.md R55). -/
def State.csrWriteAt (s : State) (off : Nat) (v : Word) : State :=
  match Csr.ofOffset off with
  | some r => s.csrWrite v r
  | none => s

/-- Store the enabled lanes of a write, from lane `i` on, `n` lanes (20_memory.md R105, R107; log 10). -/
def storeLanes (a : Nat) (lanes : BitVec 4) (data : Word) : (i n : Nat) → Memory → Memory
  | _, 0, m => m
  | i, n + 1, m =>
    storeLanes a lanes data (i + 1) n
      (if lanes.getLsbD i then m.store (a + i) [data.extractLsb' (8 * i) 8] else m)

/-- A HOST write that starts in a buffer window of `limit` bytes (20_memory.md R105, R113). While BUSY it is dropped
and sets BUSY_WR, as any write to IBUF or OBUF does, a misaligned or overrunning one included (log 9). -/
def State.bufferWrite (s : State) (size : AccessSize) (a off limit : Nat) (lanes : BitVec 4) (data : Word) :
    State :=
  if s.status.busy then s.dropWrite
  else if bufferAccessOk size a off limit then
    { s with mem := storeLanes a lanes data 0 (accessBytes size) s.mem }
  else s

/-- What a HOST write does (20_memory.md R103, R105, R106, R113). -/
def State.hostWriteEffect (s : State) (size : AccessSize) (addr : Word) (lanes : BitVec 4) (data : Word) : State :=
  let a := addr.toNat
  match s.region a with
  | .csr off => if csrAccessOk size a && decide (lanes = 0xF) then s.csrWriteAt off data else s
  | .ibuf off => s.bufferWrite size a off s.params.ibufSize.toNat lanes data
  | .obuf off => s.bufferWrite size a off s.params.obufSize.toNat lanes data
  | .unmapped => s

/-- One HOST access, atomic (20_memory.md R101). A read has no side effect on the block (R109); its data is the
model's record of what the HOST saw (log 5). -/
def hostAccess (a : HostAccess) (s : State) : Host.Outcome State Fault Refusal :=
  match a with
  | .read size addr =>
    match s.hostReadData size addr with
    | .ok d => .next { s with reads := d :: s.reads }.tick
    | .error f => .fault f
  | .write size addr lanes data => .next (s.hostWriteEffect size addr lanes data).tick

end Sys2Proof.Machine
end

