-- ==== Sys2Proof/Machine/Engine.lean ====
section
/-! DEFINITION. Whose turn it is (00_scope.md R11, R12; log 4): the ENGINE's completion step, one HOST access, the
HOST's wait loop, or power-on reset. -/

namespace Sys2Proof.Machine

/-- The completion of a word that is not legal (30_encoding.md R144, 60_exceptions.md R408). -/
def State.illegalCommand (s : State) : State := s.raiseError false .illegalCommand s.lastCmd

/-- The ENGINE's turn: the completion step of the pending command (00_scope.md R12, 45_pipeline_commands.md R370).
When no command is pending the ENGINE does nothing (60_exceptions.md R436). -/
def engineTurn (s : State) : Host.Outcome State Fault Refusal :=
  if s.status.busy then
    match decodeWord s.lastCmd with
    | .ok i => exec i s
    | .error _ => .next s.illegalCommand
  else .next s

/-- One turn of WAIT (30_encoding.md R158): read STATUS; while BUSY, let the ENGINE run and read again, as the
fairness of 00_scope.md R13 grants. -/
def waitTurn (s : State) : State :=
  { s with
    reads := s.csrRead .status :: s.reads
    agenda := if s.status.busy then .engine :: .wait :: s.agenda else s.agenda }.tick

/-- What an event does, once it is off the agenda. -/
def perform (e : Event) (s : State) : Host.Outcome State Fault Refusal :=
  match e with
  | .access a => hostAccess a s
  | .wait => .next (waitTurn s)
  | .engine => engineTurn s
  | .powerOn => .next s.powerOnReset.tick

/-- The next event, or, when the outside world brings none, the ENGINE's turn. -/
def nextStep (s : State) : Host.Outcome State Fault Refusal :=
  match s.agenda with
  | e :: rest => perform e { s with agenda := rest }
  | [] => engineTurn s

end Sys2Proof.Machine
end

