-- ==== Sys2Proof/Machine/Step.lean ====
section
/-! DEFINITION. One step of the machine, and the state whose next step runs a given command word. -/

namespace Sys2Proof.Machine

/-- One step: one HOST access, or one completion step of the ENGINE (00_scope.md R12). -/
def step (s : State) : Host.Outcome State Fault Refusal := nextStep s

/-- `s` with the command word accepted (45_pipeline_commands.md R370) and the ENGINE's turn next: the block fetches
no instructions (20_memory.md R118), its pending command is the one instruction it runs (log 6). -/
def State.withFetchWord (s : State) (nbits w : Nat) : State :=
  { s.accept (tableWord nbits w) with agenda := .engine :: s.agenda }

end Sys2Proof.Machine
end

