-- ==== Sys2Proof/Safety.lean ====
section
/-! DEFINITION. The terms in which claims about the block are stated: the invariant of the machine and its parts,
what it means that IBUF holds given bytes, that a bit sequence is a code of a tree, and that two states differ only
in tables no rule may read. -/

namespace Sys2Proof.Safety

open Sys2Proof.Machine

/-! ### The invariant -/

/-- The parameters keep the bounds of 00_scope.md R8. -/
def ParamsOk (p : Params) : Prop :=
  1 ≤ p.ibufSize.toNat ∧ p.ibufSize.toNat ≤ 2 ^ 28 ∧ 1 ≤ p.obufSize.toNat ∧ p.obufSize.toNat ≤ 2 ^ 28

/-- What 10_state.md R37 and R65 say follows from the rules: DONE and ERR never both, neither while BUSY, and the
implications between the VALID bits. -/
def StatusOk (st : Status) : Prop :=
  ¬(st.done = true ∧ st.err = true) ∧ (st.busy = true → st.done = false ∧ st.err = false) ∧
    (st.treeValid = true → st.ftValid = true) ∧ (st.ctValid = true → st.treeValid = true) ∧
    (st.hdrValid = true → st.ftValid = true)

/-- ERR_CODE and ERR_INFO beside STATUS (10_state.md R38, R39; 60_exceptions.md R400, R406): the legal codes
without 5, zero while BUSY or DONE, not zero while ERR. -/
def ErrorsOk (s : State) : Prop :=
  s.errs.code.toNat ≤ 10 ∧ s.errs.code ≠ 5 ∧
    (s.status.busy = true ∨ s.status.done = true → s.errs = ⟨0, 0⟩) ∧
    (s.status.err = true → s.errs.code ≠ 0)

/-- The buffers: canonical, and only bytes of the two windows are listed (20_memory.md R102). -/
def MemoryOk (s : State) : Prop :=
  s.mem.wf ∧ ∀ c ∈ s.mem,
    (ibufBase ≤ c.1 ∧ c.1 < ibufBase + s.params.ibufSize.toNat) ∨
      (obufBase ≤ c.1 ∧ c.1 < obufBase + s.params.obufSize.toNat)

/-- A frequency table a command may use (10_state.md R60, 00_scope.md R9): 1 to 256 pairwise distinct symbols, each
counted at least once. -/
def FreqTableOk (ft : FreqTable) : Prop :=
  1 ≤ ft.length ∧ ft.length ≤ 256 ∧ (ft.map (fun e => e.sym)).Nodup ∧ ∀ e ∈ ft, e.cnt ≠ 0

/-- What a VALID bit promises about its table (10_state.md R60–R65): FT is well formed and SYM_COUNT is its size;
NODE is the tree BUILD makes of FT; CT is the code table ASSIGN makes of NODE, MAX_LEN its greatest length; the
latched payload lies inside IBUF and PAY_OFF shows its offset. -/
def TablesOk (s : State) : Prop :=
  (s.status.ftValid = true → FreqTableOk s.ft ∧ s.result.symCount = FreqTable.k s.ft) ∧
    (s.status.treeValid = true → ∃ old, s.tree = buildTree s.ft old) ∧
    (s.status.ctValid = true →
      s.ct = assignCodes s.tree ∧ s.result.maxLen = BitVec.ofNat 8 (CodeTable.maxLen s.ct)) ∧
    (s.status.hdrValid = true →
      s.hdr.n ≠ 0 ∧ s.hdr.pay.toNat + ceil8 s.hdr.vbc.toNat ≤ s.params.ibufSize.toNat ∧
        s.result.payOff = s.hdr.pay)

/-- The result registers show nothing of a table that is not valid (10_state.md R45–R51). -/
def ResultsOk (s : State) : Prop :=
  (s.status.ftValid = false → s.result = ⟨0, 0, 0, 0, 0, 0⟩) ∧
    (s.status.ctValid = false → s.result.maxLen = 0) ∧
    (s.status.hdrValid = false → s.result.payOff = 0)

/-- The invariant of the machine. -/
structure Inv (s : State) : Prop where
  params : ParamsOk s.params
  status : StatusOk s.status
  errors : ErrorsOk s
  memory : MemoryOk s
  tables : TablesOk s
  results : ResultsOk s

/-! ### What IBUF holds -/

/-- The bytes of IBUF from offset `off` on are `bs`, as the ENGINE reads them. -/
def BytesAt (s : State) (off : Nat) (bs : List Byte) : Prop :=
  ∀ i (h : i < bs.length), s.ib (off + i) = .ok bs[i]

/-- The input range holds exactly `bs`, and lies inside IBUF. -/
def InputHolds (s : State) (bs : List Byte) : Prop :=
  bs.length = s.range.inLen.toNat ∧ s.range.inOff.toNat + s.range.inLen.toNat ≤ s.params.ibufSize.toNat ∧
    BytesAt s s.range.inOff.toNat bs

/-- The payload at IBUF offset `pay` starts with the bits `bits`, as the bit_reader reads them. -/
def BitsAt (s : State) (pay : Nat) (bits : List Bool) : Prop :=
  ∀ p (h : p < bits.length), s.readBit pay p = .ok bits[p]

/-- The input range lies inside IBUF and starts with the header of the well-formed table `ft`, a positive symbol count
`n` and `vbc` valid bits, and it holds the payload bytes of those bits: what ParseHeader accepts (30_encoding.md R150,
44_decoder_bit_reader.md R321). -/
def ArtifactAt (s : State) (ft : FreqTable) (n vbc : Word) : Prop :=
  FreqTableOk ft ∧ n ≠ 0 ∧ s.range.inOff.toNat + s.range.inLen.toNat ≤ s.params.ibufSize.toNat ∧
    BytesAt s s.range.inOff.toNat (headerBytes ft n.toNat vbc.toNat) ∧
    12 + 5 * ft.length + (vbc.toNat + 7) / 8 ≤ s.range.inLen.toNat

/-- The output window lies inside OBUF. -/
def OutputFits (s : State) : Prop :=
  s.range.outOff.toNat + s.range.outCap.toNat ≤ s.params.obufSize.toNat

/-! ### HOST accesses without effect -/

/-- A HOST read that returns 0. -/
def ReadsZero (s : State) (size : AccessSize) (a : Word) : Prop :=
  hostAccess (.read size a) s = .next { s with reads := 0 :: s.reads, draws := s.draws + 1 }

/-- A HOST write that changes no register, table, flag or byte. -/
def IgnoresWrite (s : State) (size : AccessSize) (a : Word) (lanes : BitVec 4) (data : Word) : Prop :=
  hostAccess (.write size a lanes data) s = .next { s with draws := s.draws + 1 }

/-! ### Codes of a tree -/

/-- The symbol of the leaf a path leads to from node x (42_code_assigner.md R250), if it ends on a leaf and meets
none before. -/
def leafAt (node : Vector Node 511) : (x : Fin 511) → List Bool → Option Byte
  | x, [] =>
    match node[x] with
    | .leaf sym _ => some sym
    | .internal _ _ _ => none
  | x, b :: bs =>
    match node[x] with
    | .leaf _ _ => none
    | .internal left right _ => leafAt node (if b then right else left) bs

/-- `c` is the code of `sym` in the tree: the one bit 0 when the root is its leaf (42_code_assigner.md R251), else
the path from the root to its leaf (R250). -/
def IsCode (t : Tree) (sym : Byte) (c : List Bool) : Prop :=
  match t.node[t.root] with
  | .leaf x _ => x = sym ∧ c = [false]
  | .internal _ _ _ => leafAt t.node t.root c = some sym

/-- The bits `q`, walked from the root, reach no leaf: there are none, or the walk ends in the middle of a code
(44_decoder_bit_reader.md R324). -/
def NoLeafOn (t : Tree) (q : List Bool) : Prop := q = [] ∨ ∀ q', q' <+: q → leafAt t.node t.root q' = none

/-! ### Nodes still in the queue -/

/-- The weight of a node (10_state.md R61). -/
def nodeWeight : Node → BitVec 40
  | .leaf _ w => w
  | .internal _ _ w => w

/-- Node x exists before node `n` is made, and no internal node before `n` has it as a child: it is in the queue
when the merge that makes `n` starts (41_tree_builder.md R222). -/
def InQueue (node : Vector Node 511) (n : Nat) (x : Fin 511) : Prop :=
  x.val < n ∧ ∀ y : Fin 511, y.val < n →
    match node[y] with
    | .leaf _ _ => True
    | .internal left right _ => left ≠ x ∧ right ≠ x

/-- The queue order on nodes: weight, then index, which is the insertion sequence (41_tree_builder.md R220, R223). -/
def NodeLess (node : Vector Node 511) (x y : Fin 511) : Prop :=
  nodeWeight node[x] < nodeWeight node[y] ∨ (nodeWeight node[x] = nodeWeight node[y] ∧ x.val < y.val)

/-! ### Tables no rule may read -/

/-- Two states agree on everything but the contents of tables whose VALID bit is 0, and of NODE, which FT
determines where it is valid (93_implementation_defined.md U4). -/
structure SameVisible (s u : State) : Prop where
  params : s.params = u.params
  lastCmd : s.lastCmd = u.lastCmd
  status : s.status = u.status
  errs : s.errs = u.errs
  irqEn : s.irqEn = u.irqEn
  range : s.range = u.range
  result : s.result = u.result
  query : s.query = u.query
  mem : s.mem = u.mem
  agenda : s.agenda = u.agenda
  reads : s.reads = u.reads
  draws : s.draws = u.draws
  ft : s.status.ftValid = true → s.ft = u.ft
  ct : s.status.ctValid = true → s.ct = u.ct
  hdr : s.status.hdrValid = true → s.hdr = u.hdr

/-- The outcomes of two steps that no HOST can tell apart. -/
def SameOutcome : Host.Outcome State Fault Refusal → Host.Outcome State Fault Refusal → Prop
  | .next s, .next u => SameVisible s u
  | .fault f, .fault g => f = g
  | .refused f, .refused g => f = g
  | _, _ => False

end Sys2Proof.Safety
end

