-- ==== Sys2Proof/Certificates/Slice0/Obligations.lean ====
section
/-! DEFINITION. The statements about the block, each from the numbered rules of spec/. A next state is written out
field by field, so each completion statement is also the frame of its command: what it does not list is unchanged.
`draws` is the model's own counter (log 3): every completion and every HOST access adds one to it. -/

open Sys2Proof Sys2Proof.Machine Sys2Proof.Safety

/-! ### Encodings -/

/-- Decoding undoes encoding, and nothing but an encoding decodes (30_encoding.md R140, R141, R146; 20_memory.md
R107). -/
def Obligations.DecodeInvertsEncode : Prop :=
  (∀ (i : Instr) (rest : List Byte), decode (encode i ++ rest) = .ok (i, rest)) ∧
    ∀ (bs rest : List Byte) (i : Instr), decode bs = .ok (i, rest) → bs = encode i ++ rest

/-- The legal words are those of 30_encoding.md R143, and exactly they decode. -/
def Obligations.LegalWordsAreThoseThatDecode : Prop :=
  ∀ w : Word,
    (legal w = true ↔
      w.toNat % 256 ∈ [0x00, 0x01, 0x02, 0x10, 0x11, 0x12, 0x13, 0x14, 0x15, 0x20] ∧ w.toNat / 65536 = 0 ∧
        (w.toNat % 256 = 0x20 ∨ w.toNat / 256 % 256 = 0)) ∧
      ((∃ i, decodeWord w = .ok i) ↔ legal w = true)

/-- Words written out from the opcode map decode to their commands (30_encoding.md R141). -/
def Obligations.SampleWordsDecode : Prop :=
  decodeWord 0x00000000 = .ok .nop ∧ decodeWord 0x00000001 = .ok .compress ∧
    decodeWord 0x00000012 = .ok .assign ∧ decodeWord 0x00000015 = .ok .decode ∧
    decodeWord 0x00006120 = .ok (.query 0x61) ∧ decodeWord 0x00000003 = .error .unknownOpcode ∧
    decodeWord 0x00000100 = .error .symNotZero ∧ decodeWord 0x00010001 = .error .reservedBits

/-! ### The step -/

/-- The ENGINE's step runs the decoded pending command, whether nothing else is on the agenda or its turn is
(00_scope.md R12, 45_pipeline_commands.md R370; log 4). -/
def Obligations.StepRunsPendingCommand : Prop :=
  ∀ (s : State) (i : Instr), s.status.busy = true → decodeWord s.lastCmd = .ok i →
    (s.agenda = [] → step s = exec i s) ∧
      ∀ rest, s.agenda = .engine :: rest → step s = exec i { s with agenda := rest }

/-- A fetched word is accepted and runs in the very next step (log 6). -/
def Obligations.FetchedWordRunsNext : Prop :=
  ∀ (s : State) (i : Instr),
    step (s.withFetchWord 32 (encodeWord i).toNat) = exec i (s.accept (encodeWord i))

/-- An accepted word that is not legal, in each of the three ways, completes in error ILLEGAL_COMMAND with ERR_INFO = the
word, and nothing else of the block changes (30_encoding.md R144), whether nothing else is on the agenda or the ENGINE's
turn is at its head (log 4). -/
def Obligations.IllegalWordChangesNothingElse : Prop :=
  ∀ (s : State) (rest : List Event), s.status.busy = true →
    s.agenda = [] ∧ rest = [] ∨ s.agenda = .engine :: rest →
    s.lastCmd.toNat % 256 ∉ [0x00, 0x01, 0x02, 0x10, 0x11, 0x12, 0x13, 0x14, 0x15, 0x20] ∨
      s.lastCmd.toNat / 65536 ≠ 0 ∨ (s.lastCmd.toNat % 256 ≠ 0x20 ∧ s.lastCmd.toNat / 256 % 256 ≠ 0) →
    step s = .next { s with
      errs := ⟨7, s.lastCmd⟩
      status := { s.status with err := true, busy := false }
      agenda := rest
      draws := s.draws + 1 }

/-- What the other events of the agenda do (20_memory.md R101, R109; 30_encoding.md R158; 60_exceptions.md R436): a HOST
access is performed, WAIT reads STATUS and, while BUSY, lets the ENGINE run and reads again, and with no event and no
pending command nothing changes. The agenda is the model's choice (log 4). -/
def Obligations.StepPerformsTheNextEvent : Prop :=
  ∀ (s : State) (rest : List Event),
    (∀ a, s.agenda = .access a :: rest → step s = hostAccess a { s with agenda := rest }) ∧
    (s.agenda = .wait :: rest → step s = .next { s with
      agenda := if s.status.busy then .engine :: .wait :: rest else rest
      reads := s.status.toWord :: s.reads
      draws := s.draws + 1 }) ∧
    (s.status.busy = false → s.agenda = .engine :: rest → step s = .next { s with agenda := rest }) ∧
    (s.status.busy = false → s.agenda = [] → step s = .next s)

/-- From every state of the invariant, when unwritten bytes are drawn, a pending command completes in the ENGINE's
next step and is no longer pending: no legal or illegal word hangs, faults or is refused (00_scope.md R13, R14),
whether nothing else is on the agenda or the ENGINE's turn is at its head (log 4). -/
def Obligations.PendingCommandCompletes : Prop :=
  ∀ s : State, Inv s → s.params.unwrittenRead = .draw → s.status.busy = true →
    s.agenda = [] ∨ (∃ rest, s.agenda = .engine :: rest) →
    ∃ t, step s = .next t ∧ t.status.busy = false

/-! ### The commands complete -/

/-- NOP completes in every state and changes only the completion registers (45_pipeline_commands.md R371). -/
def Obligations.NopOnlyCompletes : Prop :=
  ∀ s : State, exec .nop s = .next { s with
    errs := ⟨0, 0⟩
    status := { s.status with done := true, busy := false }
    draws := s.draws + 1 }

/-- QUERY completes in every state and writes only the Q registers, as 42_code_assigner.md R256 gives them. -/
def Obligations.QueryReadsTheTables : Prop :=
  ∀ (s : State) (sym : Byte) (present : Bool) (c : List Bool),
    present = (s.status.ftValid && decide (FreqTable.cnt s.ft sym ≠ 0)) →
    c = (if present && s.status.ctValid then CodeTable.bits s.ct sym else []) →
    ∃ q : QueryRegs,
      exec (.query sym) s = .next { s with
        query := q
        errs := ⟨0, 0⟩
        status := { s.status with done := true, busy := false }
        draws := s.draws + 1 } ∧
      q.freq = (if present then FreqTable.cnt s.ft sym else 0) ∧
      q.info.getLsbD 0 = present ∧ q.info.extractLsb' 1 7 = 0 ∧
      q.info.extractLsb' 8 8 = (if present then FreqTable.rank s.ft sym else 0) ∧
      q.info.extractLsb' 16 8 = BitVec.ofNat 8 c.length ∧
      ∀ (j : Fin 8) (i : Nat), i < 32 → (q.code[j]).getLsbD i = c.getD (32 * j.val + i) false

/-- SCAN of a non-empty range of IBUF completes with the table of its bytes: each count is the number of
occurrences, the symbols stand in the order of first occurrence (40_frequency_scanner.md R200, R201). -/
def Obligations.ScanCountsInFirstOccurrenceOrder : Prop :=
  ∀ (s : State) (bs : List Byte), InputHolds s bs → bs ≠ [] →
    exec .scan s = .next { s with
      ft := scanBytes bs
      errs := ⟨0, 0⟩
      status := { s.status with
        done := true, busy := false, ftValid := true, treeValid := false, ctValid := false, hdrValid := false }
      result :=
        { outLen := 0, symCount := BitVec.ofNat 9 (scanBytes bs).length, totalSymbols := s.range.inLen,
          validBits := 0, maxLen := 0, payOff := 0 }
      draws := s.draws + 1 } ∧
    (∀ b, (FreqTable.cnt (scanBytes bs) b).toNat = bs.count b) ∧
    (∀ b, b ∈ (scanBytes bs).map (fun e => e.sym) ↔ b ∈ bs) ∧
    ((scanBytes bs).map (fun e => e.sym)).Pairwise (fun x y => bs.idxOf x < bs.idxOf y)

/-- BUILD with a valid FT completes with the tree of FT (41_tree_builder.md R226). -/
def Obligations.BuildMakesTheTree : Prop :=
  ∀ s : State, s.status.ftValid = true →
    exec .build s = .next { s with
      tree := buildTree s.ft s.tree
      errs := ⟨0, 0⟩
      status := { s.status with done := true, busy := false, treeValid := true, ctValid := false }
      result := { s.result with maxLen := 0, outLen := 0 }
      draws := s.draws + 1 }

/-- ASSIGN with a valid tree completes with the codes of the tree; MAX_LEN is the greatest code length
(42_code_assigner.md R254, R255). -/
def Obligations.AssignMakesTheCodes : Prop :=
  ∀ (s : State) (m : Nat), s.status.ftValid = true → s.status.treeValid = true →
    (∀ sym, CodeTable.len (assignCodes s.tree) sym ≤ m) → (∃ sym, CodeTable.len (assignCodes s.tree) sym = m) →
    exec .assign s = .next { s with
      ct := assignCodes s.tree
      errs := ⟨0, 0⟩
      status := { s.status with done := true, busy := false, ctValid := true }
      result := { s.result with maxLen := BitVec.ofNat 8 m, outLen := 0 }
      draws := s.draws + 1 }

/-- ENCODE with valid tables, ranges inside the buffers, a code for every input byte and room for the output
completes: OBUF holds the codes in input order, first bit in bit 7, padded with 0, and VALID_BITS counts the bits
(43_encoder_bit_packer.md R280, R281, R284; unwritten bytes: log 17). -/
def Obligations.EncodePacksTheStream : Prop :=
  ∀ (s : State) (bs : List Byte) (bits : List Bool),
    s.status.ftValid = true → s.status.treeValid = true → s.status.ctValid = true →
    InputHolds s bs → bs ≠ [] → OutputFits s → (∀ b ∈ bs, CodeTable.bits s.ct b ≠ []) →
    bits = bs.flatMap (CodeTable.bits s.ct) → bits.length ≤ 0xFFFFFFFF →
    (bits.length + 7) / 8 ≤ s.range.outCap.toNat →
    ∃ out : List Byte,
      exec .encode s = .next { s with
        mem := s.mem.store (obufBase + s.range.outOff.toNat) out
        errs := ⟨0, 0⟩
        status := { s.status with done := true, busy := false }
        result := { s.result with
          validBits := BitVec.ofNat 32 bits.length
          totalSymbols := s.range.inLen
          outLen := BitVec.ofNat 32 out.length }
        draws := s.draws + 1 } ∧
      out.length = (bits.length + 7) / 8 ∧
      ∀ p, p < 8 * out.length → (out.getD (p / 8) 0).getLsbD (7 - p % 8) = bits.getD p false

/-- PARSE of an artifact whose header lists a well-formed table and a positive symbol count, with payload bytes for
every valid bit, completes with that table and the header latched (44_decoder_bit_reader.md R321, R325;
30_encoding.md R150). -/
def Obligations.ParseLatchesTheHeader : Prop :=
  ∀ (s : State) (ft : FreqTable) (n vbc : Word), FreqTableOk ft → n ≠ 0 →
    s.range.inOff.toNat + s.range.inLen.toNat ≤ s.params.ibufSize.toNat →
    BytesAt s s.range.inOff.toNat (headerBytes ft n.toNat vbc.toNat) →
    12 + 5 * ft.length + (vbc.toNat + 7) / 8 ≤ s.range.inLen.toNat →
    exec .parse s = .next { s with
      ft := ft
      hdr := ⟨n, vbc, BitVec.ofNat 32 (s.range.inOff.toNat + 12 + 5 * ft.length)⟩
      errs := ⟨0, 0⟩
      status := { s.status with
        done := true, busy := false, ftValid := true, treeValid := false, ctValid := false, hdrValid := true }
      result :=
        { outLen := 0, symCount := BitVec.ofNat 9 ft.length, totalSymbols := n, validBits := vbc, maxLen := 0,
          payOff := BitVec.ofNat 32 (s.range.inOff.toNat + 12 + 5 * ft.length) }
      draws := s.draws + 1 }

/-- DECODE completes when the payload starts with the codes of HDR.n symbols within its valid bits and the output
fits: OBUF holds those symbols, in order, and any further valid bits are ignored (44_decoder_bit_reader.md R322–R324,
R326; unwritten bytes: log 17). -/
def Obligations.DecodeWritesTheCodedSymbols : Prop :=
  ∀ (s : State) (cs : List (Byte × List Bool)),
    s.status.ftValid = true → s.status.treeValid = true → s.status.hdrValid = true → OutputFits s →
    s.hdr.n.toNat ≤ s.range.outCap.toNat → cs.length = s.hdr.n.toNat →
    (∀ p ∈ cs, IsCode s.tree p.1 p.2) → (cs.flatMap Prod.snd).length ≤ s.hdr.vbc.toNat →
    BitsAt s s.hdr.pay.toNat (cs.flatMap Prod.snd) →
    exec .decode s = .next { s with
      mem := s.mem.store (obufBase + s.range.outOff.toNat) (cs.map Prod.fst)
      errs := ⟨0, 0⟩
      status := { s.status with done := true, busy := false }
      result := { s.result with outLen := s.hdr.n }
      draws := s.draws + 1 }

/-- COMPRESS of a non-empty range, whose artifact fits the window and whose bit count fits its field, completes: OBUF
holds the header of the scanned table and the packed stream, VALID_BITS is the length of the stream
(45_pipeline_commands.md R372, 42_code_assigner.md R253; PAY_OFF: log 21; unwritten bytes: log 17). -/
def Obligations.CompressWritesTheArtifact : Prop :=
  ∀ (s : State) (bs : List Byte) (ft : FreqTable) (tree : Tree) (ct : CodeTable) (v : Nat),
    InputHolds s bs → bs ≠ [] → OutputFits s →
    ft = scanBytes bs → tree = buildTree ft s.tree → ct = assignCodes tree →
    v = (ft.map (fun e => e.cnt.toNat * CodeTable.len ct e.sym)).sum → v ≤ 0xFFFFFFFF →
    12 + 5 * ft.length + (v + 7) / 8 ≤ s.range.outCap.toNat →
    (bs.flatMap (CodeTable.bits ct)).length = v ∧
    exec .compress s = .next { s with
      ft := ft
      tree := tree
      ct := ct
      mem := s.mem.store (obufBase + s.range.outOff.toNat)
        (headerBytes ft bs.length v ++ pack (bs.flatMap (CodeTable.bits ct)))
      errs := ⟨0, 0⟩
      status := { s.status with
        done := true, busy := false, ftValid := true, treeValid := true, ctValid := true, hdrValid := false }
      result :=
        { outLen := BitVec.ofNat 32 (12 + 5 * ft.length + (v + 7) / 8), symCount := BitVec.ofNat 9 ft.length,
          totalSymbols := s.range.inLen, validBits := BitVec.ofNat 32 v,
          maxLen := BitVec.ofNat 8 (CodeTable.maxLen ct), payOff := 0 }
      draws := s.draws + 1 }

/-- DECOMPRESS of an artifact with a well-formed header, whose payload starts with the codes of its n symbols under
the tree of its table, completes with those symbols in OBUF (45_pipeline_commands.md R373; unwritten bytes: log 17). -/
def Obligations.DecompressRestoresTheSymbols : Prop :=
  ∀ (s : State) (ft : FreqTable) (n vbc : Word) (cs : List (Byte × List Bool)), FreqTableOk ft → n ≠ 0 →
    s.range.inOff.toNat + s.range.inLen.toNat ≤ s.params.ibufSize.toNat → OutputFits s →
    BytesAt s s.range.inOff.toNat (headerBytes ft n.toNat vbc.toNat) →
    12 + 5 * ft.length + (vbc.toNat + 7) / 8 ≤ s.range.inLen.toNat → n.toNat ≤ s.range.outCap.toNat →
    cs.length = n.toNat → (∀ p ∈ cs, IsCode (buildTree ft s.tree) p.1 p.2) →
    (cs.flatMap Prod.snd).length ≤ vbc.toNat →
    BitsAt s (s.range.inOff.toNat + 12 + 5 * ft.length) (cs.flatMap Prod.snd) →
    exec .decompress s = .next { s with
      ft := ft
      hdr := ⟨n, vbc, BitVec.ofNat 32 (s.range.inOff.toNat + 12 + 5 * ft.length)⟩
      tree := buildTree ft s.tree
      mem := s.mem.store (obufBase + s.range.outOff.toNat) (cs.map Prod.fst)
      errs := ⟨0, 0⟩
      status := { s.status with
        done := true, busy := false, ftValid := true, treeValid := true, ctValid := false, hdrValid := true }
      result :=
        { outLen := n, symCount := BitVec.ofNat 9 ft.length, totalSymbols := n, validBits := vbc, maxLen := 0,
          payOff := BitVec.ofNat 32 (s.range.inOff.toNat + 12 + 5 * ft.length) }
      draws := s.draws + 1 }

/-! ### Trees and codes -/

/-- The shape of a built tree (41_tree_builder.md R223; 10_state.md R61, R62): the leaves stand in FT order, the
internal nodes after them with smaller children, ROOT is the last node, and every other node has exactly one
parent. -/
def Obligations.BuiltTreeHasItsShape : Prop :=
  ∀ (ft : FreqTable) (old : Tree), FreqTableOk ft →
    (buildTree ft old).root.val = 2 * ft.length - 2 ∧
    (buildTree ft old).count = BitVec.ofNat 10 (2 * ft.length - 1) ∧
    (∀ (x : Fin 511) (h : x.val < ft.length),
      (buildTree ft old).node[x] = .leaf ft[x.val].sym (ft[x.val].cnt.setWidth 40)) ∧
    (∀ x : Fin 511, ft.length ≤ x.val → x.val < 2 * ft.length - 1 →
      ∃ l r w, (buildTree ft old).node[x] = .internal l r w ∧ l.val < x.val ∧ r.val < x.val ∧ l ≠ r) ∧
    ∀ x : Fin 511, x.val < 2 * ft.length - 2 →
      ∃! y : Fin 511, y.val < 2 * ft.length - 1 ∧
        ∃ l r w, (buildTree ft old).node[y] = .internal l r w ∧ (l = x ∨ r = x)

/-- Each merge takes the two least nodes still in the queue, by weight and then by insertion; the least becomes the
left child (41_tree_builder.md R220–R222). -/
def Obligations.BuildMergesTheTwoLeast : Prop :=
  ∀ (ft : FreqTable) (old : Tree) (node : Vector Node 511), FreqTableOk ft → node = (buildTree ft old).node →
    ∀ x : Fin 511, ft.length ≤ x.val → x.val < 2 * ft.length - 1 →
      ∃ l r, node[x] = .internal l r (nodeWeight node[l] + nodeWeight node[r]) ∧
        InQueue node x.val l ∧ InQueue node x.val r ∧ NodeLess node l r ∧
        ∀ y, InQueue node x.val y → y ≠ l → y ≠ r → NodeLess node r y

/-- The 40-bit weights are exact: each internal weight is the sum of its children's, and the root's is the sum of
the counts (41_tree_builder.md R224). -/
def Obligations.BuiltWeightsAreExact : Prop :=
  ∀ (ft : FreqTable) (old : Tree) (node : Vector Node 511), FreqTableOk ft → node = (buildTree ft old).node →
    (nodeWeight node[(buildTree ft old).root]).toNat = (ft.map (fun e => e.cnt.toNat)).sum ∧
    ∀ (x l r : Fin 511) (w : BitVec 40), x.val < 2 * ft.length - 1 → node[x] = .internal l r w →
      w.toNat = (nodeWeight node[l]).toNat + (nodeWeight node[r]).toNat

/-- The code of a symbol of the table is its path in the tree, the one bit 0 for a single symbol; a symbol that is
absent has none (42_code_assigner.md R250–R252). -/
def Obligations.CodesAreThePathsToTheLeaves : Prop :=
  ∀ (ft : FreqTable) (old : Tree), FreqTableOk ft →
    (∀ e ∈ ft, IsCode (buildTree ft old) e.sym (CodeTable.bits (assignCodes (buildTree ft old)) e.sym)) ∧
    ∀ sym, sym ∉ ft.map (fun e => e.sym) → CodeTable.bits (assignCodes (buildTree ft old)) sym = []

/-- No code is a prefix of another (42_code_assigner.md R252). -/
def Obligations.CodesArePrefixFree : Prop :=
  ∀ (ft : FreqTable) (old : Tree), FreqTableOk ft →
    ∀ a ∈ ft.map (fun e => e.sym), ∀ b ∈ ft.map (fun e => e.sym), a ≠ b →
      ¬ CodeTable.bits (assignCodes (buildTree ft old)) a <+: CodeTable.bits (assignCodes (buildTree ft old)) b

/-- The lengths of the codes (42_code_assigner.md R252, 41_tree_builder.md R225): the code of a single symbol has one
bit; the codes of k ≥ 2 symbols have 1 to k − 1 bits, at most 255, and their Kraft sum is 1, here multiplied by
2^255. -/
def Obligations.CodeLengthsAreBoundedAndFull : Prop :=
  ∀ (ft : FreqTable) (old : Tree) (ct : CodeTable), FreqTableOk ft → ct = assignCodes (buildTree ft old) →
    (∀ e ∈ ft,
      (ft.length = 1 → CodeTable.len ct e.sym = 1) ∧
      (2 ≤ ft.length → 1 ≤ CodeTable.len ct e.sym ∧ CodeTable.len ct e.sym ≤ ft.length - 1) ∧
      CodeTable.len ct e.sym ≤ 255) ∧
    (2 ≤ ft.length → (ft.map (fun e => 2 ^ (255 - CodeTable.len ct e.sym))).sum = 2 ^ 255)

/-! ### Packed bits and headers -/

/-- `Pack(o, b)` (43_encoder_bit_packer.md R280): bit b_p stands in bit 7 − (p mod 8) of the byte at o + p div 8,
padding bits are 0, and no other byte changes. -/
def Obligations.PackedBitsStandMsbFirst : Prop :=
  ∀ (m : Memory) (o : Nat) (bits : List Bool),
    (pack bits).length = (bits.length + 7) / 8 ∧
    (∀ p, p < 8 * ((bits.length + 7) / 8) →
      ∃ b, (m.store o (pack bits)).read (o + p / 8) = some b ∧ b.getLsbD (7 - p % 8) = bits.getD p false) ∧
    ∀ a, a < o ∨ o + (bits.length + 7) / 8 ≤ a → (m.store o (pack bits)).read a = m.read a

/-- The header bytes stand where the artifact layout puts them (30_encoding.md R150, R151; 43_encoder_bit_packer.md
R283). -/
def Obligations.HeaderBytesFollowTheLayout : Prop :=
  ∀ (ft : FreqTable) (n vbc : Word) (hd : List Byte), ft.length ≤ 256 → hd = headerBytes ft n.toNat vbc.toNat →
    hd.length = 12 + 5 * ft.length ∧
    hd.take 4 = leBytes (BitVec.ofNat 32 ft.length) ∧
    (∀ (i : Nat) (h : i < ft.length),
      hd[4 + 5 * i]? = some ft[i].sym ∧ (hd.drop (5 + 5 * i)).take 4 = leBytes ft[i].cnt) ∧
    (hd.drop (4 + 5 * ft.length)).take 4 = leBytes n ∧ (hd.drop (8 + 5 * ft.length)).take 4 = leBytes vbc

/-! ### Errors -/

/-- The two kinds of error completion (60_exceptions.md R420, R421). A pre-check error changes only ERR_CODE, ERR_INFO,
STATUS.ERR and BUSY. An execution error also clears the VALID bits and the result registers; for a command that writes
OBUF, whose window the pre-checks have found inside OBUF, each byte of the output window becomes a free value, and no
other byte changes. The contents of the tables, which R420 leaves unspecified, are kept: the model's choice (log 8). -/
def Obligations.ErrorCompletionsHaveTheirEffects : Prop :=
  ∀ (s : State) (window : Bool) (e : ErrorCode) (info : Word),
    (e ∈ [.illegalCommand, .sequenceError, .rangeError] →
      s.raiseError window e info = { s with
        errs := ⟨e.code, info⟩
        status := { s.status with err := true, busy := false }
        draws := s.draws + 1 }) ∧
    (e ∉ [.illegalCommand, .sequenceError, .rangeError] → (window = true → OutputFits s) →
      ∃ mem : Memory,
        s.raiseError window e info = { s with
          errs := ⟨e.code, info⟩
          status := { s.status with
            err := true, busy := false, ftValid := false, treeValid := false, ctValid := false, hdrValid := false }
          result := ⟨0, 0, 0, 0, 0, 0⟩
          mem := mem
          draws := s.draws + 1 } ∧
        (window = false → mem = s.mem) ∧
        (window = true →
          (∀ i, i < s.range.outCap.toNat →
            mem.read (obufBase + s.range.outOff.toNat + i) =
              some (Config.drawByte s.draws (obufBase + s.range.outOff.toNat + i))) ∧
          ∀ a, a < obufBase + s.range.outOff.toNat ∨
              obufBase + s.range.outOff.toNat + s.range.outCap.toNat ≤ a → mem.read a = s.mem.read a))

/-- SEQUENCE_ERROR (60_exceptions.md R409): a command whose tables are not valid reports the missing VALID bits and
changes nothing else; no other command reports it. -/
def Obligations.MissingTablesAreReported : Prop :=
  (∀ (s : State) (i : Instr) (mask missing : Word),
    (i, mask) ∈ [(Instr.build, 0x10), (Instr.assign, 0x30), (Instr.encode, 0x70), (Instr.decode, 0xB0)] →
    missing = mask &&& ~~~(s.status.toWord &&& 0xF0) → missing ≠ 0 →
    exec i s = .next { s with
      errs := ⟨8, missing⟩
      status := { s.status with err := true, busy := false }
      draws := s.draws + 1 }) ∧
  ∀ (s t : State) (i : Instr), i ∉ [Instr.build, Instr.assign, Instr.encode, Instr.decode] →
    exec i s = .next t → t.errs.code ≠ 8

/-- RANGE_ERROR (60_exceptions.md R410): 1 when the input range leaves IBUF, 2 when the output window leaves OBUF;
the input is checked first, and both after SEQUENCE_ERROR. -/
def Obligations.RangesOutsideTheBuffersAreReported : Prop :=
  (∀ (s : State) (i : Instr), i ∈ [Instr.scan, .encode, .parse, .compress, .decompress] →
    (i = .encode → s.status.missing 0x70 = 0) →
    s.params.ibufSize.toNat < s.range.inOff.toNat + s.range.inLen.toNat →
    exec i s = .next { s with
      errs := ⟨9, 1⟩
      status := { s.status with err := true, busy := false }
      draws := s.draws + 1 }) ∧
  ∀ (s : State) (i : Instr), i ∈ [Instr.encode, .decode, .compress, .decompress] →
    (i = .encode → s.status.missing 0x70 = 0) → (i = .decode → s.status.missing 0xB0 = 0) →
    (i ≠ .decode → s.range.inOff.toNat + s.range.inLen.toNat ≤ s.params.ibufSize.toNat) →
    s.params.obufSize.toNat < s.range.outOff.toNat + s.range.outCap.toNat →
    exec i s = .next { s with
      errs := ⟨9, 2⟩
      status := { s.status with err := true, busy := false }
      draws := s.draws + 1 }

/-- EMPTY_INPUT (60_exceptions.md R402): SCAN, ENCODE and COMPRESS with IN_LEN = 0, after the pre-checks. -/
def Obligations.EmptyInputIsReported : Prop :=
  ∀ (s : State) (i : Instr), i ∈ [Instr.scan, .encode, .compress] →
    (i = .encode → s.status.missing 0x70 = 0) → s.range.inOff.toNat ≤ s.params.ibufSize.toNat →
    (i ≠ .scan → OutputFits s) → s.range.inLen = 0 →
    exec i s = .next (s.raiseError (writesObuf i) .emptyInput 0)

/-- UNKNOWN_SYMBOL (43_encoder_bit_packer.md R282): ENCODE reports the offset of the first input byte without a
code, whatever follows it; COMPRESS never reports it. -/
def Obligations.FirstUnknownSymbolIsReported : Prop :=
  (∀ (s : State) (bs : List Byte) (b : Byte), s.status.missing 0x70 = 0 →
    s.range.inOff.toNat + s.range.inLen.toNat ≤ s.params.ibufSize.toNat → OutputFits s →
    bs.length < s.range.inLen.toNat → BytesAt s s.range.inOff.toNat (bs ++ [b]) →
    (∀ x ∈ bs, CodeTable.bits s.ct x ≠ []) → CodeTable.bits s.ct b = [] →
    exec .encode s = .next (s.raiseError true .unknownSymbol (BitVec.ofNat 32 bs.length))) ∧
  ∀ s t : State, exec .compress s = .next t → t.errs.code ≠ 2

/-- OUTPUT_OVERFLOW (60_exceptions.md R411): COMPRESS and ENCODE when their bytes exceed the window or their bits the
32-bit field, DECODE and DECOMPRESS when HDR.n exceeds the window; ERR_INFO is the bytes required, saturated. -/
def Obligations.OutputOverflowIsReported : Prop :=
  (∀ (s : State) (bs : List Byte) (ft : FreqTable) (v l : Nat),
    InputHolds s bs → bs ≠ [] → OutputFits s → ft = scanBytes bs →
    v = (ft.map (fun e => e.cnt.toNat * CodeTable.len (assignCodes (buildTree ft s.tree)) e.sym)).sum →
    l = 12 + 5 * ft.length + (v + 7) / 8 → 0xFFFFFFFF < v ∨ s.range.outCap.toNat < l →
    exec .compress s = .next (s.raiseError true .outputOverflow (BitVec.ofNat 32 (min l 0xFFFFFFFF)))) ∧
  (∀ (s : State) (bs : List Byte) (bits : Nat), s.status.missing 0x70 = 0 →
    InputHolds s bs → bs ≠ [] → OutputFits s → (∀ b ∈ bs, CodeTable.bits s.ct b ≠ []) →
    bits = (bs.flatMap (CodeTable.bits s.ct)).length → 0xFFFFFFFF < bits ∨ s.range.outCap.toNat < (bits + 7) / 8 →
    exec .encode s =
      .next (s.raiseError true .outputOverflow (BitVec.ofNat 32 (min ((bits + 7) / 8) 0xFFFFFFFF)))) ∧
  (∀ s : State, s.status.missing 0xB0 = 0 → OutputFits s → s.range.outCap.toNat < s.hdr.n.toNat →
    exec .decode s = .next (s.raiseError true .outputOverflow s.hdr.n)) ∧
  ∀ (s : State) (ft : FreqTable) (n vbc : Word), FreqTableOk ft → n ≠ 0 →
    s.range.inOff.toNat + s.range.inLen.toNat ≤ s.params.ibufSize.toNat → OutputFits s →
    BytesAt s s.range.inOff.toNat (headerBytes ft n.toNat vbc.toNat) →
    12 + 5 * ft.length + (vbc.toNat + 7) / 8 ≤ s.range.inLen.toNat → s.range.outCap.toNat < n.toNat →
    exec .decompress s = .next (s.raiseError true .outputOverflow n)

/-- MALFORMED_HEADER and TRUNCATED_STREAM(0) at the fixed fields of a header, in field order
(44_decoder_bit_reader.md R321; 60_exceptions.md R404, R405): PARSE and DECOMPRESS report the offset of the field
that is missing or bad, and a payload shorter than its valid bits. -/
def Obligations.BadHeaderFieldsAreReported : Prop :=
  ∀ (s : State) (i : Instr), i ∈ [Instr.parse, .decompress] →
    s.range.inOff.toNat + s.range.inLen.toNat ≤ s.params.ibufSize.toNat → (i = .decompress → OutputFits s) →
    (s.range.inLen.toNat < 4 → exec i s = .next (s.raiseError (writesObuf i) .malformedHeader 0)) ∧
    (∀ k : Word, 4 ≤ s.range.inLen.toNat → BytesAt s s.range.inOff.toNat (leBytes k) →
      k.toNat = 0 ∨ 256 < k.toNat → exec i s = .next (s.raiseError (writesObuf i) .malformedHeader 0)) ∧
    ∀ (ft : FreqTable) (o : Nat), FreqTableOk ft → o = 4 + 5 * ft.length → o ≤ s.range.inLen.toNat →
      BytesAt s s.range.inOff.toNat
        (leBytes (BitVec.ofNat 32 ft.length) ++ ft.flatMap (fun e => e.sym :: leBytes e.cnt)) →
      (s.range.inLen.toNat < o + 4 →
        exec i s = .next (s.raiseError (writesObuf i) .malformedHeader (BitVec.ofNat 32 o))) ∧
      ∀ n : Word, o + 4 ≤ s.range.inLen.toNat → BytesAt s (s.range.inOff.toNat + o) (leBytes n) →
        (n = 0 → exec i s = .next (s.raiseError (writesObuf i) .malformedHeader (BitVec.ofNat 32 o))) ∧
        (n ≠ 0 → s.range.inLen.toNat < o + 8 →
          exec i s = .next (s.raiseError (writesObuf i) .malformedHeader (BitVec.ofNat 32 (o + 4)))) ∧
        ∀ vbc : Word, n ≠ 0 → o + 8 ≤ s.range.inLen.toNat →
          BytesAt s (s.range.inOff.toNat + o + 4) (leBytes vbc) →
          s.range.inLen.toNat < o + 8 + (vbc.toNat + 7) / 8 →
          exec i s = .next (s.raiseError (writesObuf i) .truncatedStream 0)

/-- MALFORMED_HEADER at an entry of a header, after the entries before it read well (44_decoder_bit_reader.md R321):
the symbol is missing or repeats, or its frequency is missing or zero. -/
def Obligations.BadHeaderEntriesAreReported : Prop :=
  ∀ (s : State) (i : Instr) (es : FreqTable) (k : Word) (o : Nat), i ∈ [Instr.parse, .decompress] →
    s.range.inOff.toNat + s.range.inLen.toNat ≤ s.params.ibufSize.toNat → (i = .decompress → OutputFits s) →
    es.length < k.toNat → k.toNat ≤ 256 → (es.map (fun e => e.sym)).Nodup → (∀ e ∈ es, e.cnt ≠ 0) →
    o = 4 + 5 * es.length → o ≤ s.range.inLen.toNat →
    BytesAt s s.range.inOff.toNat (leBytes k ++ es.flatMap (fun e => e.sym :: leBytes e.cnt)) →
    (s.range.inLen.toNat < o + 1 →
      exec i s = .next (s.raiseError (writesObuf i) .malformedHeader (BitVec.ofNat 32 o))) ∧
    ∀ sym : Byte, o + 1 ≤ s.range.inLen.toNat → s.ib (s.range.inOff.toNat + o) = .ok sym →
      (sym ∈ es.map (fun e => e.sym) →
        exec i s = .next (s.raiseError (writesObuf i) .malformedHeader (BitVec.ofNat 32 o))) ∧
      (sym ∉ es.map (fun e => e.sym) → s.range.inLen.toNat < o + 5 →
        exec i s = .next (s.raiseError (writesObuf i) .malformedHeader (BitVec.ofNat 32 (o + 1)))) ∧
      (sym ∉ es.map (fun e => e.sym) → o + 5 ≤ s.range.inLen.toNat →
        BytesAt s (s.range.inOff.toNat + o + 1) [0, 0, 0, 0] →
        exec i s = .next (s.raiseError (writesObuf i) .malformedHeader (BitVec.ofNat 32 (o + 1))))

/-- TRUNCATED_STREAM during the walk (44_decoder_bit_reader.md R324; 45_pipeline_commands.md R373; 60_exceptions.md
R405): the valid bits end after the codes of fewer than HDR.n symbols, between codes or in the middle of one; ERR_INFO
counts the symbols before. DECODE walks the tree it finds, DECOMPRESS the tree of the table it parsed; a payload byte
nobody has written gives the same bits throughout the command (log 17). -/
def Obligations.TruncatedPayloadIsReported : Prop :=
  (∀ (s : State) (cs : List (Byte × List Bool)) (q : List Bool), s.status.missing 0xB0 = 0 → OutputFits s →
    s.hdr.n.toNat ≤ s.range.outCap.toNat → cs.length < s.hdr.n.toNat → (∀ p ∈ cs, IsCode s.tree p.1 p.2) →
    NoLeafOn s.tree q → (cs.flatMap Prod.snd ++ q).length = s.hdr.vbc.toNat →
    BitsAt s s.hdr.pay.toNat (cs.flatMap Prod.snd ++ q) →
    exec .decode s = .next (s.raiseError true .truncatedStream (BitVec.ofNat 32 cs.length))) ∧
  ∀ (s : State) (ft : FreqTable) (n vbc : Word) (cs : List (Byte × List Bool)) (q : List Bool),
    ArtifactAt s ft n vbc → OutputFits s → n.toNat ≤ s.range.outCap.toNat → cs.length < n.toNat →
    (∀ p ∈ cs, IsCode (buildTree ft s.tree) p.1 p.2) → NoLeafOn (buildTree ft s.tree) q →
    (cs.flatMap Prod.snd ++ q).length = vbc.toNat →
    BitsAt s (s.range.inOff.toNat + 12 + 5 * ft.length) (cs.flatMap Prod.snd ++ q) →
    exec .decompress s = .next (s.raiseError true .truncatedStream (BitVec.ofNat 32 cs.length))

/-- INVALID_CODE (44_decoder_bit_reader.md R323; 60_exceptions.md R407): with a single-leaf tree, a 1 bit after m
symbols. DECODE finds the tree; DECOMPRESS builds it of a table of one symbol (45_pipeline_commands.md R373). A payload
byte nobody has written gives the same bits throughout the command (log 17). -/
def Obligations.OneBitUnderASingleLeafIsReported : Prop :=
  (∀ (s : State) (m : Nat) (sym : Byte) (w : BitVec 40), s.status.missing 0xB0 = 0 → OutputFits s →
    s.hdr.n.toNat ≤ s.range.outCap.toNat → s.tree.node[s.tree.root] = .leaf sym w → m < s.hdr.n.toNat →
    m < s.hdr.vbc.toNat → BitsAt s s.hdr.pay.toNat (List.replicate m false ++ [true]) →
    exec .decode s = .next (s.raiseError true .invalidCode (BitVec.ofNat 32 m))) ∧
  ∀ (s : State) (ft : FreqTable) (n vbc : Word) (m : Nat), ArtifactAt s ft n vbc → ft.length = 1 →
    OutputFits s → n.toNat ≤ s.range.outCap.toNat → m < n.toNat → m < vbc.toNat →
    BitsAt s (s.range.inOff.toNat + 12 + 5 * ft.length) (List.replicate m false ++ [true]) →
    exec .decompress s = .next (s.raiseError true .invalidCode (BitVec.ofNat 32 m))

/-- A command that completes does so in exactly one of two ways, success or one error, never MALFORMED_TREE; no command
is refused; and it faults only on an IBUF byte nobody has written, when UNWRITTEN_READ is `fault`, or, DECODE alone, on
a byte beyond IBUF (00_scope.md R14; 10_state.md R67; 20_memory.md R110; 60_exceptions.md R400, R406, R424; log 15). -/
def Obligations.CommandsSucceedOrReportOneError : Prop :=
  ∀ (i : Instr) (s : State),
    (∀ f, exec i s ≠ .refused f) ∧
    (∀ t, exec i s = .next t → t.status.busy = false ∧
      ((t.status.done = true ∧ t.errs = ⟨0, 0⟩ ∧ t.status.err = s.status.err) ∨
        (t.status.err = true ∧ t.status.done = s.status.done ∧
          ∃ e : ErrorCode, e ≠ .malformedTree ∧ t.errs.code = e.code))) ∧
    ∀ f, exec i s = .fault f →
      (∃ a, f = .unwrittenRead a ∧ s.params.unwrittenRead = .fault ∧ s.mem.read a = none ∧
        ibufBase ≤ a ∧ a < ibufBase + s.params.ibufSize.toNat) ∨
      (∃ o, f = .outsideIbuf o ∧ i = .decode ∧ s.params.ibufSize.toNat ≤ o)

/-! ### What every command leaves alone -/

/-- The frame of every command: it leaves the command word, the range registers, IRQ_EN and BUSY_WR, the Q registers
but for QUERY, and each table but for the commands that write it (10_state.md R52, R60–R64; 20_memory.md R110;
60_exceptions.md R420, R424). That the tables keep their contents after an execution error is the model's choice (log
8). -/
def Obligations.CommandsLeaveTheRestAlone : Prop :=
  ∀ (i : Instr) (s t : State), exec i s = .next t →
    t.params = s.params ∧ t.lastCmd = s.lastCmd ∧ t.irqEn = s.irqEn ∧ t.range = s.range ∧
    t.status.busyWr = s.status.busyWr ∧ t.agenda = s.agenda ∧ t.reads = s.reads ∧ t.draws = s.draws + 1 ∧
    ((∀ sym, i ≠ .query sym) → t.query = s.query) ∧
    (i ∉ [Instr.scan, .parse, .compress, .decompress] → t.ft = s.ft) ∧
    (i ∉ [Instr.build, .compress, .decompress] → t.tree = s.tree) ∧
    (i ∉ [Instr.assign, .compress] → t.ct = s.ct) ∧
    (i ∉ [Instr.parse, .decompress] → t.hdr = s.hdr)

/-- The memory footprint of every command (20_memory.md R110): only ENCODE, DECODE, COMPRESS and DECOMPRESS write
memory, and only inside the output window, after a success only in its first OUT_LEN bytes (43_encoder_bit_packer.md
R284, 45_pipeline_commands.md R372, R373); IBUF never changes. -/
def Obligations.CommandsWriteOnlyTheOutputWindow : Prop :=
  ∀ (i : Instr) (s t : State), exec i s = .next t →
    (i ∉ [Instr.encode, .decode, .compress, .decompress] → t.mem = s.mem) ∧
    (t.errs.code = 0 → i ∈ [Instr.encode, .decode, .compress, .decompress] →
      ∀ a, a < obufBase + s.range.outOff.toNat ∨ obufBase + s.range.outOff.toNat + t.result.outLen.toNat ≤ a →
        t.mem.read a = s.mem.read a) ∧
    ∀ a, a < obufBase + s.range.outOff.toNat ∨ obufBase + s.range.outOff.toNat + s.range.outCap.toNat ≤ a →
      t.mem.read a = s.mem.read a

/-- The VALID bits after each command (10_state.md R65): as its table says after a success, unchanged after a
pre-check error, all clear after an execution error. -/
def Obligations.ValidBitsFollowTheTable : Prop :=
  ∀ (i : Instr) (s t : State), exec i s = .next t →
    (t.errs.code = 0 →
      (t.status.ftValid, t.status.treeValid, t.status.ctValid, t.status.hdrValid) =
        match i with
        | .scan => (true, false, false, false)
        | .build => (s.status.ftValid, true, false, s.status.hdrValid)
        | .assign => (s.status.ftValid, s.status.treeValid, true, s.status.hdrValid)
        | .parse => (true, false, false, true)
        | .compress => (true, true, true, false)
        | .decompress => (true, true, false, true)
        | _ => (s.status.ftValid, s.status.treeValid, s.status.ctValid, s.status.hdrValid)) ∧
    (t.errs.code ∈ [7, 8, 9] →
      (t.status.ftValid, t.status.treeValid, t.status.ctValid, t.status.hdrValid) =
        (s.status.ftValid, s.status.treeValid, s.status.ctValid, s.status.hdrValid)) ∧
    (t.errs.code ≠ 0 → t.errs.code ∉ [7, 8, 9] →
      (t.status.ftValid, t.status.treeValid, t.status.ctValid, t.status.hdrValid) = (false, false, false, false))

/-! ### The HOST's accesses -/

/-- A HOST write to CMD (45_pipeline_commands.md R370): dropped while BUSY, else accepted. -/
def Obligations.CmdWriteAcceptsWhenIdle : Prop :=
  ∀ (s : State) (w : Word),
    hostAccess (.write .four 0x008 0xF w) s = .next (
      if s.status.busy then
        { s with status := { s.status with busyWr := true }, draws := s.draws + 1 }
      else
        { s with
          lastCmd := w
          errs := ⟨0, 0⟩
          status := { s.status with busy := true, done := false, err := false }
          draws := s.draws + 1 })

/-- While BUSY, a write to CMD or a range register, and any write that starts in a buffer window, only sets BUSY_WR
(20_memory.md R113, 10_state.md R33), whatever its alignment and end (log 9) and the lanes it enables (log 10). -/
def Obligations.WritesWhileBusyAreDropped : Prop :=
  ∀ (s : State) (v : Word), s.status.busy = true →
    (∀ a : Word, a ∈ [0x008#32, 0x01C#32, 0x020#32, 0x024#32, 0x028#32] →
      s.hostWriteEffect .four a 0xF v = { s with status := { s.status with busyWr := true } }) ∧
    ∀ (size : AccessSize) (a : Word) (lanes : BitVec 4),
      (ibufBase ≤ a.toNat ∧ a.toNat < ibufBase + s.params.ibufSize.toNat) ∨
        (obufBase ≤ a.toNat ∧ a.toNat < obufBase + s.params.obufSize.toNat) →
      s.hostWriteEffect size a lanes v = { s with status := { s.status with busyWr := true } }

/-- What a word written to a register does (10_state.md R33, R34, R37, R40–R44; 60_exceptions.md R428): the range
registers hold what is written while idle; STATUS clears DONE, ERR and BUSY_WR where the written bit is 1, and IRQ_EN
takes bits 1:0, busy or idle; every other register but CTRL and CMD is read-only. -/
def Obligations.RegisterWritesFollowTheAccessCodes : Prop :=
  ∀ (s : State) (v : Word),
    (s.status.busy = false →
      s.hostWriteEffect .four 0x01C 0xF v = { s with range := { s.range with inOff := v } } ∧
      s.hostWriteEffect .four 0x020 0xF v = { s with range := { s.range with inLen := v } } ∧
      s.hostWriteEffect .four 0x024 0xF v = { s with range := { s.range with outOff := v } } ∧
      s.hostWriteEffect .four 0x028 0xF v = { s with range := { s.range with outCap := v } }) ∧
    s.hostWriteEffect .four 0x00C 0xF v = { s with
      status := { s.status with
        done := s.status.done && !v.getLsbD 1
        err := s.status.err && !v.getLsbD 2
        busyWr := s.status.busyWr && !v.getLsbD 3 } } ∧
    s.hostWriteEffect .four 0x018 0xF v = { s with irqEn := ⟨v.getLsbD 0, v.getLsbD 1⟩ } ∧
    ∀ a : Word, a.toNat < 0x074 → a.toNat % 4 = 0 →
      a.toNat ∉ [0x004, 0x008, 0x00C, 0x018, 0x01C, 0x020, 0x024, 0x028] → s.hostWriteEffect .four a 0xF v = s

/-- What a word read from a register returns, busy or idle (10_state.md R31–R54; 20_memory.md R112): the bits of the
narrow registers stand where the map puts them, every other bit reads 0, and no read changes the block. -/
def Obligations.RegistersReadAtTheirOffsets : Prop :=
  ∀ s : State, ∃ rd : Word → Word,
    (∀ a : Word, a.toNat < 0x1000 →
      hostAccess (.read .four a) s = .next { s with reads := rd a :: s.reads, draws := s.draws + 1 }) ∧
    rd 0x000 = 0x48554631 ∧ rd 0x004 = 0 ∧ rd 0x008 = s.lastCmd ∧
    (rd 0x00C).getLsbD 0 = s.status.busy ∧ (rd 0x00C).getLsbD 1 = s.status.done ∧
    (rd 0x00C).getLsbD 2 = s.status.err ∧ (rd 0x00C).getLsbD 3 = s.status.busyWr ∧
    (rd 0x00C).getLsbD 4 = s.status.ftValid ∧ (rd 0x00C).getLsbD 5 = s.status.treeValid ∧
    (rd 0x00C).getLsbD 6 = s.status.ctValid ∧ (rd 0x00C).getLsbD 7 = s.status.hdrValid ∧
    (rd 0x00C).toNat < 256 ∧ (rd 0x010).toNat = s.errs.code.toNat ∧ rd 0x014 = s.errs.info ∧
    (rd 0x018).getLsbD 0 = s.irqEn.doneEn ∧ (rd 0x018).getLsbD 1 = s.irqEn.errEn ∧ (rd 0x018).toNat < 4 ∧
    rd 0x01C = s.range.inOff ∧ rd 0x020 = s.range.inLen ∧ rd 0x024 = s.range.outOff ∧ rd 0x028 = s.range.outCap ∧
    rd 0x02C = s.result.outLen ∧ (rd 0x030).toNat = s.result.symCount.toNat ∧
    rd 0x034 = s.result.totalSymbols ∧ rd 0x038 = s.result.validBits ∧
    (rd 0x03C).toNat = s.result.maxLen.toNat ∧ rd 0x040 = s.result.payOff ∧
    rd 0x044 = s.query.freq ∧ (rd 0x048).toNat = s.query.info.toNat ∧
    (∀ j : Fin 8, rd (BitVec.ofNat 32 (0x04C + 4 * j.val)) = s.query.code[j]) ∧
    rd 0x06C = s.params.ibufSize ∧ rd 0x070 = s.params.obufSize

/-- CSR accesses that are not four aligned bytes with all lanes, reserved offsets and unmapped addresses read 0 and
ignore writes (20_memory.md R103, R106; 10_state.md R55): no register, flag or byte changes. -/
def Obligations.IgnoredAccessesReadZero : Prop :=
  ∀ (s : State) (size : AccessSize) (a : Word) (lanes : BitVec 4) (data : Word),
    (a.toNat < 0x1000 → size ≠ .four ∨ a.toNat % 4 ≠ 0 → ReadsZero s size a ∧ IgnoresWrite s size a lanes data) ∧
    (a.toNat < 0x1000 → lanes ≠ 0xF → IgnoresWrite s size a lanes data) ∧
    (0x074 ≤ a.toNat → a.toNat < 0x1000 → ReadsZero s size a ∧ IgnoresWrite s size a lanes data) ∧
    (0x1000 ≤ a.toNat → ¬(ibufBase ≤ a.toNat ∧ a.toNat < ibufBase + s.params.ibufSize.toNat) →
      ¬(obufBase ≤ a.toNat ∧ a.toNat < obufBase + s.params.obufSize.toNat) →
      ReadsZero s size a ∧ IgnoresWrite s size a lanes data)

/-- A buffer access that is misaligned or runs past the end of its window (20_memory.md R105) reads 0 and writes
nothing; while BUSY such a write, as any write to a buffer, sets BUSY_WR (R113; log 9). -/
def Obligations.MisalignedBufferAccessesAreIgnored : Prop :=
  ∀ (s : State) (size : AccessSize) (a : Word) (lanes : BitVec 4) (data : Word), ParamsOk s.params →
    (ibufBase ≤ a.toNat ∧ a.toNat < ibufBase + s.params.ibufSize.toNat ∧
        (a.toNat % accessBytes size ≠ 0 ∨ ibufBase + s.params.ibufSize.toNat < a.toNat + accessBytes size)) ∨
      (obufBase ≤ a.toNat ∧ a.toNat < obufBase + s.params.obufSize.toNat ∧
        (a.toNat % accessBytes size ≠ 0 ∨ obufBase + s.params.obufSize.toNat < a.toNat + accessBytes size)) →
    ReadsZero s size a ∧
    hostAccess (.write size a lanes data) s = .next { s with
      status := { s.status with busyWr := s.status.busyWr || s.status.busy }
      draws := s.draws + 1 }

/-- No HOST read has a side effect on the block (20_memory.md R109): only the record of what the HOST saw and the
draw counter, both the model's own, move. -/
def Obligations.HostReadsChangeNothing : Prop :=
  ∀ (s t : State) (size : AccessSize) (a : Word), hostAccess (.read size a) s = .next t →
    ∃ d, t = { s with reads := d :: s.reads, draws := s.draws + 1 }

/-- An idle, aligned HOST write inside a buffer window (20_memory.md R105, R107, R108): the byte of each enabled lane
takes its bits of the data, little-endian; every other byte and every register is unchanged; and when all lanes of the
access are enabled the same access reads the data back. That lane i stands for the byte at a + i and bits 8i+7:8i of the
data is the model's inference: the spec does not number the lanes (log 10). -/
def Obligations.BufferWritesReadBack : Prop :=
  ∀ (s : State) (size : AccessSize) (a data : Word) (lanes : BitVec 4), ParamsOk s.params → s.status.busy = false →
    a.toNat % accessBytes size = 0 →
    (ibufBase ≤ a.toNat ∧ a.toNat + accessBytes size ≤ ibufBase + s.params.ibufSize.toNat) ∨
      (obufBase ≤ a.toNat ∧ a.toNat + accessBytes size ≤ obufBase + s.params.obufSize.toNat) →
    ∃ mem : Memory,
      hostAccess (.write size a lanes data) s = .next { s with mem := mem, draws := s.draws + 1 } ∧
      (∀ i, i < accessBytes size → mem.read (a.toNat + i) =
        if lanes.getLsbD i then some (data.extractLsb' (8 * i) 8) else s.mem.read (a.toNat + i)) ∧
      (∀ x, x < a.toNat ∨ a.toNat + accessBytes size ≤ x → mem.read x = s.mem.read x) ∧
      ((∀ i, i < accessBytes size → lanes.getLsbD i = true) →
        ({ s with mem := mem } : State).hostReadData size a =
          .ok (BitVec.ofNat 32 (data.toNat % 2 ^ (8 * accessBytes size))))

/-- An aligned HOST read inside a buffer window (20_memory.md R105, R107, R114, R115): of IBUF, and of OBUF while idle,
it returns the bytes, the lowest address in bits 7:0; of OBUF while BUSY it returns free values, a byte for each
address, and never faults. -/
def Obligations.BufferReadsReturnTheBytes : Prop :=
  ∀ (s : State) (size : AccessSize) (a : Word), ParamsOk s.params → a.toNat % accessBytes size = 0 →
    (∀ bs : List Byte,
      (ibufBase ≤ a.toNat ∧ a.toNat + accessBytes size ≤ ibufBase + s.params.ibufSize.toNat) ∨
        (obufBase ≤ a.toNat ∧ a.toNat + accessBytes size ≤ obufBase + s.params.obufSize.toNat ∧
          s.status.busy = false) →
      bs.length = accessBytes size → (∀ i (h : i < bs.length), s.readByte (a.toNat + i) = .ok bs[i]) →
      ∃ d, s.hostReadData size a = .ok d ∧ d.toNat < 2 ^ (8 * accessBytes size) ∧
        ∀ i (h : i < bs.length), d.extractLsb' (8 * i) 8 = bs[i]) ∧
    (s.status.busy = true → obufBase ≤ a.toNat →
      a.toNat + accessBytes size ≤ obufBase + s.params.obufSize.toNat →
      ∃ d, s.hostReadData size a = .ok d ∧ d.toNat < 2 ^ (8 * accessBytes size) ∧
        ∀ i, i < accessBytes size → d.extractLsb' (8 * i) 8 = Config.drawByte s.draws (a.toNat + i))

/-- A read of a buffer byte nobody has written (10_state.md R67): a model fault, or a free value, as UNWRITTEN_READ
says. The HOST reads it from IBUF, or from OBUF while idle; the ENGINE reads it from IBUF, as SCAN does when every byte
of its input before it is written. -/
def Obligations.UnwrittenBytesFaultOrAreFree : Prop :=
  (∀ (s : State) (a : Word), ParamsOk s.params →
    (ibufBase ≤ a.toNat ∧ a.toNat < ibufBase + s.params.ibufSize.toNat) ∨
      (obufBase ≤ a.toNat ∧ a.toNat < obufBase + s.params.obufSize.toNat ∧ s.status.busy = false) →
    s.mem.read a.toNat = none →
    (s.params.unwrittenRead = .fault → hostAccess (.read .one a) s = .fault (.unwrittenRead a.toNat)) ∧
    (s.params.unwrittenRead = .draw →
      hostAccess (.read .one a) s = .next { s with
        reads := (Config.drawByte s.draws a.toNat).setWidth 32 :: s.reads
        draws := s.draws + 1 })) ∧
  ∀ (s : State) (o : Nat), o < s.params.ibufSize.toNat → s.mem.read (ibufBase + o) = none →
    (s.params.unwrittenRead = .draw → s.ib o = .ok (Config.drawByte s.draws (ibufBase + o))) ∧
    (s.params.unwrittenRead = .fault → s.range.inOff.toNat ≤ o →
      o < s.range.inOff.toNat + s.range.inLen.toNat →
      s.range.inOff.toNat + s.range.inLen.toNat ≤ s.params.ibufSize.toNat →
      (∀ x, s.range.inOff.toNat ≤ x → x < o → s.mem.read (ibufBase + x) ≠ none) →
      exec .scan s = .fault (.unwrittenRead (ibufBase + o)))

/-- The interrupt line (60_exceptions.md R425), which is never asserted while a command is pending. -/
def Obligations.IrqIsALevelOfDoneAndErr : Prop :=
  ∀ s : State,
    (s.irq = true ↔
      (s.status.done = true ∧ s.irqEn.doneEn = true) ∨ (s.status.err = true ∧ s.irqEn.errEn = true)) ∧
    (StatusOk s.status → s.irq = true → s.status.busy = false)

/-! ### Resets -/

/-- The registers after power-on reset (10_state.md R33; 70_reset_and_hazards.md R450): ID and the size registers
hold their constants, every other register reads 0, irq is 0 and no buffer byte is written. -/
def Obligations.ResetRegistersReadTheirValues : Prop :=
  (∀ r : Csr, State.reset.csrRead r =
    match r with
    | .id => 0x48554631
    | .ibufSize => Config.ibufSize
    | .obufSize => Config.obufSize
    | _ => 0) ∧
  State.reset.irq = false ∧ ∀ a, State.reset.mem.read a = none

/-- Power-on reset gives the state after reset with the parameters of the block (70_reset_and_hazards.md R450); the
tables, which the spec leaves unspecified, and the model's own fields are as log 7 and log 19 say. -/
def Obligations.PowerOnResetsTheBlock : Prop :=
  ∀ (s : State) (rest : List Event), s.agenda = .powerOn :: rest →
    step s = .next { State.reset with
      params := s.params
      agenda := rest
      reads := s.reads
      draws := s.draws + 1 }

/-- Soft reset while idle (70_reset_and_hazards.md R451, 10_state.md R35): every register and table as at reset, every
buffer byte unchanged; a write of CTRL with bit 0 clear does nothing, busy or idle. -/
def Obligations.SoftResetKeepsTheBuffers : Prop :=
  ∀ (s : State) (v : Word),
    (v.getLsbD 0 = false → s.hostWriteEffect .four 0x004 0xF v = s) ∧
    (v.getLsbD 0 = true → s.status.busy = false →
      s.hostWriteEffect .four 0x004 0xF v = { State.reset with
        params := s.params
        mem := s.mem
        agenda := s.agenda
        reads := s.reads
        draws := s.draws })

/-- Soft reset while busy (70_reset_and_hazards.md R452): the pending command gets no completion; if it writes OBUF its
window becomes free values (those of its bytes that exist, log 11); then every register is as at reset. The contents of
the tables, which R450 leaves unspecified, are the model's choice (log 7). -/
def Obligations.SoftResetAbortsTheCommand : Prop :=
  ∀ (s : State) (v : Word), v.getLsbD 0 = true → s.status.busy = true →
    ∃ mem : Memory,
      s.hostWriteEffect .four 0x004 0xF v = { State.reset with
        params := s.params
        mem := mem
        agenda := s.agenda
        reads := s.reads
        draws := s.draws } ∧
      (s.lastCmd ∉ [0x01, 0x02, 0x13, 0x15] → mem = s.mem) ∧
      (s.lastCmd ∈ [0x01, 0x02, 0x13, 0x15] →
        (∀ i, i < s.range.outCap.toNat → s.range.outOff.toNat + i < s.params.obufSize.toNat →
          mem.read (obufBase + s.range.outOff.toNat + i) =
            some (Config.drawByte s.draws (obufBase + s.range.outOff.toNat + i))) ∧
        ∀ a, a < obufBase + s.range.outOff.toNat ∨
            obufBase + s.range.outOff.toNat + s.range.outCap.toNat ≤ a → mem.read a = s.mem.read a)

/-! ### The whole machine -/

/-- The state after reset meets the invariant (70_reset_and_hazards.md R450; 00_scope.md R8). -/
def Obligations.ResetMeetsTheInvariant : Prop := Inv State.reset

/-- Every step keeps the invariant (10_state.md R37, R60–R65; 20_memory.md R102, R110; 60_exceptions.md R400): the
memory keeps its canonical form inside the two windows, the flags and VALID bits keep their implications, and every
valid table is what its commands make. That PAY_OFF is 0 whenever HDR is not valid rests, for COMPRESS, on R372
against R51 (log 21). -/
def Obligations.EveryStepKeepsTheInvariant : Prop :=
  ∀ s t : State, Inv s → step s = .next t → Inv t

/-- Tables whose VALID bit is 0 are unobservable (93_implementation_defined.md U4; 45_pipeline_commands.md R376): two
states of the invariant that agree on everything else step to states that agree on everything else, or fault alike. -/
def Obligations.InvalidTablesAreUnobservable : Prop :=
  ∀ s u : State, Inv s → Inv u → SameVisible s u → SameOutcome (step s) (step u)

/-- The round trip (45_pipeline_commands.md R374): the artifact of a successful COMPRESS, copied into the input range
of any state with a large enough output window, is decompressed to exactly the bytes compressed. An input byte nobody
has written, under `draw`, is one value throughout COMPRESS: the model's inference (log 17). -/
def Obligations.DecompressInvertsCompress : Prop :=
  ∀ (s t u : State) (bs : List Byte), InputHolds s bs → exec .compress s = .next t → t.errs.code = 0 →
    u.range.inLen = t.result.outLen →
    u.range.inOff.toNat + u.range.inLen.toNat ≤ u.params.ibufSize.toNat →
    (∀ i, i < t.result.outLen.toNat →
      u.mem.read (ibufBase + u.range.inOff.toNat + i) = t.mem.read (obufBase + s.range.outOff.toNat + i)) →
    OutputFits u → bs.length ≤ u.range.outCap.toNat →
    ∃ v, exec .decompress u = .next v ∧ v.status.done = true ∧ v.errs = ⟨0, 0⟩ ∧
      v.result.outLen.toNat = bs.length ∧
      ∀ (i : Nat) (h : i < bs.length), v.mem.read (obufBase + u.range.outOff.toNat + i) = some bs[i]
end

