-- ==== Sys2Proof/Laws/State.lean ====
section
/-! SUPPORT. One lemma per field of State and per update, so that no proof unfolds a record update. -/

namespace Sys2Proof.Machine

variable (s : State)

@[simp] theorem tick_params : s.tick.params = s.params := rfl
@[simp] theorem tick_lastCmd : s.tick.lastCmd = s.lastCmd := rfl
@[simp] theorem tick_status : s.tick.status = s.status := rfl
@[simp] theorem tick_errs : s.tick.errs = s.errs := rfl
@[simp] theorem tick_irqEn : s.tick.irqEn = s.irqEn := rfl
@[simp] theorem tick_range : s.tick.range = s.range := rfl
@[simp] theorem tick_result : s.tick.result = s.result := rfl
@[simp] theorem tick_query : s.tick.query = s.query := rfl
@[simp] theorem tick_ft : s.tick.ft = s.ft := rfl
@[simp] theorem tick_tree : s.tick.tree = s.tree := rfl
@[simp] theorem tick_ct : s.tick.ct = s.ct := rfl
@[simp] theorem tick_hdr : s.tick.hdr = s.hdr := rfl
@[simp] theorem tick_mem : s.tick.mem = s.mem := rfl
@[simp] theorem tick_agenda : s.tick.agenda = s.agenda := rfl
@[simp] theorem tick_reads : s.tick.reads = s.reads := rfl
@[simp] theorem tick_draws : s.tick.draws = s.draws + 1 := rfl

@[simp] theorem complete_params : s.complete.params = s.params := rfl
@[simp] theorem complete_lastCmd : s.complete.lastCmd = s.lastCmd := rfl
@[simp] theorem complete_status : s.complete.status = { s.status with done := true, busy := false } := rfl
@[simp] theorem complete_errs : s.complete.errs = ⟨0, 0⟩ := rfl
@[simp] theorem complete_irqEn : s.complete.irqEn = s.irqEn := rfl
@[simp] theorem complete_range : s.complete.range = s.range := rfl
@[simp] theorem complete_result : s.complete.result = s.result := rfl
@[simp] theorem complete_query : s.complete.query = s.query := rfl
@[simp] theorem complete_ft : s.complete.ft = s.ft := rfl
@[simp] theorem complete_tree : s.complete.tree = s.tree := rfl
@[simp] theorem complete_ct : s.complete.ct = s.ct := rfl
@[simp] theorem complete_hdr : s.complete.hdr = s.hdr := rfl
@[simp] theorem complete_mem : s.complete.mem = s.mem := rfl
@[simp] theorem complete_agenda : s.complete.agenda = s.agenda := rfl
@[simp] theorem complete_reads : s.complete.reads = s.reads := rfl
@[simp] theorem complete_draws : s.complete.draws = s.draws + 1 := rfl

@[simp] theorem recordError_params (e : ErrorCode) (info : Word) : (s.recordError e info).params = s.params := rfl
@[simp] theorem recordError_lastCmd (e : ErrorCode) (info : Word) : (s.recordError e info).lastCmd = s.lastCmd := rfl
@[simp] theorem recordError_status (e : ErrorCode) (info : Word) : (s.recordError e info).status = { s.status with err := true, busy := false } := rfl
@[simp] theorem recordError_errs (e : ErrorCode) (info : Word) : (s.recordError e info).errs = ⟨e.code, info⟩ := rfl
@[simp] theorem recordError_irqEn (e : ErrorCode) (info : Word) : (s.recordError e info).irqEn = s.irqEn := rfl
@[simp] theorem recordError_range (e : ErrorCode) (info : Word) : (s.recordError e info).range = s.range := rfl
@[simp] theorem recordError_result (e : ErrorCode) (info : Word) : (s.recordError e info).result = s.result := rfl
@[simp] theorem recordError_query (e : ErrorCode) (info : Word) : (s.recordError e info).query = s.query := rfl
@[simp] theorem recordError_ft (e : ErrorCode) (info : Word) : (s.recordError e info).ft = s.ft := rfl
@[simp] theorem recordError_tree (e : ErrorCode) (info : Word) : (s.recordError e info).tree = s.tree := rfl
@[simp] theorem recordError_ct (e : ErrorCode) (info : Word) : (s.recordError e info).ct = s.ct := rfl
@[simp] theorem recordError_hdr (e : ErrorCode) (info : Word) : (s.recordError e info).hdr = s.hdr := rfl
@[simp] theorem recordError_mem (e : ErrorCode) (info : Word) : (s.recordError e info).mem = s.mem := rfl
@[simp] theorem recordError_agenda (e : ErrorCode) (info : Word) : (s.recordError e info).agenda = s.agenda := rfl
@[simp] theorem recordError_reads (e : ErrorCode) (info : Word) : (s.recordError e info).reads = s.reads := rfl
@[simp] theorem recordError_draws (e : ErrorCode) (info : Word) : (s.recordError e info).draws = s.draws + 1 := rfl

@[simp] theorem drawWindow_params : s.drawWindow.params = s.params := rfl
@[simp] theorem drawWindow_lastCmd : s.drawWindow.lastCmd = s.lastCmd := rfl
@[simp] theorem drawWindow_status : s.drawWindow.status = s.status := rfl
@[simp] theorem drawWindow_errs : s.drawWindow.errs = s.errs := rfl
@[simp] theorem drawWindow_irqEn : s.drawWindow.irqEn = s.irqEn := rfl
@[simp] theorem drawWindow_range : s.drawWindow.range = s.range := rfl
@[simp] theorem drawWindow_result : s.drawWindow.result = s.result := rfl
@[simp] theorem drawWindow_query : s.drawWindow.query = s.query := rfl
@[simp] theorem drawWindow_ft : s.drawWindow.ft = s.ft := rfl
@[simp] theorem drawWindow_tree : s.drawWindow.tree = s.tree := rfl
@[simp] theorem drawWindow_ct : s.drawWindow.ct = s.ct := rfl
@[simp] theorem drawWindow_hdr : s.drawWindow.hdr = s.hdr := rfl
@[simp] theorem drawWindow_mem : s.drawWindow.mem = s.mem.store s.windowBase (s.drawnBytes s.windowBase s.windowSize) := rfl
@[simp] theorem drawWindow_agenda : s.drawWindow.agenda = s.agenda := rfl
@[simp] theorem drawWindow_reads : s.drawWindow.reads = s.reads := rfl
@[simp] theorem drawWindow_draws : s.drawWindow.draws = s.draws := rfl

@[simp] theorem accept_params (w : Word) : (s.accept w).params = s.params := rfl
@[simp] theorem accept_lastCmd (w : Word) : (s.accept w).lastCmd = w := rfl
@[simp] theorem accept_status (w : Word) : (s.accept w).status = { s.status with busy := true, done := false, err := false } := rfl
@[simp] theorem accept_errs (w : Word) : (s.accept w).errs = ⟨0, 0⟩ := rfl
@[simp] theorem accept_irqEn (w : Word) : (s.accept w).irqEn = s.irqEn := rfl
@[simp] theorem accept_range (w : Word) : (s.accept w).range = s.range := rfl
@[simp] theorem accept_result (w : Word) : (s.accept w).result = s.result := rfl
@[simp] theorem accept_query (w : Word) : (s.accept w).query = s.query := rfl
@[simp] theorem accept_ft (w : Word) : (s.accept w).ft = s.ft := rfl
@[simp] theorem accept_tree (w : Word) : (s.accept w).tree = s.tree := rfl
@[simp] theorem accept_ct (w : Word) : (s.accept w).ct = s.ct := rfl
@[simp] theorem accept_hdr (w : Word) : (s.accept w).hdr = s.hdr := rfl
@[simp] theorem accept_mem (w : Word) : (s.accept w).mem = s.mem := rfl
@[simp] theorem accept_agenda (w : Word) : (s.accept w).agenda = s.agenda := rfl
@[simp] theorem accept_reads (w : Word) : (s.accept w).reads = s.reads := rfl
@[simp] theorem accept_draws (w : Word) : (s.accept w).draws = s.draws := rfl

@[simp] theorem acknowledge_params (v : Word) : (s.acknowledge v).params = s.params := rfl
@[simp] theorem acknowledge_lastCmd (v : Word) : (s.acknowledge v).lastCmd = s.lastCmd := rfl
@[simp] theorem acknowledge_status (v : Word) : (s.acknowledge v).status = s.status.writeOneToClear v := rfl
@[simp] theorem acknowledge_errs (v : Word) : (s.acknowledge v).errs = s.errs := rfl
@[simp] theorem acknowledge_irqEn (v : Word) : (s.acknowledge v).irqEn = s.irqEn := rfl
@[simp] theorem acknowledge_range (v : Word) : (s.acknowledge v).range = s.range := rfl
@[simp] theorem acknowledge_result (v : Word) : (s.acknowledge v).result = s.result := rfl
@[simp] theorem acknowledge_query (v : Word) : (s.acknowledge v).query = s.query := rfl
@[simp] theorem acknowledge_ft (v : Word) : (s.acknowledge v).ft = s.ft := rfl
@[simp] theorem acknowledge_tree (v : Word) : (s.acknowledge v).tree = s.tree := rfl
@[simp] theorem acknowledge_ct (v : Word) : (s.acknowledge v).ct = s.ct := rfl
@[simp] theorem acknowledge_hdr (v : Word) : (s.acknowledge v).hdr = s.hdr := rfl
@[simp] theorem acknowledge_mem (v : Word) : (s.acknowledge v).mem = s.mem := rfl
@[simp] theorem acknowledge_agenda (v : Word) : (s.acknowledge v).agenda = s.agenda := rfl
@[simp] theorem acknowledge_reads (v : Word) : (s.acknowledge v).reads = s.reads := rfl
@[simp] theorem acknowledge_draws (v : Word) : (s.acknowledge v).draws = s.draws := rfl

@[simp] theorem dropWrite_params : s.dropWrite.params = s.params := rfl
@[simp] theorem dropWrite_lastCmd : s.dropWrite.lastCmd = s.lastCmd := rfl
@[simp] theorem dropWrite_status : s.dropWrite.status = { s.status with busyWr := true } := rfl
@[simp] theorem dropWrite_errs : s.dropWrite.errs = s.errs := rfl
@[simp] theorem dropWrite_irqEn : s.dropWrite.irqEn = s.irqEn := rfl
@[simp] theorem dropWrite_range : s.dropWrite.range = s.range := rfl
@[simp] theorem dropWrite_result : s.dropWrite.result = s.result := rfl
@[simp] theorem dropWrite_query : s.dropWrite.query = s.query := rfl
@[simp] theorem dropWrite_ft : s.dropWrite.ft = s.ft := rfl
@[simp] theorem dropWrite_tree : s.dropWrite.tree = s.tree := rfl
@[simp] theorem dropWrite_ct : s.dropWrite.ct = s.ct := rfl
@[simp] theorem dropWrite_hdr : s.dropWrite.hdr = s.hdr := rfl
@[simp] theorem dropWrite_mem : s.dropWrite.mem = s.mem := rfl
@[simp] theorem dropWrite_agenda : s.dropWrite.agenda = s.agenda := rfl
@[simp] theorem dropWrite_reads : s.dropWrite.reads = s.reads := rfl
@[simp] theorem dropWrite_draws : s.dropWrite.draws = s.draws := rfl

@[simp] theorem discardResults_params (w : Bool) : (s.discardResults w).params = s.params := by
  cases w <;> rfl
@[simp] theorem discardResults_lastCmd (w : Bool) : (s.discardResults w).lastCmd = s.lastCmd := by
  cases w <;> rfl
@[simp] theorem discardResults_errs (w : Bool) : (s.discardResults w).errs = s.errs := by
  cases w <;> rfl
@[simp] theorem discardResults_irqEn (w : Bool) : (s.discardResults w).irqEn = s.irqEn := by
  cases w <;> rfl
@[simp] theorem discardResults_range (w : Bool) : (s.discardResults w).range = s.range := by
  cases w <;> rfl
@[simp] theorem discardResults_query (w : Bool) : (s.discardResults w).query = s.query := by
  cases w <;> rfl
@[simp] theorem discardResults_ft (w : Bool) : (s.discardResults w).ft = s.ft := by
  cases w <;> rfl
@[simp] theorem discardResults_tree (w : Bool) : (s.discardResults w).tree = s.tree := by
  cases w <;> rfl
@[simp] theorem discardResults_ct (w : Bool) : (s.discardResults w).ct = s.ct := by
  cases w <;> rfl
@[simp] theorem discardResults_hdr (w : Bool) : (s.discardResults w).hdr = s.hdr := by
  cases w <;> rfl
@[simp] theorem discardResults_agenda (w : Bool) : (s.discardResults w).agenda = s.agenda := by
  cases w <;> rfl
@[simp] theorem discardResults_reads (w : Bool) : (s.discardResults w).reads = s.reads := by
  cases w <;> rfl
@[simp] theorem discardResults_draws (w : Bool) : (s.discardResults w).draws = s.draws := by
  cases w <;> rfl

@[simp] theorem discardResults_status (w : Bool) : (s.discardResults w).status = s.status.clearValid := by
  cases w <;> rfl
@[simp] theorem discardResults_result (w : Bool) : (s.discardResults w).result = ⟨0, 0, 0, 0, 0, 0⟩ := by
  cases w <;> rfl
@[simp] theorem discardResults_mem (w : Bool) :
    (s.discardResults w).mem = if w then s.drawWindow.mem else s.mem := by
  cases w <;> rfl

@[simp] theorem raiseError_params (w : Bool) (e : ErrorCode) (info : Word) : (s.raiseError w e info).params = s.params := by
  cases e <;> cases w <;> rfl
@[simp] theorem raiseError_lastCmd (w : Bool) (e : ErrorCode) (info : Word) : (s.raiseError w e info).lastCmd = s.lastCmd := by
  cases e <;> cases w <;> rfl
@[simp] theorem raiseError_irqEn (w : Bool) (e : ErrorCode) (info : Word) : (s.raiseError w e info).irqEn = s.irqEn := by
  cases e <;> cases w <;> rfl
@[simp] theorem raiseError_range (w : Bool) (e : ErrorCode) (info : Word) : (s.raiseError w e info).range = s.range := by
  cases e <;> cases w <;> rfl
@[simp] theorem raiseError_query (w : Bool) (e : ErrorCode) (info : Word) : (s.raiseError w e info).query = s.query := by
  cases e <;> cases w <;> rfl
@[simp] theorem raiseError_ft (w : Bool) (e : ErrorCode) (info : Word) : (s.raiseError w e info).ft = s.ft := by
  cases e <;> cases w <;> rfl
@[simp] theorem raiseError_tree (w : Bool) (e : ErrorCode) (info : Word) : (s.raiseError w e info).tree = s.tree := by
  cases e <;> cases w <;> rfl
@[simp] theorem raiseError_ct (w : Bool) (e : ErrorCode) (info : Word) : (s.raiseError w e info).ct = s.ct := by
  cases e <;> cases w <;> rfl
@[simp] theorem raiseError_hdr (w : Bool) (e : ErrorCode) (info : Word) : (s.raiseError w e info).hdr = s.hdr := by
  cases e <;> cases w <;> rfl
@[simp] theorem raiseError_agenda (w : Bool) (e : ErrorCode) (info : Word) : (s.raiseError w e info).agenda = s.agenda := by
  cases e <;> cases w <;> rfl
@[simp] theorem raiseError_reads (w : Bool) (e : ErrorCode) (info : Word) : (s.raiseError w e info).reads = s.reads := by
  cases e <;> cases w <;> rfl

@[simp] theorem raiseError_errs (w : Bool) (e : ErrorCode) (info : Word) :
    (s.raiseError w e info).errs = ⟨e.code, info⟩ := by
  cases e <;> rfl
@[simp] theorem raiseError_draws (w : Bool) (e : ErrorCode) (info : Word) :
    (s.raiseError w e info).draws = s.draws + 1 := by
  cases e <;> cases w <;> rfl
@[simp] theorem raiseError_mem (w : Bool) (e : ErrorCode) (info : Word) :
    (s.raiseError w e info).mem = if !e.isPreCheck && w then s.drawWindow.mem else s.mem := by
  cases e <;> cases w <;> rfl
@[simp] theorem raiseError_result (w : Bool) (e : ErrorCode) (info : Word) :
    (s.raiseError w e info).result = if e.isPreCheck then s.result else ⟨0, 0, 0, 0, 0, 0⟩ := by
  cases e <;> cases w <;> rfl
@[simp] theorem raiseError_status (w : Bool) (e : ErrorCode) (info : Word) :
    (s.raiseError w e info).status =
      { (if e.isPreCheck then s.status else s.status.clearValid) with err := true, busy := false } := by
  cases e <;> cases w <;> rfl

@[simp] theorem writeRange_params (r : RangeRegs) : (s.writeRange r).params = s.params := by
  unfold State.writeRange; split <;> rfl
@[simp] theorem writeRange_lastCmd (r : RangeRegs) : (s.writeRange r).lastCmd = s.lastCmd := by
  unfold State.writeRange; split <;> rfl
@[simp] theorem writeRange_errs (r : RangeRegs) : (s.writeRange r).errs = s.errs := by
  unfold State.writeRange; split <;> rfl
@[simp] theorem writeRange_irqEn (r : RangeRegs) : (s.writeRange r).irqEn = s.irqEn := by
  unfold State.writeRange; split <;> rfl
@[simp] theorem writeRange_result (r : RangeRegs) : (s.writeRange r).result = s.result := by
  unfold State.writeRange; split <;> rfl
@[simp] theorem writeRange_query (r : RangeRegs) : (s.writeRange r).query = s.query := by
  unfold State.writeRange; split <;> rfl
@[simp] theorem writeRange_ft (r : RangeRegs) : (s.writeRange r).ft = s.ft := by
  unfold State.writeRange; split <;> rfl
@[simp] theorem writeRange_tree (r : RangeRegs) : (s.writeRange r).tree = s.tree := by
  unfold State.writeRange; split <;> rfl
@[simp] theorem writeRange_ct (r : RangeRegs) : (s.writeRange r).ct = s.ct := by
  unfold State.writeRange; split <;> rfl
@[simp] theorem writeRange_hdr (r : RangeRegs) : (s.writeRange r).hdr = s.hdr := by
  unfold State.writeRange; split <;> rfl
@[simp] theorem writeRange_mem (r : RangeRegs) : (s.writeRange r).mem = s.mem := by
  unfold State.writeRange; split <;> rfl
@[simp] theorem writeRange_agenda (r : RangeRegs) : (s.writeRange r).agenda = s.agenda := by
  unfold State.writeRange; split <;> rfl
@[simp] theorem writeRange_reads (r : RangeRegs) : (s.writeRange r).reads = s.reads := by
  unfold State.writeRange; split <;> rfl
@[simp] theorem writeRange_draws (r : RangeRegs) : (s.writeRange r).draws = s.draws := by
  unfold State.writeRange; split <;> rfl

@[simp] theorem writeRange_range (r : RangeRegs) :
    (s.writeRange r).range = if s.status.busy then s.range else r := by
  unfold State.writeRange; split <;> rfl
@[simp] theorem writeRange_status (r : RangeRegs) :
    (s.writeRange r).status = if s.status.busy then { s.status with busyWr := true } else s.status := by
  unfold State.writeRange; split <;> rfl

@[simp] theorem abandon_params : (s.abandon).params = s.params := by
  unfold State.abandon; repeat' split
  all_goals rfl
@[simp] theorem abandon_lastCmd : (s.abandon).lastCmd = s.lastCmd := by
  unfold State.abandon; repeat' split
  all_goals rfl
@[simp] theorem abandon_status : (s.abandon).status = s.status := by
  unfold State.abandon; repeat' split
  all_goals rfl
@[simp] theorem abandon_errs : (s.abandon).errs = s.errs := by
  unfold State.abandon; repeat' split
  all_goals rfl
@[simp] theorem abandon_irqEn : (s.abandon).irqEn = s.irqEn := by
  unfold State.abandon; repeat' split
  all_goals rfl
@[simp] theorem abandon_range : (s.abandon).range = s.range := by
  unfold State.abandon; repeat' split
  all_goals rfl
@[simp] theorem abandon_result : (s.abandon).result = s.result := by
  unfold State.abandon; repeat' split
  all_goals rfl
@[simp] theorem abandon_query : (s.abandon).query = s.query := by
  unfold State.abandon; repeat' split
  all_goals rfl
@[simp] theorem abandon_ft : (s.abandon).ft = s.ft := by
  unfold State.abandon; repeat' split
  all_goals rfl
@[simp] theorem abandon_tree : (s.abandon).tree = s.tree := by
  unfold State.abandon; repeat' split
  all_goals rfl
@[simp] theorem abandon_ct : (s.abandon).ct = s.ct := by
  unfold State.abandon; repeat' split
  all_goals rfl
@[simp] theorem abandon_hdr : (s.abandon).hdr = s.hdr := by
  unfold State.abandon; repeat' split
  all_goals rfl
@[simp] theorem abandon_agenda : (s.abandon).agenda = s.agenda := by
  unfold State.abandon; repeat' split
  all_goals rfl
@[simp] theorem abandon_reads : (s.abandon).reads = s.reads := by
  unfold State.abandon; repeat' split
  all_goals rfl
@[simp] theorem abandon_draws : (s.abandon).draws = s.draws := by
  unfold State.abandon; repeat' split
  all_goals rfl

@[simp] theorem powerOnReset_params : s.powerOnReset.params = s.params := rfl
@[simp] theorem powerOnReset_lastCmd : s.powerOnReset.lastCmd = State.reset.lastCmd := rfl
@[simp] theorem powerOnReset_status : s.powerOnReset.status = State.reset.status := rfl
@[simp] theorem powerOnReset_errs : s.powerOnReset.errs = State.reset.errs := rfl
@[simp] theorem powerOnReset_irqEn : s.powerOnReset.irqEn = State.reset.irqEn := rfl
@[simp] theorem powerOnReset_range : s.powerOnReset.range = State.reset.range := rfl
@[simp] theorem powerOnReset_result : s.powerOnReset.result = State.reset.result := rfl
@[simp] theorem powerOnReset_query : s.powerOnReset.query = State.reset.query := rfl
@[simp] theorem powerOnReset_ft : s.powerOnReset.ft = State.reset.ft := rfl
@[simp] theorem powerOnReset_tree : s.powerOnReset.tree = State.reset.tree := rfl
@[simp] theorem powerOnReset_ct : s.powerOnReset.ct = State.reset.ct := rfl
@[simp] theorem powerOnReset_hdr : s.powerOnReset.hdr = State.reset.hdr := rfl
@[simp] theorem powerOnReset_mem : s.powerOnReset.mem = State.reset.mem := rfl
@[simp] theorem powerOnReset_agenda : s.powerOnReset.agenda = s.agenda := rfl
@[simp] theorem powerOnReset_reads : s.powerOnReset.reads = s.reads := rfl
@[simp] theorem powerOnReset_draws : s.powerOnReset.draws = s.draws := rfl

@[simp] theorem softReset_params : s.softReset.params = s.params := rfl
@[simp] theorem softReset_lastCmd : s.softReset.lastCmd = State.reset.lastCmd := rfl
@[simp] theorem softReset_status : s.softReset.status = State.reset.status := rfl
@[simp] theorem softReset_errs : s.softReset.errs = State.reset.errs := rfl
@[simp] theorem softReset_irqEn : s.softReset.irqEn = State.reset.irqEn := rfl
@[simp] theorem softReset_range : s.softReset.range = State.reset.range := rfl
@[simp] theorem softReset_result : s.softReset.result = State.reset.result := rfl
@[simp] theorem softReset_query : s.softReset.query = State.reset.query := rfl
@[simp] theorem softReset_ft : s.softReset.ft = State.reset.ft := rfl
@[simp] theorem softReset_tree : s.softReset.tree = State.reset.tree := rfl
@[simp] theorem softReset_ct : s.softReset.ct = State.reset.ct := rfl
@[simp] theorem softReset_hdr : s.softReset.hdr = State.reset.hdr := rfl
@[simp] theorem softReset_mem : s.softReset.mem = s.mem := rfl
@[simp] theorem softReset_agenda : s.softReset.agenda = s.agenda := rfl
@[simp] theorem softReset_reads : s.softReset.reads = s.reads := rfl
@[simp] theorem softReset_draws : s.softReset.draws = s.draws := rfl

end Sys2Proof.Machine
end

