-- ==== Sys2Proof/Laws/Flags.lean ====
section
/-! SUPPORT. STATUS as a word: its bits, and the prerequisites its VALID bits answer. -/

namespace Sys2Proof.Machine

/-- The bits of the STATUS word (10_state.md R37). -/
theorem toWord_getLsbD (st : Status) :
    st.toWord.getLsbD 0 = st.busy ∧ st.toWord.getLsbD 1 = st.done ∧ st.toWord.getLsbD 2 = st.err ∧
      st.toWord.getLsbD 3 = st.busyWr ∧ st.toWord.getLsbD 4 = st.ftValid ∧
      st.toWord.getLsbD 5 = st.treeValid ∧ st.toWord.getLsbD 6 = st.ctValid ∧
      st.toWord.getLsbD 7 = st.hdrValid := by
  obtain ⟨a, b, c, d, e, f, g, h⟩ := st
  revert a b c d e f g h
  decide

/-- What BUILD misses (60_exceptions.md R409). -/
theorem missing_build (st : Status) : st.missing 0x10 = if st.ftValid then 0 else 0x10 := by
  obtain ⟨a, b, c, d, e, f, g, h⟩ := st
  revert a b c d e f g h
  decide

/-- What ASSIGN misses (60_exceptions.md R409). -/
theorem missing_assign (st : Status) :
    st.missing 0x30 = (if st.ftValid then 0 else 0x10) + (if st.treeValid then 0 else 0x20) := by
  obtain ⟨a, b, c, d, e, f, g, h⟩ := st
  revert a b c d e f g h
  decide

/-- What ENCODE misses (60_exceptions.md R409). -/
theorem missing_encode (st : Status) :
    st.missing 0x70 =
      (if st.ftValid then 0 else 0x10) + (if st.treeValid then 0 else 0x20) + (if st.ctValid then 0 else 0x40) := by
  obtain ⟨a, b, c, d, e, f, g, h⟩ := st
  revert a b c d e f g h
  decide

/-- What DECODE misses (60_exceptions.md R409). -/
theorem missing_decode (st : Status) :
    st.missing 0xB0 =
      (if st.ftValid then 0 else 0x10) + (if st.treeValid then 0 else 0x20) + (if st.hdrValid then 0 else 0x80) := by
  obtain ⟨a, b, c, d, e, f, g, h⟩ := st
  revert a b c d e f g h
  decide

theorem missing_build_eq_zero {st : Status} : st.missing 0x10 = 0 ↔ st.ftValid = true := by
  rw [missing_build]; cases st.ftValid <;> decide

theorem missing_assign_eq_zero {st : Status} :
    st.missing 0x30 = 0 ↔ st.ftValid = true ∧ st.treeValid = true := by
  rw [missing_assign]; cases st.ftValid <;> cases st.treeValid <;> decide

theorem missing_encode_eq_zero {st : Status} :
    st.missing 0x70 = 0 ↔ st.ftValid = true ∧ st.treeValid = true ∧ st.ctValid = true := by
  rw [missing_encode]; cases st.ftValid <;> cases st.treeValid <;> cases st.ctValid <;> decide

theorem missing_decode_eq_zero {st : Status} :
    st.missing 0xB0 = 0 ↔ st.ftValid = true ∧ st.treeValid = true ∧ st.hdrValid = true := by
  rw [missing_decode]; cases st.ftValid <;> cases st.treeValid <;> cases st.hdrValid <;> decide

end Sys2Proof.Machine
end

