-- ==== Sys2Proof/Laws/Memory.lean ====
section
/-! SUPPORT. The laws of the byte memory: what a store leaves readable, and that every memory operation keeps the
canonical form. -/

namespace Sys2Proof.Machine

@[simp] theorem cells_length (a : Nat) (bs : List Byte) : (Memory.cells a bs).length = bs.length := by
  induction bs generalizing a with
  | nil => rfl
  | cons b bs ih => simp [Memory.cells, ih]

theorem cells_bounds {a : Nat} {bs : List Byte} {c : Host.Cell} (h : c ∈ Memory.cells a bs) :
    a ≤ c.1 ∧ c.1 < a + bs.length := by
  induction bs generalizing a with
  | nil => simp [Memory.cells] at h
  | cons b bs ih =>
    simp only [Memory.cells, List.mem_cons] at h
    rcases h with rfl | h
    · simp
    · have := ih h
      simp only [List.length_cons]
      omega

theorem cells_sorted (a : Nat) (bs : List Byte) : (Memory.cells a bs).Pairwise (fun x y => x.1 < y.1) := by
  induction bs generalizing a with
  | nil => exact List.Pairwise.nil
  | cons b bs ih =>
    refine List.Pairwise.cons (fun c hc => ?_) (ih (a + 1))
    have := cells_bounds hc
    omega

/-- What a store lists: cells of the old memory outside the stored range, and the stored cells. -/
theorem mem_store {m : Memory} {a : Nat} {bs : List Byte} {c : Host.Cell} :
    c ∈ m.store a bs ↔ c ∈ Memory.cells a bs ∨ (c ∈ m ∧ (c.1 < a ∨ a + bs.length ≤ c.1)) := by
  simp only [Memory.store, List.mem_append, List.mem_filter, decide_eq_true_eq]
  tauto

/-- A store keeps the canonical form. -/
theorem store_wf {m : Memory} (h : m.wf) (a : Nat) (bs : List Byte) : (m.store a bs).wf := by
  obtain ⟨hs, _⟩ := h
  refine ⟨?_, fun c _ => by simp [Memory.unlisted]⟩
  simp only [Memory.store, List.pairwise_append, List.mem_append, List.mem_filter, decide_eq_true_eq]
  refine ⟨⟨hs.filter _, cells_sorted a bs, ?_⟩, hs.filter _, ?_⟩
  · intro x hx y hy
    have := cells_bounds hy
    omega
  · rintro x (hx | hx) y hy
    · omega
    · have := cells_bounds hx
      omega

theorem reset_mem_wf : State.reset.mem.wf := by decide

@[simp] theorem read_nil (a : Nat) : Memory.read [] a = none := rfl

theorem read_cons (c : Host.Cell) (m : Memory) (a : Nat) :
    Memory.read (c :: m) a = if c.1 = a then some c.2 else m.read a := by
  by_cases h : c.1 = a <;> simp [Memory.read, h]

theorem read_eq_none_of_forall {m : Memory} {a : Nat} (h : ∀ c ∈ m, c.1 ≠ a) : m.read a = none := by
  induction m with
  | nil => rfl
  | cons c m ih =>
    rw [read_cons, if_neg (h c (by simp)), ih (fun d hd => h d (by simp [hd]))]

theorem read_append (m n : Memory) (a : Nat) :
    Memory.read (m ++ n) a = (m.read a).or (n.read a) := by
  induction m with
  | nil => simp
  | cons c m ih =>
    rw [List.cons_append, read_cons, read_cons, ih]
    split <;> simp

theorem read_filter {m : Memory} {a : Nat} (p : Nat → Bool) (h : p a = true) :
    Memory.read (m.filter (fun c => p c.1)) a = m.read a := by
  induction m with
  | nil => rfl
  | cons c m ih =>
    rw [read_cons]
    by_cases hc : p c.1 = true
    · rw [List.filter_cons_of_pos (p := fun c : Host.Cell => p c.1) hc, read_cons, ih]
    · rw [List.filter_cons_of_neg (p := fun c : Host.Cell => p c.1) hc, ih, if_neg]
      rintro rfl
      exact hc h

theorem read_filter_none {m : Memory} {a : Nat} (p : Nat → Bool) (h : p a = false) :
    Memory.read (m.filter (fun c => p c.1)) a = none := by
  refine read_eq_none_of_forall ?_
  rintro c hc rfl
  simp [h] at hc

theorem read_cells (a : Nat) (bs : List Byte) (i : Nat) : (Memory.cells a bs).read (a + i) = bs[i]? := by
  induction bs generalizing a i with
  | nil => simp [Memory.cells]
  | cons b bs ih =>
    rw [Memory.cells, read_cons]
    cases i with
    | zero => simp
    | succ i =>
      rw [if_neg (by simp), show a + (i + 1) = (a + 1) + i by omega, ih]
      simp

theorem read_cells_outside {a x : Nat} {bs : List Byte} (h : x < a ∨ a + bs.length ≤ x) :
    (Memory.cells a bs).read x = none := by
  refine read_eq_none_of_forall ?_
  rintro c hc rfl
  have := cells_bounds hc
  omega

/-- A read of a stored byte gives the value stored. -/
theorem read_store_inside {m : Memory} {a : Nat} {bs : List Byte} {i : Nat} (h : i < bs.length) :
    (m.store a bs).read (a + i) = some bs[i] := by
  rw [Memory.store, List.append_assoc, read_append, read_append,
    read_filter_none (fun x => decide (x < a)) (by simp), read_cells]
  simp [h]

/-- A store leaves every address outside the stored range alone. -/
theorem read_store_outside {m : Memory} {a x : Nat} {bs : List Byte} (h : x < a ∨ a + bs.length ≤ x) :
    (m.store a bs).read x = m.read x := by
  rw [Memory.store, List.append_assoc, read_append, read_append, read_cells_outside h]
  rcases h with h | h
  · rw [read_filter (fun y => decide (y < a)) (by simpa using h),
      read_filter_none (fun y => decide (a + bs.length ≤ y)) (by simp; omega)]
    simp
  · rw [read_filter_none (fun y => decide (y < a)) (by simp; omega),
      read_filter (fun y => decide (a + bs.length ≤ y)) (by simpa using h)]
    simp

@[simp] theorem drawnBytes_length (s : State) (a n : Nat) : (s.drawnBytes a n).length = n := by
  induction n generalizing a with
  | zero => rfl
  | succ n ih => simp [State.drawnBytes, ih]

theorem drawnBytes_getElem (s : State) (a n i : Nat) (h : i < (s.drawnBytes a n).length) :
    (s.drawnBytes a n)[i] = Config.drawByte s.draws (a + i) := by
  induction n generalizing a i with
  | zero => simp at h
  | succ n ih =>
    cases i with
    | zero => rfl
    | succ i =>
      simp only [State.drawnBytes, List.getElem_cons_succ]
      rw [ih, show a + 1 + i = a + (i + 1) by omega]

/-- Drawing the output window keeps the canonical form. -/
theorem drawWindow_wf {s : State} (h : s.mem.wf) : s.drawWindow.mem.wf := store_wf h _ _

/-- Storing the enabled lanes of a HOST write keeps the canonical form. -/
theorem storeLanes_wf {m : Memory} (h : m.wf) (a : Nat) (lanes : BitVec 4) (data : Word) (i n : Nat) :
    (storeLanes a lanes data i n m).wf := by
  induction n generalizing i m with
  | zero => exact h
  | succ n ih =>
    refine ih ?_ (i + 1)
    split
    · exact store_wf h _ _
    · exact h

/-- A HOST write touches only the bytes of its lanes. -/
theorem read_storeLanes_outside {m : Memory} {a x i n : Nat} {lanes : BitVec 4} {data : Word}
    (h : x < a + i ∨ a + i + n ≤ x) : (storeLanes a lanes data i n m).read x = m.read x := by
  induction n generalizing i m with
  | zero => rfl
  | succ n ih =>
    rw [storeLanes, ih (by omega)]
    split
    · exact read_store_outside (by simp; omega)
    · rfl

/-- The byte an enabled lane stores, and the byte a disabled lane leaves (20_memory.md R105, R107). -/
theorem read_storeLanes {m : Memory} {a i n j : Nat} {lanes : BitVec 4} {data : Word} (h : i ≤ j) (hj : j < i + n) :
    (storeLanes a lanes data i n m).read (a + j) =
      if lanes.getLsbD j then some (data.extractLsb' (8 * j) 8) else m.read (a + j) := by
  induction n generalizing i m with
  | zero => omega
  | succ n ih =>
    rw [storeLanes]
    rcases Nat.eq_or_lt_of_le h with rfl | h
    · rw [read_storeLanes_outside (by omega)]
      split
      · exact read_store_inside (i := 0) (by simp)
      · rfl
    · rw [ih (by omega) (by omega)]
      split
      · rfl
      · split
        · exact read_store_outside (by simp; omega)
        · rfl

end Sys2Proof.Machine
end

