-- ==== Sys2Proof/Laws/Ops.lean ====
section
/-! SUPPORT. How a command's computation ends: the sequencing of its checks, and the one lemma about `finish` that
the inversions of the meanings cite. -/

namespace Sys2Proof.Machine

variable {α β : Type}

@[simp] theorem run_pure (a : α) : (pure a : Run α) = .ok a := rfl

@[simp] theorem run_ok_bind (a : α) (f : α → Run β) : ((Except.ok a : Run α) >>= f) = f a := rfl

@[simp] theorem run_error_bind (e : Stop) (f : α → Run β) : ((Except.error e : Run α) >>= f) = .error e := rfl

@[simp] theorem run_raise_bind (e : ErrorCode) (n : Nat) (f : α → Run β) :
    ((raise e n : Run α) >>= f) = raise e n := rfl

/-- A sequence succeeds exactly when both parts do. -/
theorem run_bind_eq_ok {x : Run α} {f : α → Run β} {b : β} :
    (x >>= f) = .ok b ↔ ∃ a, x = .ok a ∧ f a = .ok b := by
  cases x <;> simp

/-- A sequence stops exactly when its first part stops, or its second part does after the first succeeds. -/
theorem run_bind_eq_error {x : Run α} {f : α → Run β} {e : Stop} :
    (x >>= f) = .error e ↔ x = .error e ∨ ∃ a, x = .ok a ∧ f a = .error e := by
  cases x <;> simp

@[simp] theorem raise_ne_ok (e : ErrorCode) (n : Nat) (a : α) : (raise e n : Run α) ≠ .ok a := by
  simp [raise]

/-- `raise` ends a computation with this error and nothing else. -/
@[simp] theorem raise_eq_error (e : ErrorCode) (n : Nat) (x : Stop) :
    (raise e n : Run α) = .error x ↔ x = .error e (BitVec.ofNat 32 n) := by
  simp [raise, eq_comm]

@[simp] theorem finish_ok (i : Instr) (s t : State) : finish i s (.ok t) = .next t.complete := rfl

@[simp] theorem finish_error (i : Instr) (s : State) (e : ErrorCode) (info : Word) :
    finish i s (.error (.error e info)) = .next (s.raiseError (writesObuf i) e info) := rfl

@[simp] theorem finish_raise (i : Instr) (s : State) (e : ErrorCode) (n : Nat) :
    finish i s (raise e n) = .next (s.raiseError (writesObuf i) e (BitVec.ofNat 32 n)) := rfl

@[simp] theorem finish_fault (i : Instr) (s : State) (f : Fault) :
    finish i s (.error (.fault f)) = .fault f := rfl

/-- Everything a command that completes can do: succeed with its updates, or raise one error from the state it
started in. -/
theorem finish_eq_next {i : Instr} {s t : State} {r : Run State} :
    finish i s r = .next t ↔
      (∃ u, r = .ok u ∧ t = u.complete) ∨
        ∃ e info, r = .error (.error e info) ∧ t = s.raiseError (writesObuf i) e info := by
  rcases r with (⟨e, info⟩ | f) | u <;> simp [eq_comm]

/-- A command is never refused. -/
theorem finish_ne_refused (i : Instr) (s : State) (r : Run State) (f : Refusal) :
    finish i s r ≠ .refused f := by
  rcases r with (⟨e, info⟩ | f) | u <;> simp

/-- A command faults exactly when its computation does. -/
theorem finish_eq_fault {i : Instr} {s : State} {r : Run State} {f : Fault} :
    finish i s r = .fault f ↔ r = .error (.fault f) := by
  rcases r with (⟨e, info⟩ | f) | u <;> simp

end Sys2Proof.Machine
end

