-- ==== Sys2Proof/Laws/Operands.lean ====
section
/-! SUPPORT. What the operand reads and the checks of the commands answer, once each. -/

namespace Sys2Proof.Machine

open Sys2Proof.Safety

/-! ### Reads of IBUF -/

/-- A byte of IBUF is read exactly when the offset exists and the byte was written, or is drawn. -/
theorem ib_eq_ok {s : State} {o : Nat} {b : Byte} :
    s.ib o = .ok b ↔ o < s.params.ibufSize.toNat ∧
      (s.mem.read (ibufBase + o) = some b ∨
        (s.mem.read (ibufBase + o) = none ∧ s.params.unwrittenRead = .draw ∧
          Config.drawByte s.draws (ibufBase + o) = b)) := by
  unfold State.ib State.readByte
  split
  · rename_i h
    cases s.mem.read (ibufBase + o) with
    | some x => simp [h]
    | none => cases s.params.unwrittenRead <;> simp [h]
  · simp_all

/-- An IBUF read never raises an error of the block. -/
theorem ib_ne_error (s : State) (o : Nat) (e : ErrorCode) (info : Word) : s.ib o ≠ .error (.error e info) := by
  unfold State.ib
  split
  · split <;> simp
  · simp

/-- A run of bytes is read exactly when every one of them is. -/
theorem ibytes_eq_ok {s : State} {o n : Nat} {bs : List Byte} :
    s.ibytes o n = .ok bs ↔ bs.length = n ∧ BytesAt s o bs := by
  induction n generalizing o bs with
  | zero =>
    simp only [State.ibytes, Except.ok.injEq]
    constructor
    · rintro rfl
      exact ⟨rfl, fun i h => absurd h (Nat.not_lt_zero i)⟩
    · rintro ⟨h, -⟩
      exact (List.eq_nil_of_length_eq_zero h).symm
  | succ n ih =>
    simp only [State.ibytes, run_bind_eq_ok, run_pure, Except.ok.injEq, ih]
    constructor
    · rintro ⟨b, hb, bs', ⟨rfl, h⟩, rfl⟩
      refine ⟨rfl, fun i hi => ?_⟩
      cases i with
      | zero => exact hb
      | succ i =>
        have := h i (by simpa using hi)
        rwa [show o + 1 + i = o + (i + 1) by omega] at this
    · rintro ⟨hl, h⟩
      cases bs with
      | nil => simp at hl
      | cons b bs' =>
        refine ⟨b, h 0 (by simp), bs', ⟨by simpa using hl, fun i hi => ?_⟩, rfl⟩
        have := h (i + 1) (by simpa using hi)
        rwa [show o + (i + 1) = o + 1 + i by omega] at this

/-- An IBUF read of several bytes never raises an error of the block. -/
theorem ibytes_ne_error (s : State) (o n : Nat) (e : ErrorCode) (info : Word) :
    s.ibytes o n ≠ .error (.error e info) := by
  induction n generalizing o with
  | zero => simp [State.ibytes]
  | succ n ih =>
    simp only [State.ibytes, ne_eq, run_bind_eq_error, run_pure, reduceCtorEq, and_false, exists_false, or_false,
      not_or, not_exists, not_and]
    exact ⟨ib_ne_error s o e info, fun b _ => ih (o + 1)⟩

/-- The input range is read exactly when it holds the bytes. -/
theorem inputBytes_of_holds {s : State} {bs : List Byte} (h : InputHolds s bs) : s.inputBytes = .ok bs :=
  ibytes_eq_ok.mpr ⟨h.1, h.2.2⟩

/-- Little-endian words are read from their bytes (30_encoding.md R151). -/
theorem le32_of_bytesAt {s : State} {o : Nat} {w : Word} (h : BytesAt s o (leBytes w)) : s.le32 o = .ok w := by
  have h0 := h 0 (by simp [leBytes])
  have h1 := h 1 (by simp [leBytes])
  have h2 := h 2 (by simp [leBytes])
  have h3 := h 3 (by simp [leBytes])
  simp only [leBytes, Nat.add_zero, List.getElem_cons_zero, List.getElem_cons_succ] at h0 h1 h2 h3
  simp only [State.le32, h0, h1, h2, h3, run_ok_bind, run_pure, leWord, Except.ok.injEq]
  ext i hi
  simp only [BitVec.getElem_append, BitVec.getElem_extractLsb']
  split
  · rw [BitVec.getElem_eq_testBit_toNat, BitVec.getLsbD, Nat.zero_add]
  · split
    · rw [BitVec.getElem_eq_testBit_toNat, BitVec.getLsbD]; congr 1; omega
    · split <;> (rw [BitVec.getElem_eq_testBit_toNat, BitVec.getLsbD]; congr 1; omega)

/-! ### The checks -/

theorem checkInput_eq_ok {s : State} :
    s.checkInput = .ok () ↔ s.range.inOff.toNat + s.range.inLen.toNat ≤ s.params.ibufSize.toNat := by
  unfold State.checkInput
  split <;> simp <;> omega

theorem checkOutput_eq_ok {s : State} : s.checkOutput = .ok () ↔ OutputFits s := by
  unfold State.checkOutput OutputFits
  split <;> simp <;> omega

theorem checkNonEmpty_eq_ok {s : State} : s.checkNonEmpty = .ok () ↔ s.range.inLen ≠ 0 := by
  unfold State.checkNonEmpty
  split <;> simp_all

theorem checkTables_eq_ok {s : State} {mask : Word} : s.checkTables mask = .ok () ↔ s.status.missing mask = 0 := by
  unfold State.checkTables
  split <;> simp_all

theorem checkEncoded_eq_ok {s : State} {bits bytes : Nat} :
    s.checkEncoded bits bytes = .ok () ↔ bits ≤ word32Max ∧ bytes ≤ s.range.outCap.toNat := by
  unfold State.checkEncoded
  split <;> simp <;> omega

theorem checkDecoded_eq_ok {s : State} {n : Word} : s.checkDecoded n = .ok () ↔ n.toNat ≤ s.range.outCap.toNat := by
  unfold State.checkDecoded
  split <;> simp <;> omega

theorem need_eq_ok {len o w : Nat} : need len o w = .ok () ↔ o + w ≤ len := by
  unfold need
  split <;> simp <;> omega

/-- A memory after a command's output: the bytes written, and every other address as before. -/
theorem output_read_inside {s : State} {bs : List Byte} {i : Nat} (h : i < bs.length) :
    (s.output bs).read (s.windowBase + i) = some bs[i] := read_store_inside h

theorem output_read_outside {s : State} {bs : List Byte} {a : Nat}
    (h : a < s.windowBase ∨ s.windowBase + bs.length ≤ a) : (s.output bs).read a = s.mem.read a :=
  read_store_outside h

theorem output_wf {s : State} (h : s.mem.wf) (bs : List Byte) : (s.output bs).wf := store_wf h _ _

end Sys2Proof.Machine
end

