-- ==== Sys2Proof/Laws/Commands.lean ====
section
/-! SUPPORT. What each command can do, said once: the inversion of every meaning. A command that completes either
succeeds with the updates of its rule, under the checks of its rule, or raises one of the errors its row of
60_exceptions.md R400 allows. -/

namespace Sys2Proof.Machine

open Sys2Proof.Safety

theorem execNop_next {s t : State} : execNop s = .next t ↔ t = s.complete := by
  simp [execNop, eq_comm]

theorem execQuery_next {sym : Byte} {s t : State} :
    execQuery sym s = .next t ↔ t = ({ s with query := s.queryRegs sym }).complete := by
  simp [execQuery, eq_comm]

theorem checkInput_error {s : State} {e : ErrorCode} {info : Word}
    (h : s.checkInput = .error (.error e info)) : e = .rangeError ∧ info = 1 := by
  unfold State.checkInput at h
  split at h <;> simp_all

theorem checkOutput_error {s : State} {e : ErrorCode} {info : Word}
    (h : s.checkOutput = .error (.error e info)) : e = .rangeError ∧ info = 2 := by
  unfold State.checkOutput at h
  split at h <;> simp_all

theorem checkNonEmpty_error {s : State} {e : ErrorCode} {info : Word}
    (h : s.checkNonEmpty = .error (.error e info)) : e = .emptyInput ∧ info = 0 := by
  unfold State.checkNonEmpty at h
  split at h <;> simp_all

theorem checkTables_error {s : State} {mask : Word} {e : ErrorCode} {info : Word}
    (h : s.checkTables mask = .error (.error e info)) : e = .sequenceError ∧ info = s.status.missing mask := by
  unfold State.checkTables at h
  split at h <;> simp_all

theorem checkEncoded_error {s : State} {bits bytes : Nat} {e : ErrorCode} {info : Word}
    (h : s.checkEncoded bits bytes = .error (.error e info)) :
    e = .outputOverflow ∧ info = BitVec.ofNat 32 (saturate bytes) := by
  unfold State.checkEncoded at h
  split at h <;> simp_all

theorem checkDecoded_error {s : State} {n : Word} {e : ErrorCode} {info : Word}
    (h : s.checkDecoded n = .error (.error e info)) : e = .outputOverflow ∧ info = n := by
  unfold State.checkDecoded at h
  split at h <;> simp_all

theorem need_error {len o w : Nat} {e : ErrorCode} {info : Word} (h : need len o w = .error (.error e info)) :
    e = .malformedHeader := by
  unfold need at h
  split at h <;> simp_all

/-- SCAN (40_frequency_scanner.md R201). -/
theorem execScan_next {s t : State} (h : execScan s = .next t) :
    (∃ bs, InputHolds s bs ∧ s.range.inLen ≠ 0 ∧ t = (s.scanned bs).complete) ∨
      ∃ e info, (e = .rangeError ∨ e = .emptyInput) ∧ t = s.raiseError false e info := by
  rw [execScan, finish_eq_next] at h
  rcases h with ⟨u, h, rfl⟩ | ⟨e, info, h, rfl⟩
  · simp only [run_bind_eq_ok, run_pure, Except.ok.injEq] at h
    obtain ⟨_, h1, _, h2, bs, h3, rfl⟩ := h
    exact .inl ⟨bs, ⟨(ibytes_eq_ok.mp h3).1, checkInput_eq_ok.mp h1, (ibytes_eq_ok.mp h3).2⟩,
      checkNonEmpty_eq_ok.mp h2, rfl⟩
  · simp only [run_bind_eq_error, run_pure, reduceCtorEq, and_false, exists_false, or_false] at h
    refine .inr ⟨e, info, ?_, rfl⟩
    rcases h with h | ⟨_, _, h | ⟨_, _, h⟩⟩
    · exact .inl (checkInput_error h).1
    · exact .inr (checkNonEmpty_error h).1
    · exact absurd h (ibytes_ne_error _ _ _ _ _)

/-- BUILD (41_tree_builder.md R226). -/
theorem execBuild_next {s t : State} (h : execBuild s = .next t) :
    (s.status.ftValid = true ∧ t = s.built.complete) ∨
      (s.status.ftValid = false ∧ t = s.raiseError false .sequenceError (s.status.missing 0x10)) := by
  rw [execBuild, finish_eq_next] at h
  rcases h with ⟨u, h, rfl⟩ | ⟨e, info, h, rfl⟩
  · simp only [run_bind_eq_ok, run_pure, Except.ok.injEq] at h
    obtain ⟨_, h1, rfl⟩ := h
    exact .inl ⟨missing_build_eq_zero.mp (checkTables_eq_ok.mp h1), rfl⟩
  · simp only [run_bind_eq_error, run_pure, reduceCtorEq, and_false, exists_false, or_false] at h
    obtain ⟨rfl, rfl⟩ := checkTables_error h
    refine .inr ⟨?_, rfl⟩
    rw [← Bool.not_eq_true, ← missing_build_eq_zero, ← checkTables_eq_ok, h]
    simp

/-- ASSIGN (42_code_assigner.md R255). -/
theorem execAssign_next {s t : State} (h : execAssign s = .next t) :
    (s.status.ftValid = true ∧ s.status.treeValid = true ∧ t = s.assigned.complete) ∨
      (s.status.missing 0x30 ≠ 0 ∧ t = s.raiseError false .sequenceError (s.status.missing 0x30)) := by
  rw [execAssign, finish_eq_next] at h
  rcases h with ⟨u, h, rfl⟩ | ⟨e, info, h, rfl⟩
  · simp only [run_bind_eq_ok, run_pure, Except.ok.injEq] at h
    obtain ⟨_, h1, rfl⟩ := h
    obtain ⟨hf, ht⟩ := missing_assign_eq_zero.mp (checkTables_eq_ok.mp h1)
    exact .inl ⟨hf, ht, rfl⟩
  · simp only [run_bind_eq_error, run_pure, reduceCtorEq, and_false, exists_false, or_false] at h
    obtain ⟨rfl, rfl⟩ := checkTables_error h
    refine .inr ⟨?_, rfl⟩
    rw [ne_eq, ← checkTables_eq_ok, h]
    simp

/-- Pass 1 of ENCODE reads its range exactly when every byte is read and has a code. -/
theorem encodeInput_eq_ok {s : State} {i n : Nat} {bs : List Byte} :
    s.encodeInput i n = .ok bs ↔
      bs.length = n ∧ BytesAt s (s.range.inOff.toNat + i) bs ∧ ∀ b ∈ bs, CodeTable.len s.ct b ≠ 0 := by
  induction n generalizing i bs with
  | zero =>
    simp only [State.encodeInput, Except.ok.injEq]
    constructor
    · rintro rfl
      exact ⟨rfl, fun i h => absurd h (Nat.not_lt_zero i), by simp⟩
    · rintro ⟨h, -⟩
      exact (List.eq_nil_of_length_eq_zero h).symm
  | succ n ih =>
    simp only [State.encodeInput, run_bind_eq_ok]
    constructor
    · rintro ⟨b, hb, h⟩
      split at h
      · simp at h
      · rename_i hc
        simp only [run_bind_eq_ok, run_pure, Except.ok.injEq, ih] at h
        obtain ⟨bs', ⟨rfl, h, hcs⟩, rfl⟩ := h
        refine ⟨rfl, fun j hj => ?_, by simpa [hc] using hcs⟩
        cases j with
        | zero => exact hb
        | succ j =>
          have := h j (by simpa using hj)
          rwa [show s.range.inOff.toNat + (i + 1) + j = s.range.inOff.toNat + i + (j + 1) by omega] at this
    · rintro ⟨hl, h, hcs⟩
      cases bs with
      | nil => simp at hl
      | cons b bs' =>
        refine ⟨b, h 0 (by simp), ?_⟩
        rw [if_neg (hcs b (by simp))]
        refine run_bind_eq_ok.mpr ⟨bs', ih.mpr ⟨by simpa using hl, fun j hj => ?_, fun c hc => hcs c (by simp [hc])⟩, rfl⟩
        have := h (j + 1) (by simpa using hj)
        rwa [show s.range.inOff.toNat + i + (j + 1) = s.range.inOff.toNat + (i + 1) + j by omega] at this

/-- The only error of pass 1 is UNKNOWN_SYMBOL. -/
theorem encodeInput_error {s : State} {i n : Nat} {e : ErrorCode} {info : Word}
    (h : s.encodeInput i n = .error (.error e info)) : e = .unknownSymbol := by
  induction n generalizing i with
  | zero => simp [State.encodeInput] at h
  | succ n ih =>
    simp only [State.encodeInput, run_bind_eq_error] at h
    rcases h with h | ⟨b, _, h⟩
    · exact absurd h (ib_ne_error _ _ _ _)
    · split at h
      · simp_all
      · simp only [run_bind_eq_error, run_pure, reduceCtorEq, and_false, exists_false, or_false] at h
        exact ih h

/-- ENCODE (43_encoder_bit_packer.md R284). -/
theorem execEncode_next {s t : State} (h : execEncode s = .next t) :
    (∃ bs, s.status.missing 0x70 = 0 ∧ InputHolds s bs ∧ OutputFits s ∧ s.range.inLen ≠ 0 ∧
        (∀ b ∈ bs, CodeTable.len s.ct b ≠ 0) ∧ (stream s.ct bs).length ≤ word32Max ∧
        ceil8 (stream s.ct bs).length ≤ s.range.outCap.toNat ∧ t = (s.encoded bs).complete) ∨
      ∃ e info, (e = .sequenceError ∨ e = .rangeError ∨ e = .emptyInput ∨ e = .unknownSymbol ∨ e = .outputOverflow) ∧
        t = s.raiseError true e info := by
  rw [execEncode, finish_eq_next] at h
  rcases h with ⟨u, h, rfl⟩ | ⟨e, info, h, rfl⟩
  · simp only [run_bind_eq_ok, run_pure, Except.ok.injEq] at h
    obtain ⟨_, h1, _, h2, _, h3, _, h4, bs, h5, _, h6, rfl⟩ := h
    obtain ⟨hl, hb, hc⟩ := encodeInput_eq_ok.mp h5
    obtain ⟨hv, hw⟩ := checkEncoded_eq_ok.mp h6
    exact .inl ⟨bs, checkTables_eq_ok.mp h1, ⟨hl, checkInput_eq_ok.mp h2, hb⟩, checkOutput_eq_ok.mp h3,
      checkNonEmpty_eq_ok.mp h4, hc, hv, hw, rfl⟩
  · simp only [run_bind_eq_error, run_pure, reduceCtorEq, and_false, exists_false, or_false] at h
    refine .inr ⟨e, info, ?_, rfl⟩
    rcases h with h | ⟨_, _, h | ⟨_, _, h | ⟨_, _, h | ⟨_, _, h | ⟨_, _, h⟩⟩⟩⟩⟩
    · exact .inl (checkTables_error h).1
    · exact .inr (.inl (checkInput_error h).1)
    · exact .inr (.inl (checkOutput_error h).1)
    · exact .inr (.inr (.inl (checkNonEmpty_error h).1))
    · exact .inr (.inr (.inr (.inl (encodeInput_error h))))
    · exact .inr (.inr (.inr (.inr (checkEncoded_error h).1)))

theorem le32_ne_error (s : State) (o : Nat) (e : ErrorCode) (info : Word) : s.le32 o ≠ .error (.error e info) := by
  simp only [State.le32, ne_eq, run_bind_eq_error, run_pure, reduceCtorEq, and_false, exists_false, or_false, not_or,
    not_exists, not_and]
  exact ⟨ib_ne_error _ _ _ _, fun _ _ => ⟨ib_ne_error _ _ _ _, fun _ _ => ⟨ib_ne_error _ _ _ _, fun _ _ =>
    ib_ne_error _ _ _ _⟩⟩⟩

/-- The only error of the entry loop is MALFORMED_HEADER. -/
theorem parseEntries_error {s : State} {off len m r : Nat} {ft : FreqTable} {e : ErrorCode} {info : Word}
    (h : s.parseEntries off len m r ft = .error (.error e info)) : e = .malformedHeader := by
  induction m generalizing r ft with
  | zero => simp [State.parseEntries] at h
  | succ m ih =>
    simp only [State.parseEntries, run_bind_eq_error] at h
    rcases h with h | ⟨_, _, h | ⟨sym, _, h⟩⟩
    · exact need_error h
    · exact absurd h (ib_ne_error _ _ _ _)
    · split at h
      · simp_all
      · simp only [run_bind_eq_error] at h
        rcases h with h | ⟨_, _, h | ⟨f, _, h⟩⟩
        · exact need_error h
        · exact absurd h (le32_ne_error _ _ _ _)
        · split at h
          · simp_all
          · exact ih h

/-- The errors of ParseHeader (44_decoder_bit_reader.md R321). -/
theorem parseHeader_error {s : State} {off len : Nat} {e : ErrorCode} {info : Word}
    (h : s.parseHeader off len = .error (.error e info)) : e = .malformedHeader ∨ e = .truncatedStream := by
  simp only [State.parseHeader, run_bind_eq_error] at h
  rcases h with h | ⟨_, _, h | ⟨k, _, h⟩⟩
  · exact .inl (need_error h)
  · exact absurd h (le32_ne_error _ _ _ _)
  · split at h
    · simp_all
    · simp only [run_bind_eq_error] at h
      rcases h with h | ⟨_, _, h | ⟨_, _, h | ⟨n, _, h⟩⟩⟩
      · exact .inl (parseEntries_error h)
      · exact .inl (need_error h)
      · exact absurd h (le32_ne_error _ _ _ _)
      · split at h
        · simp_all
        · simp only [run_bind_eq_error] at h
          rcases h with h | ⟨_, _, h | ⟨v, _, h⟩⟩
          · exact .inl (need_error h)
          · exact absurd h (le32_ne_error _ _ _ _)
          · split at h <;> simp_all

/-- PARSE (44_decoder_bit_reader.md R325). -/
theorem execParse_next {s t : State} (h : execParse s = .next t) :
    (∃ ft hdr, s.range.inOff.toNat + s.range.inLen.toNat ≤ s.params.ibufSize.toNat ∧
        s.parseHeader s.range.inOff.toNat s.range.inLen.toNat = .ok (ft, hdr) ∧ t = (s.parsed ft hdr).complete) ∨
      ∃ e info, (e = .rangeError ∨ e = .malformedHeader ∨ e = .truncatedStream) ∧ t = s.raiseError false e info := by
  rw [execParse, finish_eq_next] at h
  rcases h with ⟨u, h, rfl⟩ | ⟨e, info, h, rfl⟩
  · simp only [run_bind_eq_ok, run_pure, Except.ok.injEq] at h
    obtain ⟨_, h1, ⟨ft, hdr⟩, h2, rfl⟩ := h
    exact .inl ⟨ft, hdr, checkInput_eq_ok.mp h1, h2, rfl⟩
  · simp only [run_bind_eq_error, run_pure, reduceCtorEq, and_false, exists_false, or_false] at h
    refine .inr ⟨e, info, ?_, rfl⟩
    rcases h with h | ⟨_, _, h⟩
    · exact .inl (checkInput_error h).1
    · exact .inr (parseHeader_error h)

/-- The errors of the tree walk (44_decoder_bit_reader.md R322). -/
theorem decodeLoop_error {s : State} {t : Tree} {pay avail p emitted m : Nat} {cur : Fin 511} {e : ErrorCode}
    {info : Word} (h : s.decodeLoop t pay avail p emitted m cur = .error (.error e info)) :
    e = .truncatedStream ∨ e = .invalidCode := by
  induction avail generalizing p emitted m cur with
  | zero => cases m <;> simp_all [State.decodeLoop]
  | succ avail ih =>
    cases m with
    | zero => simp [State.decodeLoop] at h
    | succ m =>
      simp only [State.decodeLoop, State.readBit, run_bind_eq_error, run_bind_eq_ok, run_pure, reduceCtorEq, and_false,
        exists_false, or_false] at h
      rcases h with h | ⟨bit, _, h⟩
      · exact absurd h (ib_ne_error _ _ _ _)
      · split at h
        · split at h
          · simp_all
          · simp only [run_bind_eq_error, reduceCtorEq, and_false, exists_false, or_false] at h
            exact ih h
        · split at h
          · simp only [run_bind_eq_error, reduceCtorEq, and_false, exists_false, or_false] at h
            exact ih h
          · exact ih h

/-- A decode that succeeds gives exactly the symbols due (44_decoder_bit_reader.md R324). -/
theorem decodeLoop_length {s : State} {t : Tree} {pay avail p emitted m : Nat} {cur : Fin 511} {out : List Byte}
    (h : s.decodeLoop t pay avail p emitted m cur = .ok out) : out.length = m := by
  induction avail generalizing p emitted m cur out with
  | zero =>
    cases m with
    | zero => simp_all [State.decodeLoop, eq_comm]
    | succ m => simp [State.decodeLoop] at h
  | succ avail ih =>
    cases m with
    | zero => simp_all [State.decodeLoop, eq_comm]
    | succ m =>
      simp only [State.decodeLoop, run_bind_eq_ok] at h
      obtain ⟨bit, _, h⟩ := h
      split at h
      · split at h
        · simp at h
        · simp only [run_bind_eq_ok, run_pure, Except.ok.injEq] at h
          obtain ⟨rest, h, rfl⟩ := h
          simpa using ih h
      · split at h
        · simp only [run_bind_eq_ok, run_pure, Except.ok.injEq] at h
          obtain ⟨rest, h, rfl⟩ := h
          simpa using ih h
        · exact ih h

/-- DECODE (44_decoder_bit_reader.md R326). -/
theorem execDecode_next {s t : State} (h : execDecode s = .next t) :
    (∃ out, s.status.missing 0xB0 = 0 ∧ OutputFits s ∧ s.hdr.n.toNat ≤ s.range.outCap.toNat ∧
        out.length = s.hdr.n.toNat ∧ s.decodePayload s.tree s.hdr = .ok out ∧ t = (s.decoded out).complete) ∨
      ∃ e info, (e = .sequenceError ∨ e = .rangeError ∨ e = .outputOverflow ∨ e = .truncatedStream ∨ e = .invalidCode) ∧
        t = s.raiseError true e info := by
  rw [execDecode, finish_eq_next] at h
  rcases h with ⟨u, h, rfl⟩ | ⟨e, info, h, rfl⟩
  · simp only [run_bind_eq_ok, run_pure, Except.ok.injEq] at h
    obtain ⟨_, h1, _, h2, _, h3, out, h4, rfl⟩ := h
    exact .inl ⟨out, checkTables_eq_ok.mp h1, checkOutput_eq_ok.mp h2, checkDecoded_eq_ok.mp h3,
      decodeLoop_length h4, h4, rfl⟩
  · simp only [run_bind_eq_error, run_pure, reduceCtorEq, and_false, exists_false, or_false] at h
    refine .inr ⟨e, info, ?_, rfl⟩
    rcases h with h | ⟨_, _, h | ⟨_, _, h | ⟨_, _, h⟩⟩⟩
    · exact .inl (checkTables_error h).1
    · exact .inr (.inl (checkOutput_error h).1)
    · exact .inr (.inr (.inl (checkDecoded_error h).1))
    · exact .inr (.inr (.inr (decodeLoop_error h)))

/-- COMPRESS (45_pipeline_commands.md R372). -/
theorem execCompress_next {s t : State} (h : execCompress s = .next t) :
    (∃ bs ft tree ct, InputHolds s bs ∧ OutputFits s ∧ s.range.inLen ≠ 0 ∧ s.freshCodes bs = (ft, tree, ct) ∧
        totalBits ft ct ≤ word32Max ∧ artifactSize ft (totalBits ft ct) ≤ s.range.outCap.toNat ∧
        t = (s.compressed bs).complete) ∨
      ∃ e info, (e = .rangeError ∨ e = .emptyInput ∨ e = .outputOverflow) ∧ t = s.raiseError true e info := by
  rw [execCompress, finish_eq_next] at h
  rcases h with ⟨u, h, rfl⟩ | ⟨e, info, h, rfl⟩
  · simp only [run_bind_eq_ok, run_pure, Except.ok.injEq] at h
    obtain ⟨_, h1, _, h2, _, h3, bs, h4, _, h5, rfl⟩ := h
    obtain ⟨hv, hl⟩ := checkEncoded_eq_ok.mp h5
    exact .inl ⟨bs, _, _, _, ⟨(ibytes_eq_ok.mp h4).1, checkInput_eq_ok.mp h1, (ibytes_eq_ok.mp h4).2⟩,
      checkOutput_eq_ok.mp h2, checkNonEmpty_eq_ok.mp h3, rfl, hv, hl, rfl⟩
  · simp only [run_bind_eq_error, run_pure, reduceCtorEq, and_false, exists_false, or_false] at h
    refine .inr ⟨e, info, ?_, rfl⟩
    rcases h with h | ⟨_, _, h | ⟨_, _, h | ⟨_, _, h | ⟨_, _, h⟩⟩⟩⟩
    · exact .inl (checkInput_error h).1
    · exact .inl (checkOutput_error h).1
    · exact .inr (.inl (checkNonEmpty_error h).1)
    · exact absurd h (ibytes_ne_error _ _ _ _ _)
    · exact .inr (.inr (checkEncoded_error h).1)

/-- DECOMPRESS (45_pipeline_commands.md R373). -/
theorem execDecompress_next {s t : State} (h : execDecompress s = .next t) :
    (∃ ft hdr out, s.range.inOff.toNat + s.range.inLen.toNat ≤ s.params.ibufSize.toNat ∧ OutputFits s ∧
        s.parseHeader s.range.inOff.toNat s.range.inLen.toNat = .ok (ft, hdr) ∧
        hdr.n.toNat ≤ s.range.outCap.toNat ∧ out.length = hdr.n.toNat ∧
        s.decodePayload (buildTree ft s.tree) hdr = .ok out ∧ t = (s.decompressed ft hdr out).complete) ∨
      ∃ e info, (e = .rangeError ∨ e = .malformedHeader ∨ e = .truncatedStream ∨ e = .outputOverflow ∨ e = .invalidCode) ∧
        t = s.raiseError true e info := by
  rw [execDecompress, finish_eq_next] at h
  rcases h with ⟨u, h, rfl⟩ | ⟨e, info, h, rfl⟩
  · simp only [run_bind_eq_ok, run_pure, Except.ok.injEq] at h
    obtain ⟨_, h1, _, h2, ⟨ft, hdr⟩, h3, _, h4, out, h5, rfl⟩ := h
    exact .inl ⟨ft, hdr, out, checkInput_eq_ok.mp h1, checkOutput_eq_ok.mp h2, h3, checkDecoded_eq_ok.mp h4,
      decodeLoop_length h5, h5, rfl⟩
  · simp only [run_bind_eq_error, run_pure, reduceCtorEq, and_false, exists_false, or_false] at h
    refine .inr ⟨e, info, ?_, rfl⟩
    rcases h with h | ⟨_, _, h | ⟨_, _, h | ⟨_, _, h | ⟨_, _, h⟩⟩⟩⟩
    · exact .inl (checkInput_error h).1
    · exact .inl (checkOutput_error h).1
    · rcases parseHeader_error h with h | h
      · exact .inr (.inl h)
      · exact .inr (.inr (.inl h))
    · exact .inr (.inr (.inr (.inl (checkDecoded_error h).1)))
    · rcases decodeLoop_error h with h | h
      · exact .inr (.inr (.inl h))
      · exact .inr (.inr (.inr (.inr h)))

end Sys2Proof.Machine
end

