-- ==== Sys2Proof/Laws/PerInstr.lean ====
section
/-! SUPPORT. What is said of every command as syntax, one lemma per constructor: the encoded word carries exactly
the fields of the command, and they are legal (30_encoding.md R140, R141, R143). -/

namespace Sys2Proof.Laws.EncodedFields

/-- The word a command is encoded as has the fields of the command, and is legal. -/
def Statement (i : Instr) : Prop :=
  wordOp (encodeWord i) = i.fields.op ∧ wordSym (encodeWord i) = i.fields.sym ∧
    wordRsvd (encodeWord i) = i.fields.rsvd ∧ legal (encodeWord i) = true ∧ i.wellFormed = true

theorem nop : Statement .nop := by unfold Statement; decide

theorem compress : Statement .compress := by unfold Statement; decide

theorem decompress : Statement .decompress := by unfold Statement; decide

theorem scan : Statement .scan := by unfold Statement; decide

theorem build : Statement .build := by unfold Statement; decide

theorem assign : Statement .assign := by unfold Statement; decide

theorem encode : Statement .encode := by unfold Statement; decide

theorem parse : Statement .parse := by unfold Statement; decide

theorem decode : Statement .decode := by unfold Statement; decide

theorem query (sym : Byte) : Statement (.query sym) := by
  unfold Statement
  revert sym
  decide

end Sys2Proof.Laws.EncodedFields
end

