-- ==== Sys2Proof/Laws/Step.lean ====
section
/-! SUPPORT. What one step can do: whose turn it is, and everything a HOST access can do to the block. -/

namespace Sys2Proof.Machine

open Sys2Proof.Safety

/-! ### Whose turn it is -/

theorem step_nil {s : State} (h : s.agenda = []) : step s = engineTurn s := by
  simp [step, nextStep, h]

theorem step_cons {s : State} {e : Event} {rest : List Event} (h : s.agenda = e :: rest) :
    step s = perform e { s with agenda := rest } := by
  simp [step, nextStep, h]

/-- The ENGINE with a legal command pending runs it. -/
theorem engineTurn_pending {s : State} {i : Instr} (hb : s.status.busy = true)
    (hd : decodeWord s.lastCmd = .ok i) : engineTurn s = exec i s := by
  simp [engineTurn, hb, hd]

/-- The ENGINE with an illegal word pending completes it in error. -/
theorem engineTurn_illegal {s : State} {r : Reject} (hb : s.status.busy = true)
    (hd : decodeWord s.lastCmd = .error r) : engineTurn s = .next s.illegalCommand := by
  simp [engineTurn, hb, hd]

/-- The ENGINE with nothing pending does nothing. -/
theorem engineTurn_idle {s : State} (hb : s.status.busy = false) : engineTurn s = .next s := by
  simp [engineTurn, hb]

/-- Everything the ENGINE's turn can be. -/
theorem engineTurn_cases (s : State) :
    (s.status.busy = false ∧ engineTurn s = .next s) ∨
      (s.status.busy = true ∧ ∃ i, decodeWord s.lastCmd = .ok i ∧ engineTurn s = exec i s) ∨
      (s.status.busy = true ∧ ∃ r, decodeWord s.lastCmd = .error r ∧ engineTurn s = .next s.illegalCommand) := by
  cases hb : s.status.busy with
  | false => exact .inl ⟨rfl, engineTurn_idle hb⟩
  | true =>
    cases hd : decodeWord s.lastCmd with
    | ok i => exact .inr (.inl ⟨rfl, i, rfl, engineTurn_pending hb hd⟩)
    | error r => exact .inr (.inr ⟨rfl, r, rfl, engineTurn_illegal hb hd⟩)

/-! ### HOST accesses -/

/-- A HOST read changes the record of what the HOST saw, and nothing of the block. -/
theorem hostAccess_read_next {size : AccessSize} {addr : Word} {s t : State}
    (h : hostAccess (.read size addr) s = .next t) :
    ∃ d, s.hostReadData size addr = .ok d ∧ t = { s with reads := d :: s.reads, draws := s.draws + 1 } := by
  simp only [hostAccess] at h
  split at h
  · rename_i d hd
    exact ⟨d, hd, (Host.Outcome.next.inj h).symm⟩
  · exact nomatch h

/-- Everything a write to a register can do. -/
theorem csrWrite_cases (s : State) (v : Word) (r : Csr) :
    s.csrWrite v r = s ∨ (s.status.busy = true ∧ s.csrWrite v r = s.dropWrite) ∨
      (s.status.busy = false ∧ s.csrWrite v r = s.accept v) ∨
      (s.status.busy = false ∧ ∃ rr, s.csrWrite v r = { s with range := rr }) ∨
      s.csrWrite v r = s.acknowledge v ∨ (∃ e, s.csrWrite v r = { s with irqEn := e }) ∨
      s.csrWrite v r = s.abandon.softReset := by
  cases hb : s.status.busy <;> cases r <;>
    simp only [State.csrWrite, State.writeRange, hb, if_true, if_false, Bool.false_eq_true, true_or, or_true, true_and,
      false_and, reduceCtorEq, false_or]
  case ctrl | ctrl => split <;> simp
  all_goals
    first
    | exact .inr (.inr (.inl ⟨_, rfl⟩))
    | exact .inr (.inl ⟨_, rfl⟩)
    | exact .inr (.inr (.inr (.inl ⟨_, rfl⟩)))
    | exact .inr (.inr (.inr (.inr (.inl ⟨_, rfl⟩))))

/-- Everything a write into a buffer window can do: be dropped while BUSY; idle, store its lanes, or be ignored where
R105 does not perform it. -/
theorem bufferWrite_cases (s : State) (size : AccessSize) (a off limit : Nat) (lanes : BitVec 4) (data : Word) :
    (s.status.busy = false ∧ off + accessBytes size ≤ limit ∧
        s.bufferWrite size a off limit lanes data =
          { s with mem := storeLanes a lanes data 0 (accessBytes size) s.mem }) ∨
      (s.status.busy = true ∧ s.bufferWrite size a off limit lanes data = s.dropWrite) ∨
      (s.status.busy = false ∧ bufferAccessOk size a off limit = false ∧
        s.bufferWrite size a off limit lanes data = s) := by
  unfold State.bufferWrite
  cases hb : s.status.busy
  · cases hok : bufferAccessOk size a off limit
    · exact .inr (.inr ⟨rfl, rfl, by simp⟩)
    · refine .inl ⟨rfl, ?_, by simp⟩
      simp only [bufferAccessOk, Bool.and_eq_true, decide_eq_true_eq] at hok
      exact hok.2
  · exact .inr (.inl ⟨rfl, by simp⟩)

/-- While BUSY, every write that starts in a buffer window is dropped with BUSY_WR set (20_memory.md R113; log 9). -/
theorem bufferWrite_busy (s : State) (size : AccessSize) (a off limit : Nat) (lanes : BitVec 4) (data : Word)
    (h : s.status.busy = true) : s.bufferWrite size a off limit lanes data = s.dropWrite := by
  simp [State.bufferWrite, h]

/-- The address map, read backwards (20_memory.md R102). -/
theorem region_spec (s : State) (a : Nat) :
    match s.region a with
    | .csr off => off = a ∧ a < 0x1000
    | .ibuf off => a = ibufBase + off ∧ off < s.params.ibufSize.toNat
    | .obuf off => a = obufBase + off ∧ off < s.params.obufSize.toNat
    | .unmapped => 0x1000 ≤ a := by
  unfold State.region
  by_cases h1 : a < 0x1000
  · simp [h1]
  · by_cases h2 : ibufBase ≤ a ∧ a < ibufBase + s.params.ibufSize.toNat
    · rw [if_neg h1, if_pos h2]
      exact ⟨by omega, by omega⟩
    · by_cases h3 : obufBase ≤ a ∧ a < obufBase + s.params.obufSize.toNat
      · rw [if_neg h1, if_neg h2, if_pos h3]
        exact ⟨by omega, by omega⟩
      · rw [if_neg h1, if_neg h2, if_neg h3]
        exact Nat.le_of_not_lt h1

/-- The CSR window (20_memory.md R102). -/
theorem region_csr {s : State} {a : Nat} (h : a < 0x1000) : s.region a = .csr a := by
  simp [State.region, h]

/-- The IBUF window (20_memory.md R102). -/
theorem region_ibuf {s : State} {a : Nat} (h : ibufBase ≤ a) (h' : a < ibufBase + s.params.ibufSize.toNat) :
    s.region a = .ibuf (a - ibufBase) := by
  have : ¬a < 0x1000 := by simp only [ibufBase] at h; omega
  simp only [State.region, if_neg this, if_pos (And.intro h h')]

/-- The OBUF window (20_memory.md R102), which IBUF never reaches. -/
theorem region_obuf {s : State} {a : Nat} (hp : ParamsOk s.params) (h : obufBase ≤ a)
    (h' : a < obufBase + s.params.obufSize.toNat) : s.region a = .obuf (a - obufBase) := by
  have hi := hp.2.1
  simp only [State.region, if_neg (show ¬a < 0x1000 by simp only [obufBase] at h; omega),
    if_neg (show ¬(ibufBase ≤ a ∧ a < ibufBase + s.params.ibufSize.toNat) by
      simp only [obufBase] at h; simp only [ibufBase]; omega),
    if_pos (And.intro h h')]

/-- An aligned word written to the CSR window with all lanes reaches the register there (20_memory.md R103). -/
theorem hostWriteEffect_csr {s : State} {a v : Word} (h : a.toNat < 0x1000) (h4 : a.toNat % 4 = 0) :
    s.hostWriteEffect .four a 0xF v = s.csrWriteAt a.toNat v := by
  simp [State.hostWriteEffect, region_csr h, csrAccessOk, h4]

/-- An aligned word read from the CSR window is the register there (20_memory.md R103). -/
theorem hostReadData_csr {s : State} {a : Word} (h : a.toNat < 0x1000) (h4 : a.toNat % 4 = 0) :
    s.hostReadData .four a = .ok (s.csrReadAt a.toNat) := by
  simp [State.hostReadData, region_csr h, csrAccessOk, h4]

/-- A reserved offset holds no register (10_state.md R55). -/
theorem ofOffset_reserved {off : Nat} (h : 0x074 ≤ off) : Csr.ofOffset off = none := by
  unfold Csr.ofOffset
  split <;> simp_all

/-- Everything a HOST write can do. -/
theorem hostWriteEffect_cases (s : State) (size : AccessSize) (addr : Word) (lanes : BitVec 4) (data : Word) :
    (∃ r, Csr.ofOffset addr.toNat = some r ∧ s.hostWriteEffect size addr lanes data = s.csrWrite data r) ∨
      (s.status.busy = false ∧
        (ibufBase ≤ addr.toNat ∧ addr.toNat + accessBytes size ≤ ibufBase + s.params.ibufSize.toNat ∨
          obufBase ≤ addr.toNat ∧ addr.toNat + accessBytes size ≤ obufBase + s.params.obufSize.toNat) ∧
        s.hostWriteEffect size addr lanes data =
          { s with mem := storeLanes addr.toNat lanes data 0 (accessBytes size) s.mem }) ∨
      (s.status.busy = true ∧ s.hostWriteEffect size addr lanes data = s.dropWrite) ∨
      s.hostWriteEffect size addr lanes data = s := by
  have hreg := region_spec s addr.toNat
  unfold State.hostWriteEffect
  dsimp only
  cases hr : s.region addr.toNat with
  | csr off =>
    rw [hr] at hreg
    obtain ⟨rfl, -⟩ := hreg
    dsimp only
    split
    · unfold State.csrWriteAt
      cases Csr.ofOffset addr.toNat with
      | some r => exact .inl ⟨r, rfl, rfl⟩
      | none => exact .inr (.inr (.inr rfl))
    · exact .inr (.inr (.inr rfl))
  | ibuf off =>
    rw [hr] at hreg
    rcases bufferWrite_cases s size addr.toNat off s.params.ibufSize.toNat lanes data with ⟨hb, hl, h⟩ | h | ⟨-, -, h⟩
    · exact .inr (.inl ⟨hb, .inl ⟨by omega, by omega⟩, h⟩)
    · exact .inr (.inr (.inl h))
    · exact .inr (.inr (.inr h))
  | obuf off =>
    rw [hr] at hreg
    rcases bufferWrite_cases s size addr.toNat off s.params.obufSize.toNat lanes data with ⟨hb, hl, h⟩ | h | ⟨-, -, h⟩
    · exact .inr (.inl ⟨hb, .inr ⟨by omega, by omega⟩, h⟩)
    · exact .inr (.inr (.inl h))
    · exact .inr (.inr (.inr h))
  | unmapped => exact .inr (.inr (.inr rfl))

end Sys2Proof.Machine
end

