-- ==== Sys2Proof/Machine/HostProgram.lean ====
section
/-! DEFINITION. The notation of HOST programs (30_encoding.md R157) and its pseudo-instructions (R158), as lists of
events. -/

namespace Sys2Proof.Machine.HostProgram

/-- `W addr, value`. -/
def w (addr value : Word) : List Event := [.access (.write .four addr 0xF value)]

/-- `R addr`. -/
def r (addr : Word) : List Event := [.access (.read .four addr)]

/-- `WB addr, b0 b1 …`. -/
def wb (addr : Word) : List Byte → List Event
  | [] => []
  | b :: bs => .access (.write .one addr 1 (b.setWidth 32)) :: wb (addr + 1) bs

/-- `RB addr, n`. -/
def rb (addr : Word) : Nat → List Event
  | 0 => []
  | n + 1 => .access (.read .one addr) :: rb (addr + 1) n

/-- `SETIN off, len`. -/
def setIn (off len : Word) : List Event := w 0x01C off ++ w 0x020 len

/-- `SETOUT off, cap`. -/
def setOut (off cap : Word) : List Event := w 0x024 off ++ w 0x028 cap

/-- `LOAD off, b0 b1 …`. -/
def load (off : Word) (bs : List Byte) : List Event := wb (0x10000000 + off) bs

/-- `WAIT`. -/
def wait : List Event := [.wait]

/-- `RUN m`. -/
def run (i : Instr) : List Event := w 0x008 (encodeWord i) ++ wait

/-- `CHECK`. -/
def check : List Event := r 0x00C ++ r 0x010 ++ r 0x014 ++ r 0x02C

end Sys2Proof.Machine.HostProgram
end

