-- ==== Sys2Proof/Tests/Slice0.lean ====
section
/-! SUPPORT. The model's own tests: ill-formed fields the check refuses, command words written out from the opcode
map, the spec's worked examples one command at a time, and for each statement with hypotheses a witness that meets them
all together. Expected values come from the examples of spec/ and from 95_test_vectors.md, named at each test. -/

namespace Sys2Proof.Tests

open Sys2Proof.Machine Sys2Proof.Safety

-- One theorem at a time: each thread reserves its whole stack, and a hundred at once exceed the memory limit.
set_option Elab.async false

/-! ### Well-formedness: one ill-formed term for each check (30_encoding.md R143) -/

theorem test_fields_refuse_unknown_opcode : CommandFields.legal ⟨0x03, 0, 0⟩ = false := by decide

theorem test_fields_refuse_reserved_bits : CommandFields.legal ⟨0x01, 0, 1⟩ = false := by decide

theorem test_fields_refuse_symbol_of_a_plain_command : CommandFields.legal ⟨0x01, 1, 0⟩ = false := by decide

theorem test_fields_refuse_reserved_bits_of_query : CommandFields.legal ⟨0x20, 0xFF, 0x8000⟩ = false := by decide

theorem test_fields_accept_query : CommandFields.legal ⟨0x20, 0xFF, 0⟩ = true := by decide

/-! ### Decoding: words written out bit by bit, RSVD, SYM, OP (30_encoding.md R140, R141) -/

theorem test_decode_nop : decodeWord (0b0000000000000000#16 ++ 0b00000000#8 ++ 0b00000000#8) = .ok .nop := by decide

theorem test_decode_compress :
    decodeWord (0b0000000000000000#16 ++ 0b00000000#8 ++ 0b00000001#8) = .ok .compress := by decide

theorem test_decode_decompress :
    decodeWord (0b0000000000000000#16 ++ 0b00000000#8 ++ 0b00000010#8) = .ok .decompress := by decide

theorem test_decode_scan : decodeWord (0b0000000000000000#16 ++ 0b00000000#8 ++ 0b00010000#8) = .ok .scan := by decide

theorem test_decode_build :
    decodeWord (0b0000000000000000#16 ++ 0b00000000#8 ++ 0b00010001#8) = .ok .build := by decide

theorem test_decode_assign :
    decodeWord (0b0000000000000000#16 ++ 0b00000000#8 ++ 0b00010010#8) = .ok .assign := by decide

theorem test_decode_encode :
    decodeWord (0b0000000000000000#16 ++ 0b00000000#8 ++ 0b00010011#8) = .ok .encode := by decide

theorem test_decode_parse :
    decodeWord (0b0000000000000000#16 ++ 0b00000000#8 ++ 0b00010100#8) = .ok .parse := by decide

theorem test_decode_decode :
    decodeWord (0b0000000000000000#16 ++ 0b00000000#8 ++ 0b00010101#8) = .ok .decode := by decide

/-- `QUERY 'a'` = 0x00006120 (30_encoding.md R157). -/
theorem test_decode_query :
    decodeWord (0b0000000000000000#16 ++ 0b01100001#8 ++ 0b00100000#8) = .ok (.query 0x61) := by decide

/-- The bytes of `QUERY 'b'`, word 0x00006220 (42_code_assigner.md R256), lowest address first (20_memory.md R107). -/
theorem test_decode_query_bytes : decode [0x20, 0x62, 0x00, 0x00, 0xAA] = .ok (.query 0x62, [0xAA]) := by decide

/-- A command word is always 32 bits (30_encoding.md R146). -/
theorem test_decode_refuses_three_bytes : decode [0x01, 0x00, 0x00] = .error .tooShort := by decide

theorem test_decode_refuses_reserved_bits : decodeWord 0x00010020 = .error .reservedBits := by decide

theorem test_decode_refuses_symbol : decodeWord 0x00000100 = .error .symNotZero := by decide

theorem test_decode_refuses_opcode : decodeWord 0x00000021 = .error .unknownOpcode := by decide

theorem test_table_word : decodeTableWord 32 0x00007A20 = some (.query 0x7A) := by decide

/-! ### The error codes (60_exceptions.md R400) -/

theorem test_error_codes :
    [ErrorCode.emptyInput, .unknownSymbol, .malformedHeader, .truncatedStream, .malformedTree, .invalidCode,
      .illegalCommand, .sequenceError, .rangeError, .outputOverflow].map ErrorCode.code =
      [1, 2, 3, 4, 5, 6, 7, 8, 9, 10] := by decide

/-! ### A small bench -/

/-- The block after reset, with buffers of 4096 bytes (95_test_vectors.md assumes at least as much). -/
def bench : State := { State.reset with params := ⟨4096, 4096, .fault⟩ }

/-- The bench, where a byte nobody has written reads as a free value. -/
def drawBench : State := { State.reset with params := ⟨4096, 4096, .draw⟩ }

/-- The bench with bytes at IBUF[0 ..], the range registers over them and an output window of `cap` bytes. -/
def loaded (bs : List Byte) (cap : Word) : State :=
  { bench with mem := Memory.cells ibufBase bs, range := ⟨0, BitVec.ofNat 32 bs.length, 0, cap⟩ }

/-- The check of one field of a next state. -/
def nextHas (o : Host.Outcome State Fault Refusal) (p : State → Bool) : Bool :=
  match o with
  | .next t => p t
  | _ => false

/-- The bytes OBUF[0 .. n−1]. -/
def outBytes (t : State) (n : Nat) : List (Option Byte) := (List.range n).map fun i => t.mem.read (obufBase + i)

/-- "abracadabra". -/
def abraBytes : List Byte := [0x61, 0x62, 0x72, 0x61, 0x63, 0x61, 0x64, 0x61, 0x62, 0x72, 0x61]

/-- The frequency table of "abracadabra" (40_frequency_scanner.md R201). -/
def abraFt : FreqTable := [⟨0x61, 5⟩, ⟨0x62, 2⟩, ⟨0x72, 2⟩, ⟨0x63, 1⟩, ⟨0x64, 1⟩]

/-- The artifact of "abracadabra" (95_test_vectors.md V-A1). -/
def abraArtifact : List Byte :=
  [0x05, 0x00, 0x00, 0x00, 0x61, 0x05, 0x00, 0x00, 0x00, 0x62, 0x02, 0x00, 0x00, 0x00, 0x72, 0x02, 0x00, 0x00, 0x00]
    ++ [0x63, 0x01, 0x00, 0x00, 0x00, 0x64, 0x01, 0x00, 0x00, 0x00, 0x0B, 0x00, 0x00, 0x00, 0x17, 0x00, 0x00, 0x00]
    ++ [0x6E, 0x8A, 0xDC]

/-- "abracadabra" in IBUF, nothing run yet. -/
def abra : State := loaded abraBytes 64

/-- The tree of "abracadabra", built for the first time after reset. -/
def abraTree : Tree := buildTree abraFt State.reset.tree

/-- The tables SCAN, BUILD and ASSIGN make of "abracadabra" are valid. -/
def abraCoded : State :=
  { abra with
    ft := abraFt
    tree := abraTree
    ct := assignCodes abraTree
    status := { abra.status with ftValid := true, treeValid := true, ctValid := true } }

/-- The artifact in IBUF, nothing run yet. -/
def art : State := loaded abraArtifact 64

/-- The artifact parsed and its tree built. -/
def artParsed : State :=
  { art with
    ft := abraFt
    hdr := ⟨11, 23, 37⟩
    tree := abraTree
    status := { art.status with ftValid := true, treeValid := true, hdrValid := true } }

/-! ### The worked examples, one command each -/

/-- 45_pipeline_commands.md R371: DONE is set. -/
theorem test_nop : nextHas (exec .nop abraCoded) (fun t => t.status.toWord == 0x72) = true := by decide +kernel

/-- 40_frequency_scanner.md R201, the example. -/
theorem test_scan : nextHas (exec .scan abra) (fun t => t.ft == abraFt && t.result.symCount == 5
    && t.result.totalSymbols == 11 && t.status.toWord == 0x12) = true := by decide +kernel

/-- 95_test_vectors.md V-D4. -/
theorem test_scan_empty : nextHas (exec .scan bench) (fun t => t.errs == ⟨1, 0⟩ && t.status.toWord == 0x04)
    = true := by decide +kernel

/-- 41_tree_builder.md R226, the example. -/
theorem test_build : nextHas (exec .build abraCoded) (fun t =>
    t.tree.root == 8 && t.tree.count == 9 && t.tree.node[5] == .internal 3 4 2 && t.tree.node[6] == .internal 1 2 4
      && t.tree.node[7] == .internal 5 6 6 && t.tree.node[8] == .internal 0 7 11 && t.status.toWord == 0x32)
    = true := by decide +kernel

/-- 95_test_vectors.md V-B7. -/
theorem test_build_without_table : nextHas (exec .build bench) (fun t => t.errs == ⟨8, 0x10⟩) = true := by
  decide +kernel

/-- 42_code_assigner.md R255, the example: a = 0, c = 100, d = 101, b = 110, r = 111. -/
theorem test_assign : nextHas (exec .assign abraCoded) (fun t =>
    [0x61, 0x63, 0x64, 0x62, 0x72, 0x7A].map (CodeTable.bits t.ct)
        == [[false], [true, false, false], [true, false, true], [true, true, false], [true, true, true], []]
      && t.result.maxLen == 3) = true := by decide +kernel

/-- 42_code_assigner.md R256, the example. -/
theorem test_query : nextHas (exec (.query 0x62) abraCoded) (fun t =>
    t.query.freq == 2 && t.query.info == 0x030101 && t.query.code[0] == 3 && t.query.code[1] == 0) = true := by
  decide +kernel

/-- 43_encoder_bit_packer.md R284, the example; 95_test_vectors.md V-E1. -/
theorem test_encode : nextHas (exec .encode abraCoded) (fun t =>
    outBytes t 4 == [some 0x6E, some 0x8A, some 0xDC, none] && t.result.validBits == 23 && t.result.outLen == 3
      && t.status.toWord == 0x72) = true := by decide +kernel

/-- 95_test_vectors.md V-E4: OUT_CAP = 2. -/
theorem test_encode_overflow :
    nextHas (exec .encode { abraCoded with range := ⟨0, 11, 0, 2⟩ })
      (fun t => t.errs == ⟨10, 3⟩ && t.status.toWord == 0x04 && t.mem.read (obufBase + 2) == none) = true := by
  decide +kernel

/-- 44_decoder_bit_reader.md R325, the example. -/
theorem test_parse : nextHas (exec .parse art) (fun t =>
    t.ft == abraFt && t.hdr == ⟨11, 23, 37⟩ && t.result == ⟨0, 5, 11, 23, 0, 37⟩ && t.status.toWord == 0x92)
    = true := by decide +kernel

/-- 95_test_vectors.md V-F3r: entry 1's frequency is missing. -/
theorem test_parse_short : nextHas (exec .parse { art with range := ⟨0, 10, 0, 64⟩ })
    (fun t => t.errs == ⟨3, 10⟩) = true := by decide +kernel

/-- 44_decoder_bit_reader.md R326, the example. -/
theorem test_decode_command : nextHas (exec .decode artParsed) (fun t =>
    outBytes t 11 == abraBytes.map some && t.result.outLen == 11 && t.status.toWord == 0xB2) = true := by
  decide +kernel

/-- 95_test_vectors.md V-F3a: with 22 valid bits ten symbols come out. -/
theorem test_decode_truncated : nextHas (exec .decode { artParsed with hdr := ⟨11, 22, 37⟩ })
    (fun t => t.errs == ⟨4, 10⟩ && t.status.toWord == 0x04) = true := by decide +kernel

/-- 95_test_vectors.md V-A1. -/
theorem test_compress : nextHas (exec .compress abra) (fun t =>
    outBytes t 41 == abraArtifact.map some ++ [none] && t.result == ⟨40, 5, 11, 23, 3, 0⟩ && t.status.toWord == 0x72)
    = true := by decide +kernel

/-- 70_reset_and_hazards.md R453: with OUT_CAP = 0 COMPRESS overflows; 40 bytes are required (V-A1). -/
theorem test_compress_overflow : nextHas (exec .compress { abra with range := ⟨0, 11, 0, 0⟩ })
    (fun t => t.errs == ⟨10, 40⟩) = true := by decide +kernel

/-- 95_test_vectors.md V-F1. -/
theorem test_decompress : nextHas (exec .decompress art) (fun t =>
    outBytes t 11 == abraBytes.map some && t.result == ⟨11, 5, 11, 23, 0, 37⟩ && t.status.toWord == 0xB2) = true := by
  decide +kernel

/-- 95_test_vectors.md V-F3m: a duplicate 'a' in entry 1. -/
theorem test_decompress_duplicate :
    nextHas (exec .decompress (loaded (abraArtifact.set 9 0x61) 64)) (fun t => t.errs == ⟨3, 9⟩) = true := by
  decide +kernel

/-- 43_encoder_bit_packer.md R280; 95_test_vectors.md V-E13. -/
theorem test_pack : pack [true, false, true, true, false] = [0xB0] := by decide

/-! ### The HOST's side -/

/-- 10_state.md R31: ID reads 0x48554631; a two-byte access of it reads 0 (20_memory.md R103). -/
theorem test_read_id : nextHas (hostAccess (.read .four 0x000) bench) (fun t => t.reads == [0x48554631]) = true ∧
    nextHas (hostAccess (.read .two 0x000) bench) (fun t => t.reads == [0]) = true := by decide +kernel

/-- 20_memory.md R107: a four-byte read of IBUF is little-endian. -/
theorem test_read_word : nextHas (hostAccess (.read .four 0x10000000) abra) (fun t => t.reads == [0x61726261])
    = true := by decide +kernel

/-- 20_memory.md R105: only the enabled lanes change; the last word of IBUF is in range. -/
theorem test_write_lanes : nextHas (hostAccess (.write .four 0x10000FFC 0b0101 0xDDCCBBAA) bench)
    (fun t => t.mem == [(0x10000FFC, 0xAA), (0x10000FFE, 0xCC)]) = true := by decide +kernel

/-- 20_memory.md R113: any write to IBUF while BUSY, here a misaligned one, sets BUSY_WR; idle it sets nothing (R105). -/
theorem test_misaligned_write_while_busy :
    nextHas (hostAccess (.write .two 0x10000001 0x3 0xFFFF) (bench.accept 1))
        (fun t => t.status.toWord == 0x09 && t.mem == []) = true ∧
      nextHas (hostAccess (.write .two 0x10000001 0x3 0xFFFF) bench)
        (fun t => t.status.toWord == 0 && t.mem == []) = true := by decide +kernel

/-- 45_pipeline_commands.md R370: a second command while BUSY only sets BUSY_WR. -/
theorem test_command_while_busy :
    nextHas (hostAccess (.write .four 0x008 0xF 2) (bench.accept 1))
      (fun t => t.lastCmd == 1 && t.status.toWord == 0x09) = true := by decide +kernel

/-- 60_exceptions.md R408, R428: the word 0x00000003 ends in ILLEGAL_COMMAND; writing 4 to STATUS clears ERR. -/
theorem test_illegal_word : nextHas (step (bench.accept 3)) (fun t => t.errs == ⟨7, 3⟩ && t.status.toWord == 0x04
    && (t.acknowledge 4).status.toWord == 0) = true := by decide +kernel

/-- 30_encoding.md R158: `SETIN 0, 11` writes IN_OFF and IN_LEN. -/
theorem test_setin : nextHas (step { bench with agenda := (HostProgram.setIn 0 11).drop 1 })
    (fun t => t.range.inLen == 11) = true := by decide +kernel

/-- 70_reset_and_hazards.md R451: a soft reset keeps IBUF. -/
theorem test_soft_reset : nextHas (hostAccess (.write .four 0x004 0xF 1) abraCoded)
    (fun t => t.mem == abraCoded.mem && t.range == ⟨0, 0, 0, 0⟩ && t.status.toWord == 0) = true := by decide +kernel

/-- The word of every row of the opcode map runs as the first command after reset (log 6). -/
theorem test_fetch_word : [0, 1, 2, 0x10, 0x11, 0x12, 0x13, 0x14, 0x15, 0x20].all (fun w =>
    nextHas (step (State.reset.withFetchWord 32 w)) (fun t => t.lastCmd == BitVec.ofNat 32 w && !t.status.busy))
    = true := by decide +kernel

/-! ### Witnesses: for each statement with hypotheses, a state and operands that meet them all together -/

theorem witness_DecodeInvertsEncode : decode (encode (.query 0xFF) ++ [0x01]) = .ok (.query 0xFF, [0x01]) := by decide

theorem witness_StepRunsPendingCommand :
    (bench.accept 0x11).status.busy = true ∧ decodeWord (bench.accept 0x11).lastCmd = .ok .build ∧
      (bench.accept 0x11).agenda = [] ∧
      ({ bench.accept 0x11 with agenda := [.engine, .wait] } : State).agenda = .engine :: [.wait] := by
  refine ⟨by decide, by decide, rfl, rfl⟩

/-- The hypotheses of `IllegalWordChangesNothingElse`. -/
def illegalPending (s : State) (rest : List Event) : Prop :=
  s.status.busy = true ∧ (s.agenda = [] ∧ rest = [] ∨ s.agenda = .engine :: rest) ∧
    (s.lastCmd.toNat % 256 ∉ [0x00, 0x01, 0x02, 0x10, 0x11, 0x12, 0x13, 0x14, 0x15, 0x20] ∨
      s.lastCmd.toNat / 65536 ≠ 0 ∨ (s.lastCmd.toNat % 256 ≠ 0x20 ∧ s.lastCmd.toNat / 256 % 256 ≠ 0))

/-- Each of the three ways to be illegal, and both places of the ENGINE's turn. -/
theorem witness_IllegalWordChangesNothingElse :
    illegalPending (bench.accept 0x00000003) [] ∧
      illegalPending { bench.accept 0x00010001 with agenda := [.engine, .wait] } [.wait] ∧
      illegalPending (bench.accept 0x00000100) [] :=
  ⟨⟨rfl, .inl ⟨rfl, rfl⟩, .inl (show (0x00000003#32).toNat % 256 ∉ _ by decide)⟩,
    ⟨rfl, .inr rfl, .inr (.inl (show (0x00010001#32).toNat / 65536 ≠ 0 by decide))⟩,
    ⟨rfl, .inl ⟨rfl, rfl⟩, .inr (.inr (show (0x00000100#32).toNat % 256 ≠ 0x20 ∧ (0x00000100#32).toNat / 256 % 256 ≠ 0 by
      decide))⟩⟩

theorem witness_StepPerformsTheNextEvent :
    ({ bench with agenda := [.access (.read .four 0), .wait] } : State).agenda
        = .access (.read .four 0) :: [.wait] ∧
      ({ bench with agenda := [.wait] } : State).agenda = .wait :: [] ∧
      bench.status.busy = false ∧ ({ bench with agenda := [.engine] } : State).agenda = .engine :: [] ∧
      bench.agenda = [] := ⟨rfl, rfl, rfl, rfl, rfl⟩

/-- The parameters of the benches keep their bounds. -/
theorem bench_params : ParamsOk bench.params ∧ ParamsOk drawBench.params := by unfold ParamsOk; decide

/-- A block of which no table is valid, with a pending command, meets the invariant. -/
theorem pending_inv (p : Params) (ft : FreqTable) (tree : Tree) (ct : CodeTable) (hdr : Header) (w : Word)
    (hp : ParamsOk p) :
    Inv (State.accept w { State.reset with params := p, ft := ft, tree := tree, ct := ct, hdr := hdr }) := by
  refine ⟨hp, ?_, ?_, ?_, ?_, ?_⟩
  · unfold StatusOk
    exact ⟨fun h => Bool.noConfusion h.1, fun _ => ⟨rfl, rfl⟩, fun h => Bool.noConfusion h,
      fun h => Bool.noConfusion h, fun h => Bool.noConfusion h⟩
  · unfold ErrorsOk
    exact ⟨Nat.zero_le _, (by decide : (0 : Byte) ≠ 5), fun _ => rfl, fun h => Bool.noConfusion h⟩
  · unfold MemoryOk
    exact ⟨⟨List.Pairwise.nil, fun _ h => absurd h List.not_mem_nil⟩, fun _ h => absurd h List.not_mem_nil⟩
  · unfold TablesOk
    exact ⟨fun h => Bool.noConfusion h, fun h => Bool.noConfusion h, fun h => Bool.noConfusion h,
      fun h => Bool.noConfusion h⟩
  · unfold ResultsOk
    exact ⟨fun _ => rfl, fun _ => rfl, fun _ => rfl⟩

theorem witness_PendingCommandCompletes :
    Inv (drawBench.accept 0x01) ∧ (drawBench.accept 0x01).params.unwrittenRead = .draw ∧
      (drawBench.accept 0x01).status.busy = true ∧ (drawBench.accept 0x01).agenda = [] ∧
      ∃ rest, ({ drawBench.accept 0x01 with agenda := [.engine, .wait] } : State).agenda = .engine :: rest :=
  ⟨pending_inv _ _ _ _ _ _ bench_params.2, rfl, rfl, rfl, _, rfl⟩

theorem abra_input : InputHolds abra abraBytes ∧ abraBytes ≠ [] ∧ OutputFits abra := by
  unfold InputHolds BytesAt OutputFits; decide +kernel

theorem witness_QueryReadsTheTables :
    true = (abraCoded.status.ftValid && decide (FreqTable.cnt abraCoded.ft 0x62 ≠ 0)) ∧
      [true, true, false] = (if true && abraCoded.status.ctValid then CodeTable.bits abraCoded.ct 0x62 else []) := by
  decide +kernel

theorem witness_ScanCountsInFirstOccurrenceOrder : InputHolds abra abraBytes ∧ abraBytes ≠ [] := by
  unfold InputHolds BytesAt; decide +kernel

theorem witness_BuildMakesTheTree : abraCoded.status.ftValid = true := rfl

theorem witness_AssignMakesTheCodes :
    abraCoded.status.ftValid = true ∧ abraCoded.status.treeValid = true ∧
      (∀ sym, CodeTable.len (assignCodes abraCoded.tree) sym ≤ 3) ∧
      ∃ sym, CodeTable.len (assignCodes abraCoded.tree) sym = 3 := by
  refine ⟨rfl, rfl, by decide +kernel, 0x62, by decide +kernel⟩

theorem witness_EncodePacksTheStream :
    abraCoded.status.ftValid = true ∧ abraCoded.status.treeValid = true ∧ abraCoded.status.ctValid = true ∧
      InputHolds abraCoded abraBytes ∧ abraBytes ≠ [] ∧ OutputFits abraCoded ∧
      (∀ b ∈ abraBytes, CodeTable.bits abraCoded.ct b ≠ []) ∧
      (abraBytes.flatMap (CodeTable.bits abraCoded.ct)).length ≤ 0xFFFFFFFF ∧
      ((abraBytes.flatMap (CodeTable.bits abraCoded.ct)).length + 7) / 8 ≤ abraCoded.range.outCap.toNat := by
  unfold InputHolds BytesAt OutputFits; decide +kernel

/-- The table of "abracadabra", a table of one symbol, and the table of all 256 symbols are well formed. -/
theorem witness_tables : FreqTableOk abraFt ∧ FreqTableOk [⟨0x61, 0xFFFFFFFF⟩] ∧
    FreqTableOk ((List.range 256).map fun i => ⟨BitVec.ofNat 8 i, 1⟩) := by
  unfold FreqTableOk; decide +kernel

theorem witness_ParseLatchesTheHeader :
    FreqTableOk abraFt ∧ (11 : Word) ≠ 0 ∧
      art.range.inOff.toNat + art.range.inLen.toNat ≤ art.params.ibufSize.toNat ∧
      BytesAt art art.range.inOff.toNat (headerBytes abraFt (11 : Word).toNat (23 : Word).toNat) ∧
      12 + 5 * abraFt.length + ((23 : Word).toNat + 7) / 8 ≤ art.range.inLen.toNat := by
  unfold FreqTableOk BytesAt; decide +kernel

/-- The symbols of "abracadabra" with their codes (42_code_assigner.md R255). -/
def abraCodes : List (Byte × List Bool) :=
  abraBytes.map fun b => (b, CodeTable.bits abraCoded.ct b)

theorem abraTree_root : abraTree.node[abraTree.root] = .internal 0 7 11 := by decide +kernel

theorem abraCodes_are_paths : ∀ p ∈ abraCodes, leafAt abraTree.node abraTree.root p.2 = some p.1 := by
  decide +kernel

theorem abraCodes_are_codes : ∀ p ∈ abraCodes, IsCode abraTree p.1 p.2 := by
  intro p hp
  unfold IsCode
  rw [abraTree_root]
  exact abraCodes_are_paths p hp

theorem witness_DecodeWritesTheCodedSymbols :
    artParsed.status.ftValid = true ∧ artParsed.status.treeValid = true ∧ artParsed.status.hdrValid = true ∧
      OutputFits artParsed ∧ artParsed.hdr.n.toNat ≤ artParsed.range.outCap.toNat ∧
      abraCodes.length = artParsed.hdr.n.toNat ∧ (∀ p ∈ abraCodes, IsCode artParsed.tree p.1 p.2) ∧
      (abraCodes.flatMap Prod.snd).length ≤ artParsed.hdr.vbc.toNat ∧
      BitsAt artParsed artParsed.hdr.pay.toNat (abraCodes.flatMap Prod.snd) := by
  have ht : artParsed.tree = abraTree := rfl
  rw [ht]
  refine ⟨rfl, rfl, rfl, ?_, ?_, ?_, @abraCodes_are_codes, ?_, ?_⟩
  · unfold OutputFits; decide +kernel
  · decide +kernel
  · decide +kernel
  · decide +kernel
  · unfold BitsAt; decide +kernel

theorem witness_CompressWritesTheArtifact :
    InputHolds abra abraBytes ∧ abraBytes ≠ [] ∧ OutputFits abra ∧ abraFt = scanBytes abraBytes ∧
      23 = (abraFt.map fun e => e.cnt.toNat * CodeTable.len (assignCodes (buildTree abraFt abra.tree)) e.sym).sum ∧
      23 ≤ 0xFFFFFFFF ∧ 12 + 5 * abraFt.length + (23 + 7) / 8 ≤ abra.range.outCap.toNat := by
  unfold InputHolds BytesAt OutputFits; decide +kernel

theorem witness_DecompressRestoresTheSymbols :
    OutputFits art ∧ (11 : Word).toNat ≤ art.range.outCap.toNat ∧ abraCodes.length = (11 : Word).toNat ∧
      (∀ p ∈ abraCodes, IsCode (buildTree abraFt art.tree) p.1 p.2) ∧
      (abraCodes.flatMap Prod.snd).length ≤ (23 : Word).toNat ∧
      BitsAt art (art.range.inOff.toNat + 12 + 5 * abraFt.length) (abraCodes.flatMap Prod.snd) := by
  have ht : buildTree abraFt art.tree = abraTree := rfl
  rw [ht]
  refine ⟨?_, by decide +kernel, by decide +kernel, @abraCodes_are_codes, by decide +kernel, ?_⟩
  · unfold OutputFits; decide +kernel
  · unfold BitsAt; decide +kernel

/-- The bounds on nodes and symbols in the statements about trees, at their ends, for the table of k = 5 symbols. -/
theorem witness_BuiltTreeHasItsShape :
    abraFt.length = 5 ∧ (4 : Fin 511).val < abraFt.length ∧ abraFt.length ≤ (5 : Fin 511).val ∧
      (8 : Fin 511).val < 2 * abraFt.length - 1 ∧ (7 : Fin 511).val < 2 * abraFt.length - 2 := by decide

theorem witness_BuildMergesTheTwoLeast :
    FreqTableOk abraFt ∧ abraFt.length ≤ (5 : Fin 511).val ∧
      (8 : Fin 511).val < 2 * abraFt.length - 1 := ⟨witness_tables.1, by decide +kernel, by decide +kernel⟩

theorem witness_BuiltWeightsAreExact :
    FreqTableOk abraFt ∧ (8 : Fin 511).val < 2 * abraFt.length - 1 ∧
      (buildTree abraFt State.reset.tree).node[(8 : Fin 511)] = .internal 0 7 11 :=
  ⟨witness_tables.1, by decide, by decide +kernel⟩

theorem witness_CodesAreThePathsToTheLeaves :
    FreqTableOk abraFt ∧ (⟨0x64, 1⟩ : FtEntry) ∈ abraFt ∧ (0x7A : Byte) ∉ abraFt.map (fun e => e.sym) :=
  ⟨witness_tables.1, by decide, by decide⟩

theorem witness_CodesArePrefixFree :
    FreqTableOk abraFt ∧ (0x61 : Byte) ∈ abraFt.map (fun e => e.sym) ∧ (0x62 : Byte) ∈ abraFt.map (fun e => e.sym) ∧
      (0x61 : Byte) ≠ 0x62 := ⟨witness_tables.1, by decide, by decide, by decide⟩

theorem witness_CodeLengthsAreBoundedAndFull :
    FreqTableOk [⟨0x61, 0xFFFFFFFF⟩] ∧ FreqTableOk abraFt ∧ 2 ≤ abraFt.length :=
  ⟨witness_tables.2.1, witness_tables.1, by decide⟩

theorem witness_PackedBitsStandMsbFirst :
    7 < 8 * (([true, false, true, true, false].length + 7) / 8) ∧
      (41 < 42 ∨ 42 + ([true, false, true, true, false].length + 7) / 8 ≤ 41) ∧
      (43 < 42 ∨ 42 + ([true, false, true, true, false].length + 7) / 8 ≤ 43) := by decide

theorem witness_HeaderBytesFollowTheLayout : abraFt.length ≤ 256 ∧ 4 < abraFt.length := by decide

/-- A pre-check error; an execution error with a window inside OBUF, and, of a command without a window, with one that
leaves it. -/
theorem witness_ErrorCompletionsHaveTheirEffects :
    ErrorCode.rangeError ∈ [ErrorCode.illegalCommand, .sequenceError, .rangeError] ∧
      ErrorCode.outputOverflow ∉ [ErrorCode.illegalCommand, .sequenceError, .rangeError] ∧
      (true = true → OutputFits abra) ∧ (false = true → OutputFits { bench with range := ⟨0, 0, 4096, 1⟩ }) ∧
      ¬ OutputFits { bench with range := ⟨0, 0, 4096, 1⟩ } :=
  ⟨by decide, by decide, fun _ => by unfold OutputFits; decide +kernel, fun h => Bool.noConfusion h,
    by unfold OutputFits; decide +kernel⟩

/-- Each command that needs tables, on a block without any; and a command that needs none completes. -/
theorem witness_MissingTablesAreReported :
    0x10 &&& ~~~(bench.status.toWord &&& 0xF0) ≠ 0 ∧ 0x30 &&& ~~~(bench.status.toWord &&& 0xF0) ≠ 0 ∧
      0x70 &&& ~~~(bench.status.toWord &&& 0xF0) ≠ 0 ∧ 0xB0 &&& ~~~(bench.status.toWord &&& 0xF0) ≠ 0 ∧
      Instr.nop ∉ [Instr.build, Instr.assign, Instr.encode, Instr.decode] ∧ ∃ t, exec .nop bench = .next t :=
  ⟨by decide +kernel, by decide +kernel, by decide +kernel, by decide +kernel, by decide, _, rfl⟩

/-- One byte too many in each range. -/
theorem witness_RangesOutsideTheBuffersAreReported :
    abraCoded.status.missing 0x70 = 0 ∧ artParsed.status.missing 0xB0 = 0 ∧
      abraCoded.params.ibufSize.toNat < (4096 : Word).toNat + (1 : Word).toNat ∧
      abraCoded.params.obufSize.toNat < (4090 : Word).toNat + (7 : Word).toNat ∧
      abraCoded.range.inOff.toNat + abraCoded.range.inLen.toNat ≤ abraCoded.params.ibufSize.toNat := by
  decide +kernel

/-- An empty range at the very end of IBUF. -/
theorem witness_EmptyInputIsReported :
    ({ abraCoded with range := ⟨4096, 0, 0, 64⟩ } : State).status.missing 0x70 = 0 ∧
      (4096 : Word).toNat ≤ abraCoded.params.ibufSize.toNat ∧
      OutputFits { abraCoded with range := ⟨4096, 0, 0, 64⟩ } := by
  unfold OutputFits; decide +kernel

/-- 95_test_vectors.md V-E6: "abz". -/
theorem witness_FirstUnknownSymbolIsReported :
    let s : State := { abraCoded with mem := Memory.cells ibufBase [0x61, 0x62, 0x7A], range := ⟨0, 3, 0, 16⟩ }
    s.status.missing 0x70 = 0 ∧ s.range.inOff.toNat + s.range.inLen.toNat ≤ s.params.ibufSize.toNat ∧ OutputFits s ∧
      [0x61#8, 0x62].length < s.range.inLen.toNat ∧ BytesAt s s.range.inOff.toNat ([0x61, 0x62] ++ [0x7A]) ∧
      (∀ x ∈ [0x61#8, 0x62], CodeTable.bits s.ct x ≠ []) ∧ CodeTable.bits s.ct 0x7A = [] := by
  unfold OutputFits BytesAt; decide +kernel

/-- Each of the four commands with one byte of room too few (95_test_vectors.md V-E4, V-F3i). -/
theorem witness_OutputOverflowIsReported :
    (InputHolds { abra with range := ⟨0, 11, 0, 39⟩ } abraBytes ∧ OutputFits { abra with range := ⟨0, 11, 0, 39⟩ } ∧
        (39 : Word).toNat < 12 + 5 * abraFt.length + (23 + 7) / 8) ∧
      (InputHolds { abraCoded with range := ⟨0, 11, 0, 2⟩ } abraBytes ∧
        OutputFits { abraCoded with range := ⟨0, 11, 0, 2⟩ } ∧
        (2 : Word).toNat < ((abraBytes.flatMap (CodeTable.bits abraCoded.ct)).length + 7) / 8) ∧
      (OutputFits { artParsed with range := ⟨0, 40, 0, 10⟩ } ∧ (10 : Word).toNat < artParsed.hdr.n.toNat) ∧
      OutputFits { art with range := ⟨0, 40, 0, 10⟩ } ∧
      BytesAt { art with range := ⟨0, 40, 0, 10⟩ } 0 (headerBytes abraFt 11 23) := by
  unfold InputHolds OutputFits BytesAt; decide +kernel

/-- Each bad field, at the first length that lacks it or with the first bad value (95_test_vectors.md V-F3). -/
theorem witness_BadHeaderFieldsAreReported :
    OutputFits art ∧ (3 : Word).toNat < 4 ∧
      (BytesAt (loaded [0, 0, 0, 0] 64) 0 (leBytes 0) ∧ BytesAt (loaded [1, 1, 0, 0] 64) 0 (leBytes 257)) ∧
      BytesAt art 0
        (leBytes (BitVec.ofNat 32 abraFt.length) ++ abraFt.flatMap (fun e => e.sym :: leBytes e.cnt)) ∧
      (29 ≤ (32 : Word).toNat ∧ (32 : Word).toNat < 29 + 4) ∧
      BytesAt (loaded (abraArtifact.set 29 0) 64) 29 (leBytes 0) ∧ BytesAt art 29 (leBytes 11) ∧
      (29 + 4 ≤ (36 : Word).toNat ∧ (36 : Word).toNat < 29 + 8) ∧ BytesAt art 33 (leBytes 23) ∧
      (29 + 8 ≤ (39 : Word).toNat ∧ (39 : Word).toNat < 29 + 8 + ((23 : Word).toNat + 7) / 8) := by
  unfold OutputFits BytesAt; decide +kernel

/-- Each bad entry after the first entry of the artifact (95_test_vectors.md V-F3m, V-F3n, V-F3r). -/
theorem witness_BadHeaderEntriesAreReported :
    [(⟨0x61, 5⟩ : FtEntry)].length < (5 : Word).toNat ∧ ([(⟨0x61, 5⟩ : FtEntry)].map (fun e => e.sym)).Nodup ∧
      BytesAt art 0 (leBytes 5 ++ [(⟨0x61, 5⟩ : FtEntry)].flatMap (fun e => e.sym :: leBytes e.cnt)) ∧
      (9 ≤ (9 : Word).toNat ∧ (9 : Word).toNat < 9 + 1) ∧
      (loaded (abraArtifact.set 9 0x61) 64).ib 9 = .ok 0x61 ∧ art.ib 9 = .ok 0x62 ∧ (13 : Word).toNat < 9 + 5 ∧
      BytesAt (loaded (abraArtifact.set 10 0) 64) 10 [0, 0, 0, 0] := by
  unfold BytesAt; decide +kernel

/-- The artifact of "abracadabra" with `vbc` instead of 23 valid bits. -/
def shortArt (vbc : Byte) : State := loaded (abraArtifact.set 33 vbc) 64

/-- The walk of two 1 bits in the tree of "abracadabra" ends in the middle of a code. -/
theorem abraTree_no_leaf : NoLeafOn abraTree [] ∧ NoLeafOn abraTree [true, true] := by
  refine ⟨.inl rfl, .inr fun q' h => ?_⟩
  have key : ∀ q' ∈ [true, true].inits, leafAt abraTree.node abraTree.root q' = none := by decide +kernel
  exact key q' ((List.mem_inits _ _).2 h)

/-- The valid bits end after ten codes, and, one bit earlier, in the middle of the tenth, for both commands. -/
theorem witness_TruncatedPayloadIsReported :
    artParsed.status.missing 0xB0 = 0 ∧ OutputFits artParsed ∧ (abraCodes.take 10).length < artParsed.hdr.n.toNat ∧
      ((abraCodes.take 10).flatMap Prod.snd ++ []).length = (22 : Word).toNat ∧
      BitsAt artParsed 37 ((abraCodes.take 10).flatMap Prod.snd ++ []) ∧
      ((abraCodes.take 9).flatMap Prod.snd ++ [true, true]).length = (21 : Word).toNat ∧
      BitsAt artParsed 37 ((abraCodes.take 9).flatMap Prod.snd ++ [true, true]) ∧
      ArtifactAt (shortArt 22) abraFt 11 22 ∧ OutputFits (shortArt 22) ∧
      (11 : Word).toNat ≤ (shortArt 22).range.outCap.toNat ∧
      BitsAt (shortArt 22) (0 + 12 + 5 * abraFt.length) ((abraCodes.take 10).flatMap Prod.snd ++ []) ∧
      ArtifactAt (shortArt 21) abraFt 11 21 ∧
      BitsAt (shortArt 21) (0 + 12 + 5 * abraFt.length) ((abraCodes.take 9).flatMap Prod.snd ++ [true, true]) := by
  unfold ArtifactAt FreqTableOk OutputFits BytesAt BitsAt; decide +kernel

/-- The bytes of an artifact of four times "a" whose third payload bit is 1. -/
def badLeafArtifact : List Byte :=
  [0x01, 0x00, 0x00, 0x00, 0x61, 0x04, 0x00, 0x00, 0x00, 0x04, 0x00, 0x00, 0x00, 0x04, 0x00, 0x00, 0x00, 0x20]

/-- Four symbols of a single-leaf tree are due; the third bit is 1; for both commands. -/
theorem witness_OneBitUnderASingleLeafIsReported :
    let s : State := { artParsed with mem := [(ibufBase + 17, 0x20)], hdr := ⟨4, 4, 17⟩,
                                      tree := buildTree [⟨0x61, 4⟩] State.reset.tree }
    s.status.missing 0xB0 = 0 ∧ OutputFits s ∧ s.hdr.n.toNat ≤ s.range.outCap.toNat ∧
      s.tree.node[s.tree.root] = .leaf 0x61 4 ∧ 2 < s.hdr.n.toNat ∧ 2 < s.hdr.vbc.toNat ∧
      BitsAt s s.hdr.pay.toNat (List.replicate 2 false ++ [true]) ∧
      ArtifactAt (loaded badLeafArtifact 64) [⟨0x61, 4⟩] 4 4 ∧ OutputFits (loaded badLeafArtifact 64) ∧
      (4 : Word).toNat ≤ (loaded badLeafArtifact 64).range.outCap.toNat ∧
      BitsAt (loaded badLeafArtifact 64) (0 + 12 + 5 * 1) (List.replicate 2 false ++ [true]) := by
  unfold ArtifactAt FreqTableOk OutputFits BytesAt BitsAt; decide +kernel

/-- A command that succeeds, one that errs, and one for each of the two faults. -/
theorem witness_CommandsSucceedOrReportOneError :
    (∃ t, exec .nop bench = .next t) ∧ (∃ t, exec .build bench = .next t) ∧
      exec .scan { bench with range := ⟨4095, 1, 0, 0⟩ } = .fault (.unwrittenRead 0x10000FFF) ∧
      exec .decode { artParsed with hdr := ⟨1, 1, 4096⟩ } = .fault (.outsideIbuf 4096) :=
  ⟨⟨_, rfl⟩, ⟨_, rfl⟩, rfl, rfl⟩

theorem witness_CommandsLeaveTheRestAlone : ∃ t, exec .nop abraCoded = .next t ∧ Instr.nop ∉ [Instr.assign, .compress] :=
  ⟨_, rfl, by decide⟩

theorem witness_CommandsWriteOnlyTheOutputWindow :
    nextHas (exec .encode abraCoded) (fun t => t.errs.code == 0 &&
        decide (obufBase + abraCoded.range.outOff.toNat + t.result.outLen.toNat ≤ obufBase + 3)) = true ∧
      (obufBase + 64 < obufBase + abraCoded.range.outOff.toNat ∨
        obufBase + abraCoded.range.outOff.toNat + abraCoded.range.outCap.toNat ≤ obufBase + 64) := by
  decide +kernel

/-- A success, a pre-check error and an execution error. -/
theorem witness_ValidBitsFollowTheTable :
    nextHas (exec .nop bench) (fun t => t.errs.code == 0) = true ∧
      nextHas (exec .build bench) (fun t => [7, 8, 9].contains t.errs.code) = true ∧
      nextHas (exec .scan bench) (fun t => t.errs.code == 1) = true := by
  decide +kernel

/-- The first byte of IBUF and the last of OBUF. -/
theorem witness_WritesWhileBusyAreDropped :
    (bench.accept 1).status.busy = true ∧
      (ibufBase ≤ (0x10000000#32).toNat ∧
        (0x10000000#32).toNat < ibufBase + (bench.accept 1).params.ibufSize.toNat) ∧
      (obufBase ≤ (0x20000FFF#32).toNat ∧
        (0x20000FFF#32).toNat < obufBase + (bench.accept 1).params.obufSize.toNat) :=
  ⟨rfl, by decide +kernel, by decide +kernel⟩

theorem witness_RegisterWritesFollowTheAccessCodes :
    bench.status.busy = false ∧ (0x070#32).toNat < 0x074 ∧ (0x070#32).toNat % 4 = 0 ∧
      (0x070#32).toNat ∉ [0x004, 0x008, 0x00C, 0x018, 0x01C, 0x020, 0x024, 0x028] ∧
      (0x000#32).toNat ∉ [0x004, 0x008, 0x00C, 0x018, 0x01C, 0x020, 0x024, 0x028] :=
  ⟨rfl, by decide +kernel, by decide +kernel, by decide +kernel, by decide +kernel⟩

/-- Both ends of the CSR window and of its reserved offsets, and the addresses beside the windows. -/
theorem witness_IgnoredAccessesReadZero :
    ((0xFFE#32).toNat < 0x1000 ∧ (0xFFE#32).toNat % 4 ≠ 0) ∧ (0x7 : BitVec 4) ≠ 0xF ∧
      (∀ a ∈ [(0x074#32).toNat, (0xFFC#32).toNat], 0x074 ≤ a ∧ a < 0x1000) ∧
      ∀ a ∈ [(0x1000#32).toNat, (0x0FFFFFFF#32).toNat, (0x10001000#32).toNat, (0x20001000#32).toNat,
          (0xFFFFFFFF#32).toNat],
        0x1000 ≤ a ∧ ¬(ibufBase ≤ a ∧ a < ibufBase + bench.params.ibufSize.toNat) ∧
          ¬(obufBase ≤ a ∧ a < obufBase + bench.params.obufSize.toNat) := by
  decide +kernel

/-- A misaligned access, and an aligned one that overruns buffers of 4095 bytes. -/
theorem witness_MisalignedBufferAccessesAreIgnored :
    ParamsOk ⟨4095, 4095, .fault⟩ ∧ (0x10000001#32).toNat % accessBytes .two ≠ 0 ∧
      (ibufBase ≤ (0x10000FFE#32).toNat ∧ (0x10000FFE#32).toNat < ibufBase + (4095 : Word).toNat ∧
        ibufBase + (4095 : Word).toNat < (0x10000FFE#32).toNat + accessBytes .two) ∧
      (obufBase ≤ (0x20000FFC#32).toNat ∧ (0x20000FFC#32).toNat < obufBase + (4095 : Word).toNat ∧
        obufBase + (4095 : Word).toNat < (0x20000FFC#32).toNat + accessBytes .four) := by
  unfold ParamsOk; decide +kernel

theorem witness_HostReadsChangeNothing : ∃ t, hostAccess (.read .four 0x000) bench = .next t := ⟨_, rfl⟩

/-- A word of IBUF with all lanes and a byte of OBUF with its one lane. -/
theorem witness_BufferWritesReadBack :
    ParamsOk bench.params ∧ bench.status.busy = false ∧ (0x10000FFC#32).toNat % accessBytes .four = 0 ∧
      (ibufBase ≤ (0x10000FFC#32).toNat ∧
        (0x10000FFC#32).toNat + accessBytes .four ≤ ibufBase + bench.params.ibufSize.toNat) ∧
      (∀ i, i < accessBytes .four → (0xF : BitVec 4).getLsbD i = true) ∧
      (obufBase ≤ (0x20000FFF#32).toNat ∧
        (0x20000FFF#32).toNat + accessBytes .one ≤ obufBase + bench.params.obufSize.toNat) ∧
      ∀ i, i < accessBytes .one → (0x1 : BitVec 4).getLsbD i = true :=
  ⟨bench_params.1, rfl, by decide +kernel, by decide +kernel, by decide +kernel, by decide +kernel, by decide +kernel⟩

theorem witness_BufferReadsReturnTheBytes :
    ParamsOk abra.params ∧ (0x10000000#32).toNat % accessBytes .four = 0 ∧
      (ibufBase ≤ (0x10000000#32).toNat ∧
        (0x10000000#32).toNat + accessBytes .four ≤ ibufBase + abra.params.ibufSize.toNat) ∧
      (abraBytes.take 4).length = accessBytes .four ∧
      (∀ i (h : i < (abraBytes.take 4).length), abra.readByte ((0x10000000#32).toNat + i) = .ok (abraBytes.take 4)[i]) ∧
      (bench.accept 1).status.busy = true ∧ obufBase ≤ (0x20000000#32).toNat :=
  ⟨bench_params.1, by decide +kernel, by decide +kernel, by decide +kernel, by decide +kernel, rfl, by decide +kernel⟩

/-- The first byte behind "abracadabra" is unwritten, in both readings of UNWRITTEN_READ. -/
theorem witness_UnwrittenBytesFaultOrAreFree :
    ParamsOk abra.params ∧ (ibufBase ≤ (0x1000000B#32).toNat ∧
        (0x1000000B#32).toNat < ibufBase + abra.params.ibufSize.toNat) ∧
      abra.mem.read (0x1000000B#32).toNat = none ∧ abra.params.unwrittenRead = .fault ∧
      drawBench.params.unwrittenRead = .draw ∧ drawBench.mem.read 0x20000000 = none ∧
      drawBench.status.busy = false ∧
      (let s : State := { abra with range := ⟨0, 12, 0, 0⟩ }
       s.mem.read (ibufBase + 11) = none ∧ s.range.inOff.toNat ≤ 11 ∧
        11 < s.range.inOff.toNat + s.range.inLen.toNat ∧
        s.range.inOff.toNat + s.range.inLen.toNat ≤ s.params.ibufSize.toNat ∧
        ∀ x, x < 11 → s.mem.read (ibufBase + x) ≠ none) :=
  ⟨bench_params.1, by decide +kernel, by decide +kernel, rfl, rfl, rfl, rfl, by decide +kernel⟩

theorem witness_IrqIsALevelOfDoneAndErr :
    let s : State := { bench with status := { bench.status with done := true }, irqEn := ⟨true, false⟩ }
    StatusOk s.status ∧ s.irq = true := by
  unfold StatusOk; decide +kernel

theorem witness_PowerOnResetsTheBlock :
    ({ abraCoded with agenda := [.powerOn, .wait] } : State).agenda = .powerOn :: [.wait] := rfl

theorem witness_SoftResetKeepsTheBuffers :
    (0xFFFFFFFE#32).getLsbD 0 = false ∧ (0x1#32).getLsbD 0 = true ∧ abraCoded.status.busy = false := by
  decide +kernel

/-- COMPRESS and SCAN abandoned; the last byte of the window. -/
theorem witness_SoftResetAbortsTheCommand :
    (0x1#32).getLsbD 0 = true ∧ (abra.accept 0x01).status.busy = true ∧
      (abra.accept 0x01).lastCmd ∈ [0x01#32, 0x02, 0x13, 0x15] ∧ 63 < (abra.accept 0x01).range.outCap.toNat ∧
      (abra.accept 0x01).range.outOff.toNat + 63 < (abra.accept 0x01).params.obufSize.toNat ∧
      (abra.accept 0x10).lastCmd ∉ [0x01#32, 0x02, 0x13, 0x15] := by
  decide +kernel

theorem witness_EveryStepKeepsTheInvariant :
    Inv (bench.accept 0x00) ∧ ∃ t, step (bench.accept 0x00) = .next t :=
  ⟨pending_inv _ _ _ _ _ _ bench_params.1, _, rfl⟩

/-- Two states that differ in every table, none of them valid. -/
theorem witness_InvalidTablesAreUnobservable :
    Inv (bench.accept 0x01) ∧
      Inv (State.accept 0x01 { State.reset with
        params := bench.params, ft := abraFt, tree := buildTree abraFt State.reset.tree, ct := CodeTable.empty,
        hdr := ⟨1, 2, 3⟩ }) ∧
      SameVisible (bench.accept 0x01) (State.accept 0x01 { State.reset with
        params := bench.params, ft := abraFt, tree := buildTree abraFt State.reset.tree, ct := CodeTable.empty,
        hdr := ⟨1, 2, 3⟩ }) :=
  ⟨pending_inv _ _ _ _ _ _ bench_params.1, pending_inv _ _ _ _ _ _ bench_params.1,
    ⟨rfl, rfl, rfl, rfl, rfl, rfl, rfl, rfl, rfl, rfl, rfl, rfl, fun h => Bool.noConfusion h,
      fun h => Bool.noConfusion h, fun h => Bool.noConfusion h⟩⟩

theorem nextHas_iff {o : Host.Outcome State Fault Refusal} {p : State → Bool} (h : nextHas o p = true) :
    ∃ t, o = .next t ∧ p t = true := by
  cases o with
  | next t => exact ⟨t, rfl, h⟩
  | fault f => exact Bool.noConfusion h
  | refused f => exact Bool.noConfusion h

theorem witness_DecompressInvertsCompress :
    ∃ t, InputHolds abra abraBytes ∧ exec .compress abra = .next t ∧ t.errs.code = 0 ∧
      art.range.inLen = t.result.outLen ∧
      art.range.inOff.toNat + art.range.inLen.toNat ≤ art.params.ibufSize.toNat ∧
      (∀ i, i < t.result.outLen.toNat →
        art.mem.read (ibufBase + art.range.inOff.toNat + i) = t.mem.read (obufBase + abra.range.outOff.toNat + i)) ∧
      OutputFits art ∧ abraBytes.length ≤ art.range.outCap.toNat := by
  obtain ⟨t, ht, hp⟩ := nextHas_iff (o := exec .compress abra)
    (p := fun t => t.errs.code == 0 && t.result.outLen == 40 && (List.range 40).all fun i =>
      art.mem.read (ibufBase + i) == t.mem.read (obufBase + i)) (by decide +kernel)
  simp only [Bool.and_eq_true, beq_iff_eq, List.all_eq_true, List.mem_range] at hp
  obtain ⟨⟨h0, hl⟩, hm⟩ := hp
  refine ⟨t, abra_input.1, ht, h0, by rw [hl]; rfl, by decide +kernel, ?_, ?_, by decide +kernel⟩
  · intro i hi
    rw [hl] at hi
    exact hm i hi
  · unfold OutputFits; decide +kernel

end Sys2Proof.Tests
end

section
/-! ### The frequency table a scan makes -/

namespace Sys2Proof.Proofs

open Sys2Proof.Machine Sys2Proof.Safety

/-- The sum of `f` over the symbols of a table, each taken as often as it is counted: the number of bytes for
`f = 1`, the bits of their codes for `f` the code length (42_code_assigner.md R253). -/
def weightedCount (f : Byte → Nat) (ft : FreqTable) : Nat := (ft.map (fun e => e.cnt.toNat * f e.sym)).sum

@[simp] theorem weightedCount_nil (f : Byte → Nat) : weightedCount f [] = 0 := rfl

@[simp] theorem weightedCount_cons (f : Byte → Nat) (e : FtEntry) (ft : FreqTable) :
    weightedCount f (e :: ft) = e.cnt.toNat * f e.sym + weightedCount f ft := by
  simp [weightedCount]

theorem totalBits_eq_weightedCount (ft : FreqTable) (ct : CodeTable) :
    totalBits ft ct = weightedCount (CodeTable.len ct) ft := rfl

/-- A count below the greatest 32-bit value does not wrap when a byte is added. -/
theorem toNat_add_one {c : Word} (h : c.toNat + 1 < 2 ^ 32) : (c + 1).toNat = c.toNat + 1 := by
  rw [BitVec.toNat_add]
  exact Nat.mod_eq_of_lt h

/-- One byte of the scan adds one occurrence of its symbol, as long as no count wraps. -/
theorem weightedCount_bump (f : Byte → Nat) (ft : FreqTable) (b : Byte)
    (h : weightedCount (fun _ => 1) ft + 1 < 2 ^ 32) :
    weightedCount f (FreqTable.bump ft b) = weightedCount f ft + f b := by
  induction ft with
  | nil => simp [FreqTable.bump]
  | cons e es ih =>
    simp only [weightedCount_cons, Nat.mul_one] at h
    rw [FreqTable.bump]
    split
    · next hs =>
      subst hs
      rw [weightedCount_cons, weightedCount_cons, toNat_add_one (by omega), Nat.add_one_mul, Nat.add_right_comm]
    · rw [weightedCount_cons, weightedCount_cons, ih (by omega), Nat.add_assoc]

/-- The symbols after one byte of the scan: a new symbol comes last (40_frequency_scanner.md R200). -/
theorem map_sym_bump (ft : FreqTable) (b : Byte) :
    (FreqTable.bump ft b).map FtEntry.sym =
      if b ∈ ft.map FtEntry.sym then ft.map FtEntry.sym else ft.map FtEntry.sym ++ [b] := by
  induction ft with
  | nil => rfl
  | cons e es ih =>
    by_cases hs : e.sym = b
    · simp [FreqTable.bump, hs]
    · simp only [FreqTable.bump, if_neg hs, List.map_cons, ih, List.mem_cons, Ne.symm hs, false_or]
      split <;> rfl

/-- What the scan keeps of its table: distinct symbols, each counted at least once. -/
def DistinctCounted (ft : FreqTable) : Prop := (ft.map FtEntry.sym).Nodup ∧ ∀ e ∈ ft, e.cnt ≠ 0

theorem distinctCounted_nil : DistinctCounted [] := ⟨List.nodup_nil, by simp⟩

/-- A new symbol with a positive count keeps a table of distinct counted symbols. -/
theorem DistinctCounted.append {ft : FreqTable} {e : FtEntry} (h : DistinctCounted ft)
    (hs : e.sym ∉ ft.map FtEntry.sym) (hc : e.cnt ≠ 0) : DistinctCounted (ft ++ [e]) := by
  obtain ⟨hn, hp⟩ := h
  refine ⟨?_, fun x hx => ?_⟩
  · simpa using hn.concat hs
  · rcases List.mem_append.mp hx with hx | hx
    · exact hp x hx
    · rw [List.mem_singleton.mp hx]
      exact hc

theorem cnt_ne_zero_bump {ft : FreqTable} {b : Byte} (hp : ∀ e ∈ ft, e.cnt ≠ 0)
    (h : weightedCount (fun _ => 1) ft + 1 < 2 ^ 32) : ∀ e ∈ FreqTable.bump ft b, e.cnt ≠ 0 := by
  induction ft with
  | nil => simp [FreqTable.bump]
  | cons e es ih =>
    simp only [weightedCount_cons, Nat.mul_one] at h
    obtain ⟨he, hes⟩ := List.forall_mem_cons.mp hp
    rw [FreqTable.bump]
    split
    · refine List.forall_mem_cons.mpr ⟨fun h0 => ?_, hes⟩
      have := congrArg BitVec.toNat h0
      rw [toNat_add_one (by omega)] at this
      simp at this
    · exact List.forall_mem_cons.mpr ⟨he, ih hes (by omega)⟩

theorem DistinctCounted.bump {ft : FreqTable} (hd : DistinctCounted ft) (b : Byte)
    (h : weightedCount (fun _ => 1) ft + 1 < 2 ^ 32) : DistinctCounted (FreqTable.bump ft b) := by
  refine ⟨?_, cnt_ne_zero_bump hd.2 h⟩
  rw [map_sym_bump]
  split
  · exact hd.1
  · next hb => simpa using hd.1.concat hb

/-- The scan of fewer than 2^32 bytes from a table on counts every byte and keeps distinct counted symbols. -/
theorem foldl_bump (f : Byte → Nat) (bs : List Byte) {ft : FreqTable} (hd : DistinctCounted ft)
    (h : weightedCount (fun _ => 1) ft + bs.length < 2 ^ 32) :
    DistinctCounted (bs.foldl FreqTable.bump ft) ∧
      weightedCount f (bs.foldl FreqTable.bump ft) = weightedCount f ft + (bs.map f).sum := by
  induction bs generalizing ft with
  | nil => exact ⟨hd, by simp⟩
  | cons b bs ih =>
    rw [List.length_cons] at h
    obtain ⟨hd', hw⟩ := ih (hd.bump b (by omega)) (by rw [weightedCount_bump _ _ _ (by omega)]; omega)
    refine ⟨hd', ?_⟩
    rw [List.foldl_cons, hw, weightedCount_bump _ _ _ (by omega), List.map_cons, List.sum_cons, Nat.add_assoc]

theorem distinctCounted_scanBytes {bs : List Byte} (h : bs.length < 2 ^ 32) : DistinctCounted (scanBytes bs) :=
  (foldl_bump (fun _ => 0) bs distinctCounted_nil (by simpa using h)).1

theorem weightedCount_scanBytes (f : Byte → Nat) {bs : List Byte} (h : bs.length < 2 ^ 32) :
    weightedCount f (scanBytes bs) = (bs.map f).sum := by
  simpa [scanBytes] using (foldl_bump f bs distinctCounted_nil (by simpa using h)).2

/-- At most 256 byte values are distinct. -/
theorem nodup_byte_length_le {bs : List Byte} (h : bs.Nodup) : bs.length ≤ 256 := by
  have hn : (bs.map BitVec.toFin).Nodup := h.map fun _ _ => BitVec.eq_of_toFin_eq
  simpa using hn.length_le_card

theorem DistinctCounted.freqTableOk {ft : FreqTable} (h : DistinctCounted ft) (hne : ft ≠ []) : FreqTableOk ft :=
  ⟨List.length_pos_iff.mpr hne, by simpa using nodup_byte_length_le h.1, h⟩

/-- A scan of at least one byte makes a well-formed table (40_frequency_scanner.md R200, 10_state.md R60). -/
theorem freqTableOk_scanBytes {bs : List Byte} (hne : bs ≠ []) (h : bs.length < 2 ^ 32) :
    FreqTableOk (scanBytes bs) := by
  refine (distinctCounted_scanBytes h).freqTableOk fun h0 => hne ?_
  have hw := weightedCount_scanBytes (fun _ => 1) h
  rw [h0] at hw
  exact List.eq_nil_of_length_eq_zero (by simpa using hw.symm)

/-- `Bits(FT, CT)` is the length of the stream the codes make of the scanned bytes (42_code_assigner.md R253). -/
theorem totalBits_scanBytes (ct : CodeTable) {bs : List Byte} (h : bs.length < 2 ^ 32) :
    totalBits (scanBytes bs) ct = (stream ct bs).length := by
  rw [totalBits_eq_weightedCount, weightedCount_scanBytes _ h, stream, List.length_flatMap]
  rfl

end Sys2Proof.Proofs
end

section
/-! ### What ParseHeader and the encoders produce -/

namespace Sys2Proof.Proofs

open Sys2Proof.Machine Sys2Proof.Safety

/-- The entry loop adds its `m` entries, all distinct and counted (44_decoder_bit_reader.md R321). -/
theorem parseEntries_eq_ok {s : State} {off len m r : Nat} {ft ft' : FreqTable} (hd : DistinctCounted ft)
    (h : s.parseEntries off len m r ft = .ok ft') : ft'.length = ft.length + m ∧ DistinctCounted ft' := by
  induction m generalizing r ft with
  | zero =>
    obtain rfl := Except.ok.inj h
    exact ⟨rfl, hd⟩
  | succ m ih =>
    simp only [State.parseEntries, run_bind_eq_ok] at h
    obtain ⟨_, _, sym, _, h⟩ := h
    split at h
    · simp at h
    · next hsym =>
      simp only [run_bind_eq_ok] at h
      obtain ⟨_, _, f, _, h⟩ := h
      split at h
      · simp at h
      · next hf =>
        have hnew : sym ∉ ft.map FtEntry.sym := by simpa using hsym
        obtain ⟨hl, hd'⟩ := ih (hd.append (e := ⟨sym, f⟩) hnew hf) h
        rw [List.length_append, List.length_singleton] at hl
        exact ⟨by omega, hd'⟩

/-- What ParseHeader accepts (44_decoder_bit_reader.md R321): a well-formed table, a positive symbol count, and
payload bytes for every valid bit after the header. -/
theorem parseHeader_eq_ok {s : State} {off len : Nat} {ft : FreqTable} {hdr : Header}
    (h : s.parseHeader off len = .ok (ft, hdr)) :
    FreqTableOk ft ∧ hdr.n ≠ 0 ∧ hdr.pay = BitVec.ofNat 32 (off + 12 + 5 * ft.length) ∧
      12 + 5 * ft.length + ceil8 hdr.vbc.toNat ≤ len := by
  simp only [State.parseHeader, run_bind_eq_ok] at h
  obtain ⟨_, _, kw, _, h⟩ := h
  split at h
  · simp at h
  · next hk =>
    simp only [run_bind_eq_ok] at h
    obtain ⟨entries, he, _, _, n, _, h⟩ := h
    obtain ⟨hl, hd⟩ := parseEntries_eq_ok distinctCounted_nil he
    rw [List.length_nil, Nat.zero_add] at hl
    split at h
    · simp at h
    · next hn =>
      simp only [run_bind_eq_ok] at h
      obtain ⟨_, hneed, v, _, h⟩ := h
      have hlen := need_eq_ok.mp hneed
      split at h
      · simp at h
      · next hv =>
        simp only [run_pure, Except.ok.injEq, Prod.mk.injEq] at h
        obtain ⟨rfl, rfl⟩ := h
        refine ⟨hd.freqTableOk ?_, hn, by rw [hl], ?_⟩
        · rintro rfl
          exact hk (.inl (by simpa using hl.symm))
        · dsimp only
          omega

/-- The latched payload of a parsed header lies inside IBUF (44_decoder_bit_reader.md R326). -/
theorem parseHeader_payload_le {s : State} {ft : FreqTable} {hdr : Header}
    (hin : s.range.inOff.toNat + s.range.inLen.toNat ≤ s.params.ibufSize.toNat)
    (h : s.parseHeader s.range.inOff.toNat s.range.inLen.toNat = .ok (ft, hdr)) :
    hdr.pay.toNat + ceil8 hdr.vbc.toNat ≤ s.params.ibufSize.toNat := by
  obtain ⟨_, _, hpay, hlen⟩ := parseHeader_eq_ok h
  have hle : hdr.pay.toNat ≤ s.range.inOff.toNat + 12 + 5 * ft.length := by
    rw [hpay, BitVec.toNat_ofNat]
    exact Nat.mod_le _ _
  omega

@[simp] theorem packBytes_length (n : Nat) (bs : List Bool) : (packBytes n bs).length = n := by
  induction n generalizing bs with
  | zero => rfl
  | succ n ih => rw [packBytes, List.length_cons, ih]

@[simp] theorem pack_length (bs : List Bool) : (pack bs).length = ceil8 bs.length := packBytes_length _ _

/-- A header has 12 bytes and 5 more for each table entry (30_encoding.md R150). -/
@[simp] theorem headerBytes_length (ft : FreqTable) (n vbc : Nat) :
    (headerBytes ft n vbc).length = 12 + 5 * ft.length := by
  simp only [headerBytes, List.length_append, List.length_flatMap, List.map_const', List.sum_replicate, leBytes,
    List.length_cons, List.length_nil, smul_eq_mul]
  omega

/-- The artifact of the scanned bytes has L bytes (45_pipeline_commands.md R372). -/
theorem artifact_scanBytes_length (ct : CodeTable) {bs : List Byte} (h : bs.length < 2 ^ 32) :
    (artifact (scanBytes bs) ct bs).length = artifactSize (scanBytes bs) (totalBits (scanBytes bs) ct) := by
  rw [artifact, List.length_append, headerBytes_length, pack_length, artifactSize, totalBits_scanBytes ct h]

end Sys2Proof.Proofs
end

section
/-! ### The buffers stay inside their windows -/

namespace Sys2Proof.Proofs

open Sys2Proof.Machine Sys2Proof.Safety

/-- The block address lies in IBUF or OBUF (20_memory.md R102). -/
def InWindows (p : Params) (a : Nat) : Prop :=
  (ibufBase ≤ a ∧ a < ibufBase + p.ibufSize.toNat) ∨ (obufBase ≤ a ∧ a < obufBase + p.obufSize.toNat)

/-- `MemoryOk`, of a memory beside its parameters. -/
def WindowedMemory (p : Params) (m : Memory) : Prop := m.wf ∧ ∀ c ∈ m, InWindows p c.1

theorem memoryOk_iff {s : State} : MemoryOk s ↔ WindowedMemory s.params s.mem := Iff.rfl

theorem windowedMemory_nil (p : Params) : WindowedMemory p [] := ⟨reset_mem_wf, by simp⟩

theorem WindowedMemory.store {p : Params} {m : Memory} {a : Nat} {bs : List Byte} (h : WindowedMemory p m)
    (hw : ∀ x, a ≤ x → x < a + bs.length → InWindows p x) : WindowedMemory p (m.store a bs) := by
  obtain ⟨hwf, hin⟩ := h
  refine ⟨store_wf hwf a bs, fun c hc => ?_⟩
  rcases mem_store.mp hc with hc | ⟨hc, -⟩
  · exact hw c.1 (cells_bounds hc).1 (cells_bounds hc).2
  · exact hin c hc

theorem WindowedMemory.storeLanes {p : Params} {m : Memory} {a i n : Nat} {lanes : BitVec 4} {data : Word}
    (h : WindowedMemory p m) (hw : ∀ x, a + i ≤ x → x < a + i + n → InWindows p x) :
    WindowedMemory p (storeLanes a lanes data i n m) := by
  induction n generalizing i m with
  | zero => exact h
  | succ n ih =>
    refine ih ?_ fun x hx hx' => hw x (by omega) (by omega)
    split
    · refine h.store fun x hx hx' => hw x hx ?_
      rw [List.length_singleton] at hx'
      omega
    · exact h

/-- A command's output inside OBUF. -/
theorem windowedMemory_output {s : State} {bs : List Byte} (h : MemoryOk s) (hfit : OutputFits s)
    (hcap : bs.length ≤ s.range.outCap.toNat) : WindowedMemory s.params (s.output bs) := by
  refine (memoryOk_iff.mp h).store fun x hx hx' => .inr ?_
  unfold OutputFits at hfit
  unfold State.windowBase at hx hx'
  omega

/-- The window that is drawn lies inside OBUF, whatever OUT_OFF and OUT_CAP are (log 11). -/
theorem memoryOk_drawWindow {s : State} (h : MemoryOk s) : MemoryOk s.drawWindow := by
  refine (memoryOk_iff.mp h).store fun x hx hx' => .inr ?_
  rw [drawnBytes_length] at hx'
  unfold State.windowSize at hx'
  unfold State.windowBase at hx hx'
  omega

theorem memoryOk_abandon {s : State} (h : MemoryOk s) : MemoryOk s.abandon := by
  unfold State.abandon
  split
  · split
    · split
      · exact memoryOk_drawWindow h
      · exact h
    · exact h
  · exact h

end Sys2Proof.Proofs
end

section
/-! ### What a command that completes has done -/

namespace Sys2Proof.Proofs

open Sys2Proof.Machine Sys2Proof.Safety

/-- `Updates s i u`: command `i` succeeds from `s`, its checks passed, and `u` is `s` with its own updates, before the
success completion of 60_exceptions.md R424. -/
inductive Updates (s : State) : Instr → State → Prop
  | nop : Updates s .nop s
  | query (sym : Byte) : Updates s (.query sym) { s with query := s.queryRegs sym }
  | scan {bs : List Byte} : InputHolds s bs → s.range.inLen ≠ 0 → Updates s .scan (s.scanned bs)
  | build : s.status.ftValid = true → Updates s .build s.built
  | assign : s.status.ftValid = true → s.status.treeValid = true → Updates s .assign s.assigned
  | encode {bs : List Byte} : s.status.ftValid = true → OutputFits s →
      ceil8 (stream s.ct bs).length ≤ s.range.outCap.toNat → Updates s .encode (s.encoded bs)
  | parse {ft : FreqTable} {hdr : Header} : s.range.inOff.toNat + s.range.inLen.toNat ≤ s.params.ibufSize.toNat →
      s.parseHeader s.range.inOff.toNat s.range.inLen.toNat = .ok (ft, hdr) → Updates s .parse (s.parsed ft hdr)
  | decode {out : List Byte} : s.status.ftValid = true → OutputFits s → out.length ≤ s.range.outCap.toNat →
      Updates s .decode (s.decoded out)
  | compress {bs : List Byte} {ft : FreqTable} {tree : Tree} {ct : CodeTable} : InputHolds s bs →
      s.range.inLen ≠ 0 → OutputFits s → s.freshCodes bs = (ft, tree, ct) →
      artifactSize ft (totalBits ft ct) ≤ s.range.outCap.toNat → Updates s .compress (s.compressed bs)
  | decompress {ft : FreqTable} {hdr : Header} {out : List Byte} :
      s.range.inOff.toNat + s.range.inLen.toNat ≤ s.params.ibufSize.toNat →
      s.parseHeader s.range.inOff.toNat s.range.inLen.toNat = .ok (ft, hdr) → OutputFits s →
      out.length ≤ s.range.outCap.toNat → Updates s .decompress (s.decompressed ft hdr out)

/-- Every command that completes succeeds with its updates or raises one error, which is never MALFORMED_TREE
(60_exceptions.md R400, R406). -/
theorem exec_next {i : Instr} {s t : State} (h : exec i s = .next t) :
    (∃ u, Updates s i u ∧ t = u.complete) ∨
      ∃ e info, e ≠ .malformedTree ∧ t = s.raiseError (writesObuf i) e info := by
  cases i with
  | nop => exact .inl ⟨_, .nop, execNop_next.mp h⟩
  | query sym => exact .inl ⟨_, .query sym, execQuery_next.mp h⟩
  | scan =>
    rcases execScan_next h with ⟨bs, hin, hne, ht⟩ | ⟨e, info, he, ht⟩
    · exact .inl ⟨_, .scan hin hne, ht⟩
    · exact .inr ⟨e, info, by rintro rfl; simp at he, ht⟩
  | build =>
    rcases execBuild_next h with ⟨hf, ht⟩ | ⟨-, ht⟩
    · exact .inl ⟨_, .build hf, ht⟩
    · exact .inr ⟨_, _, by decide, ht⟩
  | assign =>
    rcases execAssign_next h with ⟨hf, htree, ht⟩ | ⟨-, ht⟩
    · exact .inl ⟨_, .assign hf htree, ht⟩
    · exact .inr ⟨_, _, by decide, ht⟩
  | encode =>
    rcases execEncode_next h with ⟨bs, htab, -, hout, -, -, -, hcap, ht⟩ | ⟨e, info, he, ht⟩
    · exact .inl ⟨_, .encode (missing_encode_eq_zero.mp htab).1 hout hcap, ht⟩
    · exact .inr ⟨e, info, by rintro rfl; simp at he, ht⟩
  | parse =>
    rcases execParse_next h with ⟨ft, hdr, hin, hp, ht⟩ | ⟨e, info, he, ht⟩
    · exact .inl ⟨_, .parse hin hp, ht⟩
    · exact .inr ⟨e, info, by rintro rfl; simp at he, ht⟩
  | decode =>
    rcases execDecode_next h with ⟨out, htab, hout, hcap, hl, -, ht⟩ | ⟨e, info, he, ht⟩
    · exact .inl ⟨_, .decode (missing_decode_eq_zero.mp htab).1 hout (hl.trans_le hcap), ht⟩
    · exact .inr ⟨e, info, by rintro rfl; simp at he, ht⟩
  | compress =>
    rcases execCompress_next h with ⟨bs, ft, tree, ct, hin, hout, hne, hft, -, hcap, ht⟩ | ⟨e, info, he, ht⟩
    · exact .inl ⟨_, .compress hin hne hout hft hcap, ht⟩
    · exact .inr ⟨e, info, by rintro rfl; simp at he, ht⟩
  | decompress =>
    rcases execDecompress_next h with ⟨ft, hdr, out, hin, hout, hp, hcap, hl, -, ht⟩ | ⟨e, info, he, ht⟩
    · exact .inl ⟨_, .decompress hin hp hout (hl.trans_le hcap), ht⟩
    · exact .inr ⟨e, info, by rintro rfl; simp at he, ht⟩

/-- No command's own updates touch BUSY or ERR. -/
theorem Updates.flags {s u : State} {i : Instr} (h : Updates s i u) :
    u.status.busy = s.status.busy ∧ u.status.err = s.status.err := by
  cases h <;> exact ⟨rfl, rfl⟩

end Sys2Proof.Proofs
end

section
/-! ### The invariant, operation by operation -/

namespace Sys2Proof.Proofs

open Sys2Proof.Machine Sys2Proof.Safety

/-- A StatusOk register keeps its claim under new VALID bits with the implications of 10_state.md R65. -/
theorem statusOk_withValid {st : Status} {f t c d : Bool} (h : StatusOk st) (htf : t = true → f = true)
    (hct : c = true → t = true) (hdf : d = true → f = true) :
    StatusOk { st with ftValid := f, treeValid := t, ctValid := c, hdrValid := d } :=
  ⟨h.1, h.2.1, htf, hct, hdf⟩

/-- While FT is valid, MAX_LEN and PAY_OFF alone are bound (10_state.md R45–R51). -/
theorem resultsOk_of_ftValid {s : State} (hf : s.status.ftValid = true)
    (hc : s.status.ctValid = false → s.result.maxLen = 0) (hh : s.status.hdrValid = false → s.result.payOff = 0) :
    ResultsOk s :=
  ⟨fun h0 => by simp [hf] at h0, hc, hh⟩

/-- With ERR = 0 the cleared error registers agree with STATUS. -/
theorem errorsOk_of_cleared {s : State} (h0 : s.errs = ⟨0, 0⟩) (he : s.status.err = false) : ErrorsOk s := by
  simp [ErrorsOk, h0, he]

/-- An input range with IN_LEN ≠ 0 holds at least one byte, and IN_LEN bounds it below 2^32. -/
theorem inputHolds_ne_nil {s : State} {bs : List Byte} (h : InputHolds s bs) (hne : s.range.inLen ≠ 0) :
    bs ≠ [] := by
  rintro rfl
  exact hne (BitVec.eq_of_toNat_eq h.1.symm)

theorem inputHolds_length_lt {s : State} {bs : List Byte} (h : InputHolds s bs) : bs.length < 2 ^ 32 :=
  h.1.trans_lt s.range.inLen.isLt

theorem inv_scanned {s : State} {bs : List Byte} (h : Inv s) (hin : InputHolds s bs) (hne : s.range.inLen ≠ 0) :
    Inv (s.scanned bs) where
  params := h.params
  status := statusOk_withValid h.status nofun nofun nofun
  errors := h.errors
  memory := h.memory
  tables :=
    ⟨fun _ => ⟨freqTableOk_scanBytes (inputHolds_ne_nil hin hne) (inputHolds_length_lt hin), rfl⟩, nofun, nofun, nofun⟩
  results := ⟨nofun, fun _ => rfl, fun _ => rfl⟩

theorem inv_built {s : State} (h : Inv s) (hf : s.status.ftValid = true) : Inv s.built := by
  obtain ⟨hft, -, -, hhdr⟩ := h.tables
  exact {
    params := h.params
    status := statusOk_withValid h.status (fun _ => hf) nofun (fun _ => hf)
    errors := h.errors
    memory := h.memory
    tables := ⟨hft, fun _ => ⟨s.tree, rfl⟩, nofun, hhdr⟩
    results := resultsOk_of_ftValid hf (fun _ => rfl) h.results.2.2 }

theorem inv_assigned {s : State} (h : Inv s) (hf : s.status.ftValid = true) (ht : s.status.treeValid = true) :
    Inv s.assigned := by
  obtain ⟨hft, htree, -, hhdr⟩ := h.tables
  exact {
    params := h.params
    status := statusOk_withValid h.status (fun _ => hf) (fun _ => ht) (fun _ => hf)
    errors := h.errors
    memory := h.memory
    tables := ⟨hft, htree, fun _ => ⟨rfl, rfl⟩, hhdr⟩
    results := resultsOk_of_ftValid hf nofun h.results.2.2 }

theorem inv_encoded {s : State} {bs : List Byte} (h : Inv s) (hf : s.status.ftValid = true) (hout : OutputFits s)
    (hcap : ceil8 (stream s.ct bs).length ≤ s.range.outCap.toNat) : Inv (s.encoded bs) where
  params := h.params
  status := h.status
  errors := h.errors
  memory := windowedMemory_output h.memory hout (by rwa [pack_length])
  tables := h.tables
  results := resultsOk_of_ftValid hf h.results.2.1 h.results.2.2

theorem inv_decoded {s : State} {out : List Byte} (h : Inv s) (hf : s.status.ftValid = true) (hout : OutputFits s)
    (hcap : out.length ≤ s.range.outCap.toNat) : Inv (s.decoded out) where
  params := h.params
  status := h.status
  errors := h.errors
  memory := windowedMemory_output h.memory hout hcap
  tables := h.tables
  results := resultsOk_of_ftValid hf h.results.2.1 h.results.2.2

theorem inv_parsed {s : State} {ft : FreqTable} {hdr : Header} (h : Inv s)
    (hin : s.range.inOff.toNat + s.range.inLen.toNat ≤ s.params.ibufSize.toNat)
    (hp : s.parseHeader s.range.inOff.toNat s.range.inLen.toNat = .ok (ft, hdr)) : Inv (s.parsed ft hdr) := by
  obtain ⟨hft, hn, -, -⟩ := parseHeader_eq_ok hp
  have hpay := parseHeader_payload_le hin hp
  exact {
    params := h.params
    status := statusOk_withValid h.status nofun nofun (fun _ => rfl)
    errors := h.errors
    memory := h.memory
    tables := ⟨fun _ => ⟨hft, rfl⟩, nofun, nofun, fun _ => ⟨hn, hpay, rfl⟩⟩
    results := ⟨nofun, fun _ => rfl, nofun⟩ }

theorem inv_compressed {s : State} {bs : List Byte} {ft : FreqTable} {tree : Tree} {ct : CodeTable} (h : Inv s)
    (hin : InputHolds s bs) (hne : s.range.inLen ≠ 0) (hout : OutputFits s) (hft : s.freshCodes bs = (ft, tree, ct))
    (hcap : artifactSize ft (totalBits ft ct) ≤ s.range.outCap.toNat) : Inv (s.compressed bs) := by
  cases hft
  have hlt := inputHolds_length_lt hin
  exact {
    params := h.params
    status := statusOk_withValid h.status (fun _ => rfl) (fun _ => rfl) nofun
    errors := h.errors
    memory := windowedMemory_output h.memory hout (by rwa [artifact_scanBytes_length _ hlt])
    tables := ⟨fun _ => ⟨freqTableOk_scanBytes (inputHolds_ne_nil hin hne) hlt, rfl⟩, fun _ => ⟨s.tree, rfl⟩,
      fun _ => ⟨rfl, rfl⟩, nofun⟩
    results := ⟨nofun, nofun, fun _ => rfl⟩ }

theorem inv_decompressed {s : State} {ft : FreqTable} {hdr : Header} {out : List Byte} (h : Inv s)
    (hin : s.range.inOff.toNat + s.range.inLen.toNat ≤ s.params.ibufSize.toNat)
    (hp : s.parseHeader s.range.inOff.toNat s.range.inLen.toNat = .ok (ft, hdr)) (hout : OutputFits s)
    (hcap : out.length ≤ s.range.outCap.toNat) : Inv (s.decompressed ft hdr out) := by
  obtain ⟨hft, hn, -, -⟩ := parseHeader_eq_ok hp
  have hpay := parseHeader_payload_le hin hp
  exact {
    params := h.params
    status := statusOk_withValid h.status (fun _ => rfl) nofun (fun _ => rfl)
    errors := h.errors
    memory := windowedMemory_output h.memory hout hcap
    tables := ⟨fun _ => ⟨hft, rfl⟩, fun _ => ⟨s.tree, rfl⟩, nofun,
      fun _ => ⟨hn, hpay, rfl⟩⟩
    results := ⟨nofun, fun _ => rfl, nofun⟩ }

/-- The updates of every command keep the invariant. -/
theorem Updates.inv {s u : State} {i : Instr} (h : Inv s) (hu : Updates s i u) : Inv u := by
  cases hu with
  | nop => exact h
  | query sym => exact ⟨h.params, h.status, h.errors, h.memory, h.tables, h.results⟩
  | scan hin hne => exact inv_scanned h hin hne
  | build hf => exact inv_built h hf
  | assign hf ht => exact inv_assigned h hf ht
  | encode hf hout hcap => exact inv_encoded h hf hout hcap
  | parse hin hp => exact inv_parsed h hin hp
  | decode hf hout hcap => exact inv_decoded h hf hout hcap
  | compress hin hne hout hft hcap => exact inv_compressed h hin hne hout hft hcap
  | decompress hin hp hout hcap => exact inv_decompressed h hin hp hout hcap

/-- Success completion of a pending command (60_exceptions.md R424). -/
theorem inv_complete {s : State} (h : Inv s) (hb : s.status.busy = true) : Inv s.complete := by
  obtain ⟨-, hbusy, hvalid⟩ := h.status
  have herr : s.status.err = false := (hbusy hb).2
  exact {
    params := h.params
    status := ⟨fun hde => by simp [herr] at hde, nofun, hvalid⟩
    errors := errorsOk_of_cleared rfl herr
    memory := h.memory
    tables := h.tables
    results := h.results }

/-- An execution error leaves no table valid and every result register 0 (60_exceptions.md R420). -/
theorem inv_discardResults {s : State} (h : Inv s) (w : Bool) : Inv (s.discardResults w) := by
  have hm : MemoryOk (s.discardResults w) := by
    cases w
    · exact h.memory
    · exact memoryOk_drawWindow h.memory
  refine ⟨by simpa using h.params, ?_, ?_, hm, ?_, ?_⟩
  · rw [discardResults_status]
    exact statusOk_withValid h.status nofun nofun nofun
  · unfold ErrorsOk
    rw [discardResults_errs, discardResults_status]
    exact h.errors
  · simp [TablesOk, Status.clearValid]
  · simp [ResultsOk]

/-- The record of an error other than MALFORMED_TREE (60_exceptions.md R400). -/
theorem inv_recordError {s : State} {e : ErrorCode} (h : Inv s) (hb : s.status.busy = true)
    (he : e ≠ .malformedTree) (info : Word) : Inv (s.recordError e info) := by
  obtain ⟨-, hbusy, hvalid⟩ := h.status
  have hdone : s.status.done = false := (hbusy hb).1
  have hcode : e.code.toNat ≤ 10 ∧ e.code ≠ 5 ∧ e.code ≠ 0 := by
    revert he
    cases e <;> decide
  exact {
    params := h.params
    status := ⟨fun hde => by simp [hdone] at hde, nofun, hvalid⟩
    errors := ⟨hcode.1, hcode.2.1, fun hd => by simp [hdone] at hd, fun _ => hcode.2.2⟩
    memory := h.memory
    tables := h.tables
    results := h.results }

/-- Error completion of a pending command (60_exceptions.md R420, R421). -/
theorem inv_raiseError {s : State} {e : ErrorCode} (h : Inv s) (hb : s.status.busy = true)
    (he : e ≠ .malformedTree) (w : Bool) (info : Word) : Inv (s.raiseError w e info) := by
  unfold State.raiseError
  split
  · exact inv_recordError h hb he info
  · exact inv_recordError (inv_discardResults h w) (by simpa [Status.clearValid] using hb) he info

/-- Acceptance of a command word while idle (45_pipeline_commands.md R370). -/
theorem inv_accept {s : State} (h : Inv s) (w : Word) : Inv (s.accept w) where
  params := h.params
  status := ⟨nofun, fun _ => ⟨rfl, rfl⟩, h.status.2.2⟩
  errors := errorsOk_of_cleared rfl rfl
  memory := h.memory
  tables := h.tables
  results := h.results

/-- A write to STATUS only clears flags (10_state.md R37). -/
theorem inv_acknowledge {s : State} (h : Inv s) (v : Word) : Inv (s.acknowledge v) := by
  obtain ⟨hex, hbusy, hvalid⟩ := h.status
  obtain ⟨hmax, h5, hzero, herr⟩ := h.errors
  have hdone : (s.acknowledge v).status.done = true → s.status.done = true := Bool.and_elim_left
  have herr' : (s.acknowledge v).status.err = true → s.status.err = true := Bool.and_elim_left
  refine ⟨h.params, ⟨fun hde => hex ⟨hdone hde.1, herr' hde.2⟩, fun hb => ?_, hvalid⟩,
    ⟨hmax, h5, fun hbd => hzero (hbd.imp_right hdone), fun he => herr (herr' he)⟩, h.memory, h.tables, h.results⟩
  obtain ⟨hd0, he0⟩ := hbusy hb
  simp [Status.writeOneToClear, hd0, he0]

/-- A reset of a block whose buffers are in order (70_reset_and_hazards.md R450, R451). -/
theorem inv_softReset {s : State} (hp : ParamsOk s.params) (hm : MemoryOk s) : Inv s.softReset where
  params := hp
  status := ⟨nofun, nofun, nofun, nofun, nofun⟩
  errors := errorsOk_of_cleared rfl rfl
  memory := hm
  tables := ⟨nofun, nofun, nofun, nofun⟩
  results := ⟨fun _ => rfl, fun _ => rfl, fun _ => rfl⟩

theorem inv_powerOnReset {s : State} (hp : ParamsOk s.params) : Inv s.powerOnReset :=
  inv_softReset (s := { s with mem := [] }) hp (windowedMemory_nil s.params)

end Sys2Proof.Proofs
end

section
/-! ### The invariant, step by step -/

namespace Sys2Proof.Proofs

open Sys2Proof.Machine Sys2Proof.Safety

/-- The completion step of a command keeps the invariant. -/
theorem inv_exec {i : Instr} {s t : State} (h : Inv s) (hb : s.status.busy = true) (ht : exec i s = .next t) :
    Inv t := by
  rcases exec_next ht with ⟨u, hu, rfl⟩ | ⟨e, info, he, rfl⟩
  · exact inv_complete (hu.inv h) (hu.flags.1.trans hb)
  · exact inv_raiseError h hb he _ info

theorem inv_engineTurn {s t : State} (h : Inv s) (ht : engineTurn s = .next t) : Inv t := by
  rcases engineTurn_cases s with ⟨-, hs⟩ | ⟨hb, i, -, hs⟩ | ⟨hb, r, -, hs⟩
  · rw [hs] at ht
    exact Host.Outcome.next.inj ht ▸ h
  · exact inv_exec h hb (hs.symm.trans ht)
  · rw [hs] at ht
    exact Host.Outcome.next.inj ht ▸ inv_raiseError h hb (by decide) false s.lastCmd

theorem inv_dropWrite {s : State} (h : Inv s) : Inv s.dropWrite :=
  ⟨h.params, h.status, h.errors, h.memory, h.tables, h.results⟩

theorem inv_csrWrite {s : State} (h : Inv s) (v : Word) (r : Csr) : Inv (s.csrWrite v r) := by
  rcases csrWrite_cases s v r with hw | ⟨-, hw⟩ | ⟨-, hw⟩ | ⟨-, rr, hw⟩ | hw | ⟨e, hw⟩ | hw <;> rw [hw]
  · exact h
  · exact inv_dropWrite h
  · exact inv_accept h v
  · exact ⟨h.params, h.status, h.errors, h.memory, h.tables, h.results⟩
  · exact inv_acknowledge h v
  · exact ⟨h.params, h.status, h.errors, h.memory, h.tables, h.results⟩
  · exact inv_softReset (by simpa using h.params) (memoryOk_abandon h.memory)

theorem inv_hostWriteEffect {s : State} (h : Inv s) (size : AccessSize) (addr : Word) (lanes : BitVec 4)
    (data : Word) : Inv (s.hostWriteEffect size addr lanes data) := by
  rcases hostWriteEffect_cases s size addr lanes data with
    ⟨r, -, hw⟩ | ⟨-, hin, hw⟩ | ⟨-, hw⟩ | hw <;> rw [hw]
  · exact inv_csrWrite h data r
  · have hm : WindowedMemory s.params (storeLanes addr.toNat lanes data 0 (accessBytes size) s.mem) :=
      (memoryOk_iff.mp h.memory).storeLanes fun x hx hx' => by unfold InWindows; omega
    exact ⟨h.params, h.status, h.errors, hm, h.tables, h.results⟩
  · exact inv_dropWrite h
  · exact h

theorem inv_tick {s : State} (h : Inv s) : Inv s.tick :=
  ⟨h.params, h.status, h.errors, h.memory, h.tables, h.results⟩

theorem inv_hostAccess {a : HostAccess} {s t : State} (h : Inv s) (ht : hostAccess a s = .next t) : Inv t := by
  cases a with
  | read size addr =>
    obtain ⟨d, -, rfl⟩ := hostAccess_read_next ht
    exact ⟨h.params, h.status, h.errors, h.memory, h.tables, h.results⟩
  | write size addr lanes data =>
    exact Host.Outcome.next.inj ht ▸ inv_tick (inv_hostWriteEffect h size addr lanes data)

theorem inv_perform {e : Event} {s t : State} (h : Inv s) (ht : perform e s = .next t) : Inv t := by
  cases e with
  | access a => exact inv_hostAccess h ht
  | wait =>
    exact Host.Outcome.next.inj ht ▸ ⟨h.params, h.status, h.errors, h.memory, h.tables, h.results⟩
  | engine => exact inv_engineTurn h ht
  | powerOn => exact Host.Outcome.next.inj ht ▸ inv_tick (inv_powerOnReset h.params)

/-- The invariant says nothing of the events still to come. -/
theorem inv_withAgenda {s : State} (h : Inv s) (agenda : List Event) : Inv { s with agenda := agenda } :=
  ⟨h.params, h.status, h.errors, h.memory, h.tables, h.results⟩

/-- Settles O57: whatever event a step performs, its operation keeps each part of the invariant. -/
theorem everyStepKeepsTheInvariant : Obligations.EveryStepKeepsTheInvariant := by
  unfold Obligations.EveryStepKeepsTheInvariant
  intro s t h ht
  cases ha : s.agenda with
  | nil => exact inv_engineTurn h ((step_nil ha).symm.trans ht)
  | cons e rest => exact inv_perform (inv_withAgenda h rest) ((step_cons ha).symm.trans ht)

/-- The sizes the parameters leave open lie between 1 and 2^28 (00_scope.md R8; log 1). -/
theorem reset_params_ok : ParamsOk State.reset.params := by
  have hi := Config.ibufSizeLessOne.isLt
  have ho := Config.obufSizeLessOne.isLt
  simp only [ParamsOk, State.reset, Config.ibufSize, Config.obufSize, BitVec.toNat_ofNat]
  omega

/-- Settles O56: the reset state is its own power-on reset. -/
theorem resetMeetsTheInvariant : Obligations.ResetMeetsTheInvariant :=
  inv_powerOnReset (s := State.reset) reset_params_ok

/-- Settles O4, by the two lemmas on whose turn it is. -/
theorem stepRunsPendingCommand : Obligations.StepRunsPendingCommand := by
  unfold Obligations.StepRunsPendingCommand
  intro s i hb hd
  exact ⟨fun ha => (step_nil ha).trans (engineTurn_pending hb hd),
    fun rest ha => (step_cons ha).trans (engineTurn_pending (s := { s with agenda := rest }) hb hd)⟩

end Sys2Proof.Proofs
end

section
/-! ### Where a command can fault -/

namespace Sys2Proof.Proofs

open Sys2Proof.Machine Sys2Proof.Safety

/-- The computation faults, if at all, where the read of an IBUF byte at an offset below `hi` faults. -/
def FaultsBelow {α : Type} (s : State) (hi : Nat) (r : Run α) : Prop :=
  ∀ f, r = .error (.fault f) → ∃ o, o < hi ∧ s.ib o = .error (.fault f)

section

variable {α β : Type} {s : State} {hi : Nat}

@[simp] theorem faultsBelow_ok (a : α) : FaultsBelow s hi (.ok a : Run α) := nofun

@[simp] theorem faultsBelow_pure (a : α) : FaultsBelow s hi (pure a : Run α) := nofun

@[simp] theorem faultsBelow_raise (e : ErrorCode) (n : Nat) : FaultsBelow s hi (raise e n : Run α) := nofun

theorem FaultsBelow.bind {x : Run α} {k : α → Run β} (hx : FaultsBelow s hi x)
    (hk : ∀ a, x = .ok a → FaultsBelow s hi (k a)) : FaultsBelow s hi (x >>= k) := by
  intro f hf
  rcases run_bind_eq_error.mp hf with hf | ⟨a, ha, hf⟩
  · exact hx f hf
  · exact hk a ha f hf

/-! #### The checks never fault -/

@[simp] theorem faultsBelow_checkTables (mask : Word) : FaultsBelow s hi (s.checkTables mask) := by
  unfold State.checkTables; split <;> simp

@[simp] theorem faultsBelow_checkInput : FaultsBelow s hi s.checkInput := by
  unfold State.checkInput; split <;> simp

@[simp] theorem faultsBelow_checkOutput : FaultsBelow s hi s.checkOutput := by
  unfold State.checkOutput; split <;> simp

@[simp] theorem faultsBelow_checkNonEmpty : FaultsBelow s hi s.checkNonEmpty := by
  unfold State.checkNonEmpty; split <;> simp

@[simp] theorem faultsBelow_checkEncoded (bits bytes : Nat) : FaultsBelow s hi (s.checkEncoded bits bytes) := by
  unfold State.checkEncoded; split <;> simp

@[simp] theorem faultsBelow_checkDecoded (n : Word) : FaultsBelow s hi (s.checkDecoded n) := by
  unfold State.checkDecoded; split <;> simp

@[simp] theorem faultsBelow_need (len o w : Nat) : FaultsBelow s hi (need len o w) := by
  unfold need; split <;> simp

/-! #### The reads fault where a byte does -/

theorem faultsBelow_ib {o : Nat} (h : o < hi) : FaultsBelow s hi (s.ib o) := fun _ hf => ⟨o, h, hf⟩

theorem faultsBelow_le32 {o : Nat} (h : o + 4 ≤ hi) : FaultsBelow s hi (s.le32 o) :=
  (faultsBelow_ib (by omega)).bind fun _ _ => (faultsBelow_ib (by omega)).bind fun _ _ =>
    (faultsBelow_ib (by omega)).bind fun _ _ => (faultsBelow_ib (by omega)).bind fun _ _ => faultsBelow_pure _

theorem faultsBelow_ibytes {o n : Nat} (h : o + n ≤ hi) : FaultsBelow s hi (s.ibytes o n) := by
  induction n generalizing o with
  | zero => exact faultsBelow_ok _
  | succ n ih =>
    exact (faultsBelow_ib (by omega)).bind fun _ _ => (ih (by omega)).bind fun _ _ => faultsBelow_pure _

theorem faultsBelow_encodeInput {i n : Nat} (h : s.range.inOff.toNat + i + n ≤ hi) :
    FaultsBelow s hi (s.encodeInput i n) := by
  induction n generalizing i with
  | zero => exact faultsBelow_ok _
  | succ n ih =>
    refine (faultsBelow_ib (by omega)).bind fun b _ => ?_
    split
    · exact faultsBelow_raise _ _
    · exact (ih (by omega)).bind fun _ _ => faultsBelow_pure _

theorem faultsBelow_parseEntries {off len m r : Nat} {ft : FreqTable} (h : off + len ≤ hi) :
    FaultsBelow s hi (s.parseEntries off len m r ft) := by
  induction m generalizing r ft with
  | zero => exact faultsBelow_ok _
  | succ m ih =>
    refine (faultsBelow_need _ _ _).bind fun _ hsym => ?_
    have hsym := need_eq_ok.mp hsym
    refine (faultsBelow_ib (by omega)).bind fun sym _ => ?_
    split
    · exact faultsBelow_raise _ _
    · refine (faultsBelow_need _ _ _).bind fun _ hcnt => ?_
      have hcnt := need_eq_ok.mp hcnt
      refine (faultsBelow_le32 (by omega)).bind fun f _ => ?_
      split
      · exact faultsBelow_raise _ _
      · exact ih

/-- `need` keeps every header field inside the input range. -/
theorem faultsBelow_need_le32 {off len o : Nat} (h : off + len ≤ hi) {k : Word → Run α}
    (hk : ∀ w, FaultsBelow s hi (k w)) :
    FaultsBelow s hi (do need len o 4; let w ← s.le32 (off + o); k w) := by
  refine (faultsBelow_need _ _ _).bind fun _ hn => ?_
  have hn := need_eq_ok.mp hn
  exact (faultsBelow_le32 (by omega)).bind fun w _ => hk w

theorem faultsBelow_parseHeader {off len : Nat} (h : off + len ≤ hi) : FaultsBelow s hi (s.parseHeader off len) := by
  unfold State.parseHeader
  refine faultsBelow_need_le32 (o := 0) h fun kw => ?_
  dsimp only
  split
  · exact faultsBelow_raise _ _
  · refine (faultsBelow_parseEntries h).bind fun ft _ => ?_
    rw [Nat.add_assoc off 4]
    refine faultsBelow_need_le32 h fun n => ?_
    split
    · exact faultsBelow_raise _ _
    · rw [Nat.add_assoc off 8]
      refine faultsBelow_need_le32 h fun v => ?_
      split
      · exact faultsBelow_raise _ _
      · exact faultsBelow_pure _

theorem faultsBelow_readBit {pay p : Nat} (h : pay + p / 8 < hi) : FaultsBelow s hi (s.readBit pay p) :=
  (faultsBelow_ib h).bind fun _ _ => faultsBelow_pure _

/-- The walk reads only bytes of the valid payload bits (44_decoder_bit_reader.md R322). -/
theorem faultsBelow_decodeLoop {t : Tree} {pay avail p emitted m : Nat} {cur : Fin 511}
    (h : pay + ceil8 (p + avail) ≤ hi) : FaultsBelow s hi (s.decodeLoop t pay avail p emitted m cur) := by
  induction avail generalizing p emitted m cur with
  | zero =>
    cases m with
    | zero => exact faultsBelow_ok _
    | succ m => exact faultsBelow_raise _ _
  | succ avail ih =>
    cases m with
    | zero => exact faultsBelow_ok _
    | succ m =>
      have hrest : pay + ceil8 (p + 1 + avail) ≤ hi := by rwa [Nat.add_right_comm]
      unfold State.decodeLoop
      refine (faultsBelow_readBit (by unfold ceil8 at h; omega)).bind fun bit _ => ?_
      split
      · split
        · exact faultsBelow_raise _ _
        · exact (ih hrest).bind fun _ _ => faultsBelow_pure _
      · dsimp only
        split
        · exact (ih hrest).bind fun _ _ => faultsBelow_pure _
        · exact ih hrest

theorem faultsBelow_decodePayload {t : Tree} {hdr : Header} (h : hdr.pay.toNat + ceil8 hdr.vbc.toNat ≤ hi) :
    FaultsBelow s hi (s.decodePayload t hdr) :=
  faultsBelow_decodeLoop (by rwa [Nat.zero_add])

end

/-- `FaultsBelow`, at the end of a command. -/
theorem FaultsBelow.finish {i : Instr} {s : State} {hi : Nat} {r : Run State} {f : Fault} (hr : FaultsBelow s hi r)
    (h : finish i s r = .fault f) : ∃ o, o < hi ∧ s.ib o = .error (.fault f) :=
  hr f (finish_eq_fault.mp h)

/-- DECODE faults only at a byte of the latched payload. -/
theorem execDecode_fault {s : State} {f : Fault} (h : execDecode s = .fault f) :
    s.status.hdrValid = true ∧
      ∃ o, o < s.hdr.pay.toNat + ceil8 s.hdr.vbc.toNat ∧ s.ib o = .error (.fault f) := by
  rw [execDecode, finish_eq_fault, run_bind_eq_error] at h
  rcases h with h | ⟨_, htab, h⟩
  · obtain ⟨_, hlt, _⟩ := faultsBelow_checkTables (hi := 0) _ f h
    omega
  · obtain ⟨_, _, hhdr⟩ := missing_decode_eq_zero.mp (checkTables_eq_ok.mp htab)
    refine ⟨hhdr, ?_⟩
    refine FaultsBelow.finish (i := .decode) ?_ (finish_eq_fault.mpr h)
    exact faultsBelow_checkOutput.bind fun _ _ => (faultsBelow_checkDecoded _).bind fun _ _ =>
      (faultsBelow_decodePayload le_rfl).bind fun _ _ => faultsBelow_pure _

/-- Every command but DECODE faults only at a byte of IBUF: its reads stay inside the input range, or inside a payload
that ParseHeader accepted. -/
theorem exec_fault {i : Instr} {s : State} {f : Fault} (hi : i ≠ .decode)
    (h : exec i s = .fault f) :
    ∃ o, o < s.params.ibufSize.toNat ∧ s.ib o = .error (.fault f) := by
  cases i with
  | nop => exact nomatch h
  | query sym => exact nomatch h
  | scan =>
    refine FaultsBelow.finish ?_ h
    exact faultsBelow_checkInput.bind fun _ hin => faultsBelow_checkNonEmpty.bind fun _ _ =>
      (faultsBelow_ibytes (checkInput_eq_ok.mp hin)).bind fun _ _ => faultsBelow_pure _
  | build =>
    refine FaultsBelow.finish ?_ h
    exact (faultsBelow_checkTables _).bind fun _ _ => faultsBelow_pure _
  | assign =>
    refine FaultsBelow.finish ?_ h
    exact (faultsBelow_checkTables _).bind fun _ _ => faultsBelow_pure _
  | encode =>
    refine FaultsBelow.finish ?_ h
    exact (faultsBelow_checkTables _).bind fun _ _ => faultsBelow_checkInput.bind fun _ hin =>
      faultsBelow_checkOutput.bind fun _ _ => faultsBelow_checkNonEmpty.bind fun _ _ =>
      (faultsBelow_encodeInput (checkInput_eq_ok.mp hin)).bind fun _ _ =>
      (faultsBelow_checkEncoded _ _).bind fun _ _ => faultsBelow_pure _
  | parse =>
    refine FaultsBelow.finish ?_ h
    exact faultsBelow_checkInput.bind fun _ hin =>
      (faultsBelow_parseHeader (checkInput_eq_ok.mp hin)).bind fun _ _ => faultsBelow_pure _
  | decode => exact absurd rfl hi
  | compress =>
    refine FaultsBelow.finish ?_ h
    exact faultsBelow_checkInput.bind fun _ hin => faultsBelow_checkOutput.bind fun _ _ =>
      faultsBelow_checkNonEmpty.bind fun _ _ => (faultsBelow_ibytes (checkInput_eq_ok.mp hin)).bind fun _ _ =>
      (faultsBelow_checkEncoded _ _).bind fun _ _ => faultsBelow_pure _
  | decompress =>
    refine FaultsBelow.finish ?_ h
    refine faultsBelow_checkInput.bind fun _ hin => faultsBelow_checkOutput.bind fun _ _ =>
      (faultsBelow_parseHeader (checkInput_eq_ok.mp hin)).bind fun ⟨ft, hdr⟩ hparse =>
      (faultsBelow_checkDecoded _).bind fun _ _ =>
      (faultsBelow_decodePayload ?_).bind fun _ _ => faultsBelow_pure _
    exact parseHeader_payload_le (checkInput_eq_ok.mp hin) hparse

/-- A read of an IBUF byte faults where the byte does not exist, or where nobody has written it and UNWRITTEN_READ is
`fault` (10_state.md R67, log 15). -/
theorem ib_fault {s : State} {o : Nat} {f : Fault} (h : s.ib o = .error (.fault f)) :
    (s.params.ibufSize.toNat ≤ o ∧ f = .outsideIbuf o) ∨
      (o < s.params.ibufSize.toNat ∧ f = .unwrittenRead (ibufBase + o) ∧ s.params.unwrittenRead = .fault ∧
        s.mem.read (ibufBase + o) = none) := by
  unfold State.ib State.readByte at h
  split at h
  · next ho =>
    cases hm : s.mem.read (ibufBase + o) with
    | some b => simp [hm] at h
    | none =>
      cases hu : s.params.unwrittenRead with
      | draw => simp [hm, hu] at h
      | fault =>
        simp only [hm, hu, Except.error.injEq, Stop.fault.injEq] at h
        exact .inr ⟨ho, h.symm, rfl, rfl⟩
  · next ho => exact .inl ⟨Nat.le_of_not_lt ho, by simpa [eq_comm] using h⟩

/-- A byte of IBUF whose read faults is unwritten. -/
theorem ib_fault_of_lt {s : State} {o : Nat} {f : Fault} (ho : o < s.params.ibufSize.toNat)
    (h : s.ib o = .error (.fault f)) :
    f = .unwrittenRead (ibufBase + o) ∧ s.params.unwrittenRead = .fault ∧ s.mem.read (ibufBase + o) = none := by
  rcases ib_fault h with ⟨hle, -⟩ | ⟨-, hf⟩
  · omega
  · exact hf

/-- From a state of the invariant every command, DECODE included, faults only at an unwritten byte of IBUF, under
UNWRITTEN_READ = `fault`. -/
theorem exec_fault_of_inv {i : Instr} {s : State} {f : Fault} (hs : Inv s) (h : exec i s = .fault f) :
    s.params.unwrittenRead = .fault := by
  obtain ⟨o, ho, hf⟩ : ∃ o, o < s.params.ibufSize.toNat ∧ s.ib o = .error (.fault f) := by
    by_cases hi : i = .decode
    · subst hi
      obtain ⟨hhdr, o, ho, hf⟩ := execDecode_fault h
      obtain ⟨-, hpay, -⟩ := hs.tables.2.2.2 hhdr
      exact ⟨o, by omega, hf⟩
    · exact exec_fault hi h
  exact (ib_fault_of_lt ho hf).2.1

/-- No arm of `exec` refuses: every command ends in `finish`. -/
theorem exec_ne_refused (i : Instr) (s : State) (f : Refusal) : exec i s ≠ .refused f := by
  cases i with
  | nop | query => nofun
  | _ => exact finish_ne_refused _ _ _ _

end Sys2Proof.Proofs
end

section
/-! ### Commands succeed or report one error -/

namespace Sys2Proof.Proofs

open Sys2Proof.Machine Sys2Proof.Safety

/-- Every command that completes clears BUSY. -/
theorem exec_next_busy {i : Instr} {s t : State} (h : exec i s = .next t) : t.status.busy = false := by
  rcases exec_next h with ⟨u, -, rfl⟩ | ⟨e, info, -, rfl⟩ <;> simp

/-- Settles O37: the completions by the inversion of `exec`, the faults by the reads each command can make. -/
theorem commandsSucceedOrReportOneError : Obligations.CommandsSucceedOrReportOneError := by
  unfold Obligations.CommandsSucceedOrReportOneError
  intro i s
  refine ⟨exec_ne_refused i s, fun t ht => ⟨exec_next_busy ht, ?_⟩, fun f hf => ?_⟩
  · rcases exec_next ht with ⟨u, hu, rfl⟩ | ⟨e, info, he, rfl⟩
    · exact .inl ⟨rfl, rfl, hu.flags.2⟩
    · refine .inr ⟨by simp, ?_, e, he, by simp⟩
      rw [raiseError_status]
      split <;> rfl
  · obtain ⟨o, ho, hb⟩ : ∃ o, (o < s.params.ibufSize.toNat ∨ i = .decode) ∧ s.ib o = .error (.fault f) := by
      by_cases hi : i = .decode
      · subst hi
        obtain ⟨-, o, -, hb⟩ := execDecode_fault hf
        exact ⟨o, .inr rfl, hb⟩
      · obtain ⟨o, ho, hb⟩ := exec_fault hi hf
        exact ⟨o, .inl ho, hb⟩
    rcases ib_fault hb with ⟨hle, rfl⟩ | ⟨hlt, rfl, hu, hm⟩
    · exact .inr ⟨o, rfl, ho.resolve_left (by omega), hle⟩
    · exact .inl ⟨_, rfl, hu, hm, by omega, by omega⟩

/-- The ENGINE completes the pending word, legal or not, when unwritten bytes are drawn. -/
theorem engineTurn_completes {s : State} (h : Inv s) (hd : s.params.unwrittenRead = .draw)
    (hb : s.status.busy = true) : ∃ t, engineTurn s = .next t ∧ t.status.busy = false := by
  rcases engineTurn_cases s with ⟨hidle, -⟩ | ⟨-, i, -, hs⟩ | ⟨-, r, -, hs⟩
  · simp [hb] at hidle
  · rw [hs]
    cases ht : exec i s with
    | next t => exact ⟨t, rfl, exec_next_busy ht⟩
    | fault f => exact nomatch hd.symm.trans (exec_fault_of_inv h ht)
    | refused f => exact absurd ht (exec_ne_refused i s f)
  · exact ⟨_, hs, by simp [State.illegalCommand]⟩

/-- Settles O8: on either agenda the step is the ENGINE's turn. -/
theorem pendingCommandCompletes : Obligations.PendingCommandCompletes := by
  unfold Obligations.PendingCommandCompletes
  intro s h hd hb ha
  rcases ha with ha | ⟨rest, ha⟩
  · rw [step_nil ha]
    exact engineTurn_completes h hd hb
  · rw [step_cons ha]
    exact engineTurn_completes (inv_withAgenda h rest) hd hb

end Sys2Proof.Proofs
end

section
/-! ### The queue and the forest of `Build()` -/

namespace Sys2Proof.Proofs

open Sys2Proof.Machine Sys2Proof.Safety

/-- The node is internal, with `x` as one of its two children. -/
def HasChild (nd : Node) (x : Fin 511) : Prop := ∃ l r w, nd = .internal l r w ∧ (l = x ∨ r = x)

@[simp] theorem hasChild_leaf (sym : Byte) (w : BitVec 40) (x : Fin 511) : ¬HasChild (.leaf sym w) x := nofun

@[simp] theorem hasChild_internal {l r x : Fin 511} {w : BitVec 40} :
    HasChild (.internal l r w) x ↔ l = x ∨ r = x := by
  simp [HasChild]

/-- The nodes in the queue: the roots of the trees made so far (41_tree_builder.md R222). -/
def roots (b : BuildState) : List (Fin 511) := b.queue.map QueueEntry.node

theorem queueInsert_perm (q : List QueueEntry) (e : QueueEntry) : (queueInsert q e).Perm (e :: q) := by
  induction q with
  | nil => rfl
  | cons x xs ih =>
    rw [queueInsert]
    split
    · rfl
    · exact (ih.cons x).trans (.swap e x xs)

section add

variable (b : BuildState) (nd : Node) (w : BitVec 40) (q : List QueueEntry)

@[simp] theorem buildAdd_next : (b.add nd w q).next = b.next + 1 := rfl

@[simp] theorem buildAdd_queue_length : (b.add nd w q).queue.length = q.length + 1 :=
  (queueInsert_perm q _).length_eq

theorem buildAdd_roots_perm : (roots (b.add nd w q)).Perm (Fin.ofNat 511 b.next :: q.map QueueEntry.node) :=
  (queueInsert_perm q _).map QueueEntry.node

/-- NODE[next] is the added node, and every other entry is as before (41_tree_builder.md R222). -/
theorem buildAdd_node (x : Fin 511) :
    (b.add nd w q).node[x] = if x.val = b.next then nd else b.node[x] := by
  simp only [BuildState.add, Fin.getElem_fin, Vector.getElem_setIfInBounds, eq_comm]

end add

/-- The merge of two entries adds their parent (41_tree_builder.md R222). -/
def mergeNext (b : BuildState) (x y : QueueEntry) (rest : List QueueEntry) : BuildState :=
  b.add (.internal x.node y.node (x.weight + y.weight)) (x.weight + y.weight) rest

/-- What every merge keeps, `while |Q| > 1` keeps. -/
theorem mergeAll_induction {P : BuildState → Prop}
    (hstep : ∀ b x y rest, b.queue = x :: y :: rest → P b → P (mergeNext b x y rest)) (fuel : Nat) {b : BuildState}
    (h : P b) : P (mergeAll fuel b) := by
  induction fuel generalizing b with
  | zero => exact h
  | succ fuel ih =>
    rw [mergeAll]
    split
    · next x y rest hq => exact ih (hstep b x y rest hq h)
    · exact h

/-- Enough turns leave at most one entry in the queue. -/
theorem mergeAll_queue_length {fuel : Nat} {b : BuildState} (h : b.queue.length ≤ fuel + 1) :
    (mergeAll fuel b).queue.length ≤ 1 := by
  induction fuel generalizing b with
  | zero => exact h
  | succ fuel ih =>
    rw [mergeAll]
    split
    · next x y rest hq =>
      refine ih ?_
      simp only [hq, List.length_cons] at h
      rw [buildAdd_queue_length]
      omega
    · next hq =>
      match hb : b.queue with
      | [] | [_] => simp
      | x :: y :: rest => exact absurd hb (hq x y rest)

theorem loadLeaves_next (ft : FreqTable) (b : BuildState) : (loadLeaves ft b).next = b.next + ft.length := by
  induction ft generalizing b with
  | nil => rfl
  | cons e es ih =>
    rw [loadLeaves, ih, buildAdd_next, List.length_cons]
    omega

/-- The trees made so far: the queue holds each root once, and every other node made has one parent, made after it. -/
structure Forest (b : BuildState) : Prop where
  nodup : (roots b).Nodup
  root_lt : ∀ x ∈ roots b, x.val < b.next
  newest : ∀ x : Fin 511, x.val + 1 = b.next → x ∈ roots b
  child_lt : ∀ y : Fin 511, y.val < b.next → ∀ x, HasChild b.node[y] x → x.val < y.val
  orphan : ∀ x ∈ roots b, ∀ y : Fin 511, y.val < b.next → ¬HasChild b.node[y] x
  parent : ∀ x : Fin 511, x.val < b.next → x ∉ roots b → ∃! y : Fin 511, y.val < b.next ∧ HasChild b.node[y] x

/-- A new node whose children are the roots taken out of the queue. -/
theorem Forest.add {b : BuildState} {nd : Node} {w : BitVec 40} {q : List QueueEntry} (h : Forest b)
    (hnext : b.next < 511) (hroots : ∀ x, x ∈ roots b ↔ HasChild nd x ∨ x ∈ q.map QueueEntry.node)
    (hdisj : ∀ x, HasChild nd x → x ∉ q.map QueueEntry.node) (hq : (q.map QueueEntry.node).Nodup) :
    Forest (b.add nd w q) := by
  have hnew : (Fin.ofNat 511 b.next).val = b.next := Nat.mod_eq_of_lt hnext
  have hperm := buildAdd_roots_perm b nd w q
  have hmem : ∀ x : Fin 511, x ∈ roots (b.add nd w q) ↔ x.val = b.next ∨ x ∈ q.map QueueEntry.node := fun x => by
    rw [hperm.mem_iff, List.mem_cons, Fin.ext_iff, hnew]
  have hqroot : ∀ x ∈ q.map QueueEntry.node, x ∈ roots b := fun x hx => (hroots x).mpr (.inr hx)
  have hchild : ∀ x, HasChild nd x → x.val < b.next := fun x hx => h.root_lt x ((hroots x).mpr (.inl hx))
  exact {
    nodup := hperm.nodup_iff.mpr (List.nodup_cons.mpr ⟨fun hx => by
      have := h.root_lt _ (hqroot _ hx)
      omega, hq⟩)
    root_lt := fun x hx => by
      rw [buildAdd_next]
      rcases (hmem x).mp hx with hx | hx
      · omega
      · exact Nat.lt_succ_of_lt (h.root_lt x (hqroot x hx))
    newest := fun x hx => (hmem x).mpr (.inl (by simpa using hx))
    child_lt := fun y hy x hyx => by
      rw [buildAdd_node] at hyx
      rw [buildAdd_next] at hy
      split at hyx
      · next hyn => exact hyn ▸ hchild x hyx
      · exact h.child_lt y (by omega) x hyx
    orphan := fun x hx y hy hyx => by
      rw [buildAdd_node] at hyx
      rw [buildAdd_next] at hy
      split at hyx
      · rcases (hmem x).mp hx with hx | hx
        · exact (hchild x hyx).ne hx
        · exact hdisj x hyx hx
      · have hy' : y.val < b.next := by omega
        rcases (hmem x).mp hx with hx | hx
        · have := h.child_lt y hy' x hyx
          omega
        · exact h.orphan x (hqroot x hx) y hy' hyx
    parent := fun x hx hxr => by
      rw [hmem, not_or] at hxr
      rw [buildAdd_next] at hx
      simp only [buildAdd_node, buildAdd_next]
      by_cases hxc : HasChild nd x
      · have hnone : ∀ y : Fin 511, y.val < b.next → ¬HasChild b.node[y] x :=
          h.orphan x ((hroots x).mpr (.inl hxc))
        refine ⟨Fin.ofNat 511 b.next, ⟨by omega, by rwa [if_pos hnew]⟩, fun y ⟨hy, hyx⟩ => ?_⟩
        rw [Fin.ext_iff, hnew]
        by_contra hne
        rw [if_neg hne] at hyx
        exact hnone y (by omega) hyx
      · have hold : x ∉ roots b := fun hb => ((hroots x).mp hb).elim hxc hxr.2
        obtain ⟨y, ⟨hy, hyx⟩, huniq⟩ := h.parent x (by omega) hold
        refine ⟨y, ⟨by omega, by rwa [if_neg (by omega)]⟩, fun z ⟨hz, hzx⟩ => ?_⟩
        split at hzx
        · exact absurd hzx hxc
        · exact huniq z ⟨by omega, hzx⟩ }

end Sys2Proof.Proofs
end

section
/-! ### The shape of a built tree -/

namespace Sys2Proof.Proofs

open Sys2Proof.Machine Sys2Proof.Safety

/-- The run of `Build()` after the leaves of `ft`: they stand in FT order, the internal nodes after them, and every
merge takes one entry from the queue as it makes one node (41_tree_builder.md R223). -/
structure Building (ft : FreqTable) (b : BuildState) : Prop where
  forest : Forest b
  leaf : ∀ (x : Fin 511) (h : x.val < ft.length), b.node[x] = .leaf ft[x.val].sym (ft[x.val].cnt.setWidth 40)
  internal : ∀ x : Fin 511, ft.length ≤ x.val → x.val < b.next → ∃ l r w, b.node[x] = .internal l r w ∧ l ≠ r
  length_le : ft.length ≤ b.next
  next_le : b.next ≤ 2 * ft.length - 1
  budget : b.next + b.queue.length = 2 * ft.length

theorem building_nil (node : Vector Node 511) : Building [] ⟨node, [], 0, 0⟩ where
  forest := ⟨List.nodup_nil, nofun, nofun, nofun, nofun, nofun⟩
  leaf := nofun
  internal := nofun
  length_le := le_rfl
  next_le := le_rfl
  budget := rfl

theorem Building.addLeaf {ft : FreqTable} {b : BuildState} {e : FtEntry} (h : Building ft b)
    (hnext : b.next = ft.length) (hlt : b.next < 511) :
    Building (ft ++ [e]) (b.add (.leaf e.sym (e.cnt.setWidth 40)) (e.cnt.setWidth 40) b.queue) where
  forest := h.forest.add hlt (by simp [roots]) (by simp) h.forest.nodup
  leaf x hx := by
    simp only [List.length_append, List.length_singleton] at hx
    rw [buildAdd_node]
    split
    · next hxn => simp [hxn, hnext]
    · next hxn =>
      have hx' : x.val < ft.length := by omega
      rw [h.leaf x hx', List.getElem_append_left hx']
  internal x hx hx' := by
    simp only [List.length_append, List.length_singleton] at hx
    rw [buildAdd_next] at hx'
    omega
  length_le := by simp [hnext]
  next_le := by
    simp only [buildAdd_next, List.length_append, List.length_singleton]
    omega
  budget := by
    have := h.budget
    simp only [buildAdd_next, buildAdd_queue_length, List.length_append, List.length_singleton]
    omega

/-- A merge takes two different roots and makes their parent (41_tree_builder.md R222). -/
theorem Building.merge {ft : FreqTable} {b : BuildState} {x y : QueueEntry} {rest : List QueueEntry}
    (hft : ft.length ≤ 256) (hq : b.queue = x :: y :: rest) (h : Building ft b) :
    Building ft (mergeNext b x y rest) := by
  have hbudget := h.budget
  have hle := h.length_le
  have hroots : roots b = x.node :: y.node :: rest.map QueueEntry.node := by simp [roots, hq]
  have hnodup := h.forest.nodup
  simp only [hroots, List.nodup_cons, List.mem_cons, not_or] at hnodup
  obtain ⟨⟨hxy, hx⟩, hy, hrest⟩ := hnodup
  rw [hq, List.length_cons, List.length_cons] at hbudget
  have hforest : Forest (mergeNext b x y rest) := by
    refine h.forest.add (by omega) (fun z => ?_) (fun z hz => ?_) hrest
    · simp only [hroots, List.mem_cons, hasChild_internal, eq_comm (a := z), or_assoc]
    · rcases hasChild_internal.mp hz with rfl | rfl
      · exact hx
      · exact hy
  exact {
    forest := hforest
    leaf := fun z hz => by
      rw [mergeNext, buildAdd_node, if_neg (by omega)]
      exact h.leaf z hz
    internal := fun z hz hz' => by
      simp only [mergeNext, buildAdd_next, buildAdd_node] at hz' ⊢
      split
      · exact ⟨_, _, _, rfl, hxy⟩
      · exact h.internal z hz (by omega)
    length_le := by
      rw [mergeNext, buildAdd_next]
      omega
    next_le := by
      rw [mergeNext, buildAdd_next]
      omega
    budget := by
      rw [mergeNext, buildAdd_next, buildAdd_queue_length]
      omega }

theorem Building.loadLeaves {done es : FreqTable} {b : BuildState} (h : Building done b)
    (hnext : b.next = done.length) (hle : done.length + es.length ≤ 256) :
    Building (done ++ es) (loadLeaves es b) := by
  induction es generalizing done b with
  | nil => rwa [List.append_nil]
  | cons e es ih =>
    rw [List.length_cons] at hle
    rw [List.append_cons]
    exact ih (h.addLeaf hnext (by omega)) (by simp [hnext]) (by simp; omega)

/-- The whole run: the variables of `Build()` when it ends. -/
def buildRun (ft : FreqTable) (node : Vector Node 511) : BuildState :=
  mergeAll ft.length (loadLeaves ft ⟨node, [], 0, 0⟩)

theorem buildTree_count (ft : FreqTable) (old : Tree) :
    (buildTree ft old).count = BitVec.ofNat 10 (buildRun ft old.node).next := rfl

theorem building_loadLeaves {ft : FreqTable} (h : FreqTableOk ft) (node : Vector Node 511) :
    Building ft (loadLeaves ft ⟨node, [], 0, 0⟩) := by
  have hload := (building_nil node).loadLeaves (es := ft) rfl (by simpa using h.2.1)
  rwa [List.nil_append] at hload

theorem building_buildRun {ft : FreqTable} (h : FreqTableOk ft) (node : Vector Node 511) :
    Building ft (buildRun ft node) :=
  mergeAll_induction (fun _ _ _ _ hq => Building.merge h.2.1 hq) _ (building_loadLeaves h node)

/-- The run ends with one entry in the queue, its last node (41_tree_builder.md R223). -/
theorem buildRun_end {ft : FreqTable} (h : FreqTableOk ft) (node : Vector Node 511) :
    (buildRun ft node).next = 2 * ft.length - 1 ∧
      ∃ e, (buildRun ft node).queue = [e] ∧ e.node.val = 2 * ft.length - 2 := by
  have hb := building_buildRun h node
  have hbudget := hb.budget
  have hlen := hb.length_le
  have hnext := hb.next_le
  have hload := (building_loadLeaves h node).budget
  rw [loadLeaves_next, Nat.zero_add] at hload
  obtain ⟨hpos, hle, -⟩ := h
  have hq : (buildRun ft node).queue.length ≤ 1 := mergeAll_queue_length (by omega)
  have hlast := hb.forest.newest ⟨(buildRun ft node).next - 1, by omega⟩ (by dsimp only; omega)
  rw [roots, List.mem_map] at hlast
  obtain ⟨e, he, hnode⟩ := hlast
  obtain ⟨e', hqe⟩ := List.length_eq_one_iff.mp (hq.antisymm (List.length_pos_of_mem he))
  rw [hqe] at he
  obtain rfl := List.mem_singleton.mp he
  have hn : (buildRun ft node).next = 2 * ft.length - 1 := by
    rw [hqe, List.length_singleton] at hbudget
    omega
  exact ⟨hn, e, hqe, by rw [hnode]; dsimp only; omega⟩

/-- ROOT is the last node (41_tree_builder.md R223). -/
theorem buildTree_root {ft : FreqTable} (h : FreqTableOk ft) (old : Tree) :
    (buildTree ft old).root.val = 2 * ft.length - 2 := by
  obtain ⟨-, e, hq, he⟩ := buildRun_end h old.node
  have hroot : (buildTree ft old).root = e.node := by
    unfold buildTree
    dsimp only
    rw [show (mergeAll _ _).queue = [e] from hq]
  rw [hroot, he]

/-- Settles O19: the forest that `Build()` keeps has one root left, its last node. -/
theorem builtTreeHasItsShape : Obligations.BuiltTreeHasItsShape := by
  unfold Obligations.BuiltTreeHasItsShape
  intro ft old h
  have hb := building_buildRun h old.node
  obtain ⟨hnext, e, hq, he⟩ := buildRun_end h old.node
  refine ⟨buildTree_root h old, by rw [buildTree_count, hnext], hb.leaf, fun x hx hx' => ?_, fun x hx => ?_⟩
  · rw [← hnext] at hx'
    obtain ⟨l, r, w, hnode, hne⟩ := hb.internal x hx hx'
    have hchild := hb.forest.child_lt x hx'
    rw [hnode] at hchild
    exact ⟨l, r, w, hnode, hchild l (by simp), hchild r (by simp), hne⟩
  · rw [← hnext]
    refine hb.forest.parent x (by omega) fun hroot => ?_
    rw [roots, hq, List.map_singleton, List.mem_singleton] at hroot
    rw [hroot] at hx
    omega

end Sys2Proof.Proofs
end

section
/-! ### A built tree does not depend on the node store before it -/

namespace Sys2Proof.Proofs

open Sys2Proof.Machine Sys2Proof.Safety

/-- Two runs of `Build()` in step: the same queue and counters, and the same nodes made. -/
structure InStep (a b : BuildState) : Prop where
  queue : a.queue = b.queue
  seq : a.seq = b.seq
  next : a.next = b.next
  node : ∀ x : Fin 511, x.val < a.next → a.node[x] = b.node[x]

theorem InStep.add {a b : BuildState} (h : InStep a b) (nd : Node) (w : BitVec 40) (q : List QueueEntry) :
    InStep (a.add nd w q) (b.add nd w q) where
  queue := by simp only [BuildState.add, h.seq, h.next]
  seq := congrArg (· + 1) h.seq
  next := congrArg (· + 1) h.next
  node x hx := by
    rw [buildAdd_next] at hx
    rw [buildAdd_node, buildAdd_node, ← h.next]
    split
    · rfl
    · exact h.node x (by omega)

theorem InStep.loadLeaves {a b : BuildState} (h : InStep a b) (ft : FreqTable) :
    InStep (loadLeaves ft a) (loadLeaves ft b) := by
  induction ft generalizing a b with
  | nil => exact h
  | cons e es ih =>
    rw [Machine.loadLeaves, Machine.loadLeaves, h.queue]
    exact ih (h.add _ _ _)

theorem InStep.mergeAll {a b : BuildState} (h : InStep a b) (fuel : Nat) :
    InStep (mergeAll fuel a) (mergeAll fuel b) := by
  induction fuel generalizing a b with
  | zero => exact h
  | succ fuel ih =>
    rw [Machine.mergeAll, Machine.mergeAll, ← h.queue]
    split
    · exact ih (h.add _ _ _)
    · exact h

theorem inStep_buildRun (ft : FreqTable) (node node' : Vector Node 511) :
    InStep (buildRun ft node) (buildRun ft node') :=
  (InStep.loadLeaves (a := ⟨node, [], 0, 0⟩) (b := ⟨node', [], 0, 0⟩) ⟨rfl, rfl, rfl, nofun⟩ ft).mergeAll _

/-- The two node stores agree below `n`, and no walk that starts there leaves it. -/
def SameBelow (n : Nat) (node node' : Vector Node 511) : Prop :=
  ∀ x : Fin 511, x.val < n → node[x] = node'[x] ∧ ∀ y, HasChild node[x] y → y.val < n

/-- The two trees agree on every node a walk from the root can meet. -/
def SameTree (t u : Tree) : Prop := t.root = u.root ∧ ∃ n, t.root.val < n ∧ SameBelow n t.node u.node

theorem sameTree_buildTree {ft : FreqTable} (h : FreqTableOk ft) (old old' : Tree) :
    SameTree (buildTree ft old) (buildTree ft old') := by
  have hroot := buildTree_root h old
  have hchild := (building_buildRun h old.node).forest.child_lt
  have hnext := (buildRun_end h old.node).1
  have hpos := h.1
  refine ⟨Fin.ext (hroot.trans (buildTree_root h old').symm), (buildRun ft old.node).next, by omega, fun x hx => ?_⟩
  exact ⟨(inStep_buildRun ft old.node old'.node).node x hx, fun y hy => (hchild x hx y hy).trans hx⟩

/-- ASSIGN's walk meets only nodes on which the stores agree (42_code_assigner.md R250). -/
theorem walk_sameBelow {n : Nat} {node node' : Vector Node 511} (h : SameBelow n node node') (depth : Nat)
    {x : Fin 511} (hx : x.val < n) (p : List Bool) (ct : CodeTable) :
    walk node depth x p ct = walk node' depth x p ct := by
  induction depth generalizing x p ct with
  | zero => rfl
  | succ depth ih =>
    obtain ⟨hnode, hchild⟩ := h x hx
    rw [walk, walk, ← hnode]
    cases hx : node[x] with
    | leaf sym w => rfl
    | internal l r w =>
      rw [hx] at hchild
      dsimp only
      rw [ih (hchild l (by simp)), ih (hchild r (by simp))]

theorem assignCodes_sameTree {t u : Tree} (h : SameTree t u) : assignCodes t = assignCodes u := by
  obtain ⟨node, root, count⟩ := u
  obtain ⟨rfl, n, hn, hbelow⟩ := h
  rw [assignCodes, assignCodes, ← (hbelow t.root hn).1]
  cases t.node[t.root] with
  | leaf sym w => rfl
  | internal l r w => exact walk_sameBelow hbelow _ hn _ _

/-- DECODE's walk meets only nodes on which the trees agree (44_decoder_bit_reader.md R322). -/
theorem decodeLoop_sameBelow {s u : State} {t t' : Tree} {n : Nat} (hib : ∀ o, s.ib o = u.ib o)
    (hroot : t.root = t'.root) (hn : t.root.val < n) (hbelow : SameBelow n t.node t'.node)
    (pay avail p emitted m : Nat) {cur : Fin 511} (hcur : cur.val < n) :
    s.decodeLoop t pay avail p emitted m cur = u.decodeLoop t' pay avail p emitted m cur := by
  induction avail generalizing p emitted m cur with
  | zero => cases m <;> rfl
  | succ avail ih =>
    cases m with
    | zero => rfl
    | succ m =>
      obtain ⟨hnode, hchild⟩ := hbelow cur hcur
      have hbit : s.readBit pay p = u.readBit pay p := by rw [State.readBit, State.readBit, hib]
      rw [State.decodeLoop, State.decodeLoop, hbit, ← hnode, ← hroot]
      refine bind_congr fun bit => ?_
      cases hx : t.node[cur] with
      | leaf sym w => simp only [ih _ _ _ hn]
      | internal l r w =>
        rw [hx] at hchild
        have hnext : (if bit then r else l).val < n := by
          cases bit
          · exact hchild l (by simp)
          · exact hchild r (by simp)
        dsimp only
        rw [← (hbelow _ hnext).1]
        cases t.node[if bit then r else l] with
        | leaf sym w => dsimp only; rw [ih _ _ _ hn]
        | internal l' r' w' => exact ih _ _ _ hnext

theorem decodePayload_sameTree {s u : State} {t t' : Tree} (hib : ∀ o, s.ib o = u.ib o) (h : SameTree t t')
    (hdr : Header) : s.decodePayload t hdr = u.decodePayload t' hdr := by
  obtain ⟨hroot, n, hn, hbelow⟩ := h
  rw [State.decodePayload, State.decodePayload, ← hroot]
  exact decodeLoop_sameBelow hib hroot hn hbelow _ _ _ _ _ hn

end Sys2Proof.Proofs
end

section
/-! ### What the block reads of two states that differ only in tables no rule may read -/

namespace Sys2Proof.Proofs

open Sys2Proof.Machine Sys2Proof.Safety

variable {s u : State}

theorem sameVisible_readByte (h : SameVisible s u) (a : Nat) : s.readByte a = u.readByte a := by
  rw [State.readByte, State.readByte, h.mem, h.params, h.draws]

theorem sameVisible_ib (h : SameVisible s u) (o : Nat) : s.ib o = u.ib o := by
  rw [State.ib, State.ib, h.params, sameVisible_readByte h]

theorem sameVisible_le32 (h : SameVisible s u) (o : Nat) : s.le32 o = u.le32 o := by
  simp only [State.le32, sameVisible_ib h]

theorem sameVisible_inputBytes (h : SameVisible s u) : s.inputBytes = u.inputBytes := by
  have hib : ∀ o n, s.ibytes o n = u.ibytes o n := fun o n => by
    induction n generalizing o with
    | zero => rfl
    | succ n ih => simp only [State.ibytes, sameVisible_ib h, ih]
  rw [State.inputBytes, State.inputBytes, h.range, hib]

theorem sameVisible_encodeInput (h : SameVisible s u) (hct : s.ct = u.ct) (i n : Nat) :
    s.encodeInput i n = u.encodeInput i n := by
  induction n generalizing i with
  | zero => rfl
  | succ n ih => simp only [State.encodeInput, sameVisible_ib h, h.range, hct, ih]

theorem sameVisible_parseHeader (h : SameVisible s u) (off len : Nat) :
    s.parseHeader off len = u.parseHeader off len := by
  have hentries : ∀ m r ft, s.parseEntries off len m r ft = u.parseEntries off len m r ft := fun m r ft => by
    induction m generalizing r ft with
    | zero => rfl
    | succ m ih => simp only [State.parseEntries, sameVisible_ib h, sameVisible_le32 h, ih]
  simp only [State.parseHeader, sameVisible_le32 h, hentries]

theorem sameVisible_busy (h : SameVisible s u) : s.status.busy = u.status.busy := congrArg Status.busy h.status

theorem sameVisible_checkTables (h : SameVisible s u) (mask : Word) : s.checkTables mask = u.checkTables mask := by
  rw [State.checkTables, State.checkTables, h.status]

theorem sameVisible_checkInput (h : SameVisible s u) : s.checkInput = u.checkInput := by
  rw [State.checkInput, State.checkInput, h.params, h.range]

theorem sameVisible_checkOutput (h : SameVisible s u) : s.checkOutput = u.checkOutput := by
  rw [State.checkOutput, State.checkOutput, h.params, h.range]

theorem sameVisible_checkNonEmpty (h : SameVisible s u) : s.checkNonEmpty = u.checkNonEmpty := by
  rw [State.checkNonEmpty, State.checkNonEmpty, h.range]

theorem sameVisible_checkEncoded (h : SameVisible s u) (bits bytes : Nat) :
    s.checkEncoded bits bytes = u.checkEncoded bits bytes := by
  rw [State.checkEncoded, State.checkEncoded, h.range]

theorem sameVisible_checkDecoded (h : SameVisible s u) (n : Word) : s.checkDecoded n = u.checkDecoded n := by
  rw [State.checkDecoded, State.checkDecoded, h.range]

theorem sameVisible_drawnBytes (h : SameVisible s u) (a n : Nat) : s.drawnBytes a n = u.drawnBytes a n :=
  List.ext_getElem (by simp) fun i hi hi' => by rw [drawnBytes_getElem, drawnBytes_getElem, h.draws]

theorem sameVisible_output (h : SameVisible s u) (bs : List Byte) : s.output bs = u.output bs := by
  rw [State.output, State.output, State.windowBase, State.windowBase, h.mem, h.range]

/-- QUERY reads FT and CT only where they are valid (42_code_assigner.md R256). -/
theorem sameVisible_queryRegs (h : SameVisible s u) (sym : Byte) : s.queryRegs sym = u.queryRegs sym := by
  have hpresent : s.queryPresent sym = u.queryPresent sym := by
    rw [State.queryPresent, State.queryPresent, ← h.status]
    cases hf : s.status.ftValid
    · rfl
    · rw [h.ft hf]
  have hbits : s.queryBits sym = u.queryBits sym := by
    rw [State.queryBits, State.queryBits, ← hpresent, ← h.status]
    cases hc : s.status.ctValid
    · simp
    · rw [h.ct hc]
  rw [State.queryRegs, State.queryRegs, ← hpresent, ← hbits]
  cases hp : s.queryPresent sym
  · rfl
  · rw [h.ft (Bool.and_elim_left hp)]

theorem sameVisible_csrRead (h : SameVisible s u) (r : Csr) : s.csrRead r = u.csrRead r := by
  cases r <;>
    simp only [State.csrRead, h.params, h.lastCmd, h.status, h.errs, h.irqEn, h.range, h.result, h.query]

theorem sameVisible_hostReadData (h : SameVisible s u) (size : AccessSize) (addr : Word) :
    s.hostReadData size addr = u.hostReadData size addr := by
  have hcsr : ∀ off, s.csrReadAt off = u.csrReadAt off := fun off => by
    simp only [State.csrReadAt, sameVisible_csrRead h]
  have hbytes : ∀ a n, s.readBytes a n = u.readBytes a n := fun a n => by
    induction n generalizing a with
    | zero => rfl
    | succ n ih => simp only [State.readBytes, sameVisible_readByte h, ih]
  simp only [State.hostReadData, State.region, h.params, h.status, hcsr, hbytes, sameVisible_drawnBytes h]

end Sys2Proof.Proofs
end

section
/-! ### Operations keep two such states alike -/

namespace Sys2Proof.Proofs

open Sys2Proof.Machine Sys2Proof.Safety

variable {s u : State}

theorem sameVisible_tick (h : SameVisible s u) : SameVisible s.tick u.tick :=
  { h with draws := congrArg (· + 1) h.draws }

theorem sameVisible_complete (h : SameVisible s u) : SameVisible s.complete u.complete :=
  { h with
    errs := rfl
    status := by rw [complete_status, complete_status, h.status]
    draws := congrArg (· + 1) h.draws }

theorem sameVisible_recordError (h : SameVisible s u) (e : ErrorCode) (info : Word) :
    SameVisible (s.recordError e info) (u.recordError e info) :=
  { h with
    errs := rfl
    status := by rw [recordError_status, recordError_status, h.status]
    draws := congrArg (· + 1) h.draws }

theorem sameVisible_drawWindow (h : SameVisible s u) : SameVisible s.drawWindow u.drawWindow :=
  { h with
    mem := by
      simp only [drawWindow_mem, State.windowBase, State.windowSize, h.mem, h.range, h.params,
        sameVisible_drawnBytes h] }

theorem sameVisible_discardResults (h : SameVisible s u) (window : Bool) :
    SameVisible (s.discardResults window) (u.discardResults window) where
  params := by simpa using h.params
  lastCmd := by simpa using h.lastCmd
  status := by simp [h.status]
  errs := by simpa using h.errs
  irqEn := by simpa using h.irqEn
  range := by simpa using h.range
  result := by simp
  query := by simpa using h.query
  mem := by rw [discardResults_mem, discardResults_mem, (sameVisible_drawWindow h).mem, h.mem]
  agenda := by simpa using h.agenda
  reads := by simpa using h.reads
  draws := by simpa using h.draws
  ft := by simp [Status.clearValid]
  ct := by simp [Status.clearValid]
  hdr := by simp [Status.clearValid]

theorem sameVisible_raiseError (h : SameVisible s u) (window : Bool) (e : ErrorCode) (info : Word) :
    SameVisible (s.raiseError window e info) (u.raiseError window e info) := by
  unfold State.raiseError
  split
  · exact sameVisible_recordError h e info
  · exact sameVisible_recordError (sameVisible_discardResults h window) e info

theorem sameVisible_dropWrite (h : SameVisible s u) : SameVisible s.dropWrite u.dropWrite :=
  { h with status := by rw [dropWrite_status, dropWrite_status, h.status] }

theorem sameVisible_withAgenda (h : SameVisible s u) (agenda : List Event) :
    SameVisible { s with agenda := agenda } { u with agenda := agenda } :=
  { h with agenda := rfl }

theorem sameVisible_writeRange (h : SameVisible s u) {r r' : RangeRegs} (hr : r = r') :
    SameVisible (s.writeRange r) (u.writeRange r') := by
  subst hr
  rw [State.writeRange, State.writeRange, ← sameVisible_busy h]
  split
  · exact sameVisible_dropWrite h
  · exact { h with range := rfl }

theorem sameVisible_abandon (h : SameVisible s u) : SameVisible s.abandon u.abandon := by
  rw [State.abandon, State.abandon, ← sameVisible_busy h, ← h.lastCmd]
  split
  · split
    · split
      · exact sameVisible_drawWindow h
      · exact h
    · exact h
  · exact h

theorem sameVisible_softReset (h : SameVisible s u) : SameVisible s.softReset u.softReset where
  params := h.params
  lastCmd := rfl
  status := rfl
  errs := rfl
  irqEn := rfl
  range := rfl
  result := rfl
  query := rfl
  mem := h.mem
  agenda := h.agenda
  reads := h.reads
  draws := h.draws
  ft := nofun
  ct := nofun
  hdr := nofun

theorem sameVisible_powerOnReset (h : SameVisible s u) : SameVisible s.powerOnReset u.powerOnReset :=
  { sameVisible_softReset h with mem := rfl }

theorem sameVisible_csrWrite (h : SameVisible s u) (v : Word) (r : Csr) :
    SameVisible (s.csrWrite v r) (u.csrWrite v r) := by
  cases r with
  | ctrl =>
    simp only [State.csrWrite]
    split
    · exact sameVisible_softReset (sameVisible_abandon h)
    · exact h
  | cmd =>
    simp only [State.csrWrite, ← sameVisible_busy h]
    split
    · exact sameVisible_dropWrite h
    · exact { h with
        lastCmd := rfl
        errs := rfl
        status := by rw [accept_status, accept_status, h.status] }
  | status => exact { h with status := congrArg (Status.writeOneToClear · v) h.status }
  | irqEn => exact { h with irqEn := rfl }
  | inOff | inLen | outOff | outCap => exact sameVisible_writeRange h (by rw [h.range])
  | _ => exact h

theorem sameVisible_bufferWrite (h : SameVisible s u) (size : AccessSize) (a off limit : Nat) (lanes : BitVec 4)
    (data : Word) :
    SameVisible (s.bufferWrite size a off limit lanes data) (u.bufferWrite size a off limit lanes data) := by
  rw [State.bufferWrite, State.bufferWrite, ← sameVisible_busy h]
  split
  · exact sameVisible_dropWrite h
  · split
    · exact { h with mem := congrArg (storeLanes a lanes data 0 (accessBytes size)) h.mem }
    · exact h

theorem sameVisible_hostWriteEffect (h : SameVisible s u) (size : AccessSize) (addr : Word) (lanes : BitVec 4)
    (data : Word) : SameVisible (s.hostWriteEffect size addr lanes data) (u.hostWriteEffect size addr lanes data) := by
  have hregion : s.region addr.toNat = u.region addr.toNat := by rw [State.region, State.region, h.params]
  simp only [State.hostWriteEffect, ← hregion, ← h.params]
  cases s.region addr.toNat with
  | csr off =>
    dsimp only
    split
    · unfold State.csrWriteAt
      cases Csr.ofOffset off with
      | some r => exact sameVisible_csrWrite h data r
      | none => exact h
    · exact h
  | ibuf off => exact sameVisible_bufferWrite h _ _ _ _ _ _
  | obuf off => exact sameVisible_bufferWrite h _ _ _ _ _ _
  | unmapped => exact h

theorem sameVisible_hostAccess (h : SameVisible s u) (a : HostAccess) :
    SameOutcome (hostAccess a s) (hostAccess a u) := by
  cases a with
  | read size addr =>
    simp only [Machine.hostAccess, ← sameVisible_hostReadData h]
    cases s.hostReadData size addr with
    | ok d => exact sameVisible_tick (s := { s with reads := d :: s.reads }) { h with reads := congrArg (d :: ·) h.reads }
    | error f => exact rfl
  | write size addr lanes data => exact sameVisible_tick (sameVisible_hostWriteEffect h size addr lanes data)

end Sys2Proof.Proofs
end

section
/-! ### Tables that are not valid are unobservable -/

namespace Sys2Proof.Proofs

open Sys2Proof.Machine Sys2Proof.Safety

/-- Two computations of a command that end alike: with states that no HOST can tell apart, or stopped for one reason. -/
def SameRun : Run State → Run State → Prop
  | .ok s, .ok u => SameVisible s u
  | .error e, .error f => e = f
  | _, _ => False

theorem SameRun.bind {α : Type} {x y : Run α} {f g : α → Run State} (hxy : x = y)
    (hfg : ∀ a, x = .ok a → SameRun (f a) (g a)) : SameRun (x >>= f) (y >>= g) := by
  subst hxy
  cases x with
  | ok a => exact hfg a rfl
  | error e => exact rfl

variable {s u : State}

theorem SameRun.finish (h : SameVisible s u) (i : Instr) {r q : Run State} (hrq : SameRun r q) :
    SameOutcome (finish i s r) (finish i u q) := by
  rcases r with stop | t <;> rcases q with stop' | v
  · obtain rfl : stop = stop' := hrq
    cases stop with
    | error e info =>
      rw [finish_error, finish_error]
      exact sameVisible_raiseError h _ e info
    | fault f => exact rfl
  · exact hrq.elim
  · exact hrq.elim
  · rw [finish_ok, finish_ok]
    exact sameVisible_complete hrq

/-! #### The updates of each command -/

theorem sameVisible_scanned (h : SameVisible s u) (bs : List Byte) : SameVisible (s.scanned bs) (u.scanned bs) :=
  { h with
    status := by simp only [State.scanned, h.status]
    result := by simp only [State.scanned, h.range]
    ft := fun _ => rfl
    ct := nofun
    hdr := nofun }

theorem sameVisible_built (h : SameVisible s u) : SameVisible s.built u.built :=
  { h with
    status := by simp only [State.built, h.status]
    result := by simp only [State.built, h.result]
    ct := nofun }

theorem sameVisible_assigned (h : SameVisible s u) (ht : SameTree s.tree u.tree) :
    SameVisible s.assigned u.assigned :=
  have hct := assignCodes_sameTree ht
  { h with
    status := by simp only [State.assigned, h.status]
    result := by simp only [State.assigned, h.result, hct]
    ct := fun _ => hct }

theorem sameVisible_encoded (h : SameVisible s u) (hct : s.ct = u.ct) (bs : List Byte) :
    SameVisible (s.encoded bs) (u.encoded bs) :=
  { h with
    mem := by simp only [State.encoded, hct, sameVisible_output h]
    result := by simp only [State.encoded, hct, h.result, h.range] }

theorem sameVisible_parsed (h : SameVisible s u) (ft : FreqTable) (hdr : Header) :
    SameVisible (s.parsed ft hdr) (u.parsed ft hdr) :=
  { h with
    status := by simp only [State.parsed, h.status]
    result := rfl
    ft := fun _ => rfl
    ct := nofun
    hdr := fun _ => rfl }

theorem sameVisible_decoded (h : SameVisible s u) (hhdr : s.hdr = u.hdr) (out : List Byte) :
    SameVisible (s.decoded out) (u.decoded out) :=
  { h with
    mem := sameVisible_output h out
    result := by simp only [State.decoded, hhdr, h.result] }

theorem sameVisible_compressed (h : SameVisible s u) {bs : List Byte} (hbs : FreqTableOk (scanBytes bs)) :
    SameVisible (s.compressed bs) (u.compressed bs) :=
  have hct := assignCodes_sameTree (sameTree_buildTree hbs s.tree u.tree)
  { h with
    mem := by simp only [State.compressed, State.freshCodes, hct, sameVisible_output h]
    status := by simp only [State.compressed, h.status]
    result := by simp only [State.compressed, State.freshCodes, hct, h.range]
    ft := fun _ => rfl
    ct := fun _ => hct
    hdr := nofun }

theorem sameVisible_decompressed (h : SameVisible s u) (ft : FreqTable) (hdr : Header) (out : List Byte) :
    SameVisible (s.decompressed ft hdr out) (u.decompressed ft hdr out) :=
  { h with
    mem := sameVisible_output h out
    status := by simp only [State.decompressed, h.status]
    result := rfl
    ft := fun _ => rfl
    ct := nofun
    hdr := fun _ => rfl }

/-! #### The commands -/

/-- Where NODE is valid it is a tree of FT, so the two states have the same (10_state.md R62, R65). -/
theorem sameTree_of_inv (hs : Inv s) (hu : Inv u) (h : SameVisible s u) (ht : s.status.treeValid = true) :
    SameTree s.tree u.tree := by
  obtain ⟨-, -, htf, -, -⟩ := hs.status
  obtain ⟨hft, hstree, -, -⟩ := hs.tables
  obtain ⟨-, hutree, -, -⟩ := hu.tables
  obtain ⟨old, hold⟩ := hstree ht
  obtain ⟨old', hold'⟩ := hutree (h.status ▸ ht)
  rw [hold, hold', ← h.ft (htf ht)]
  exact sameTree_buildTree (hft (htf ht)).1 old old'

theorem sameOutcome_execScan (h : SameVisible s u) : SameOutcome (execScan s) (execScan u) :=
  SameRun.finish h .scan <|
    .bind (sameVisible_checkInput h) fun _ _ => .bind (sameVisible_checkNonEmpty h) fun _ _ =>
    .bind (sameVisible_inputBytes h) fun bs _ => sameVisible_scanned h bs

theorem sameOutcome_execBuild (h : SameVisible s u) : SameOutcome (execBuild s) (execBuild u) :=
  SameRun.finish h .build <| .bind (sameVisible_checkTables h _) fun _ _ => sameVisible_built h

theorem sameOutcome_execAssign (hs : Inv s) (hu : Inv u) (h : SameVisible s u) :
    SameOutcome (execAssign s) (execAssign u) :=
  SameRun.finish h .assign <| .bind (sameVisible_checkTables h _) fun _ htab =>
    have htree := (missing_assign_eq_zero.mp (checkTables_eq_ok.mp htab)).2
    sameVisible_assigned h (sameTree_of_inv hs hu h htree)

theorem sameOutcome_execEncode (h : SameVisible s u) : SameOutcome (execEncode s) (execEncode u) :=
  SameRun.finish h .encode <| .bind (sameVisible_checkTables h _) fun _ htab =>
    have hct := h.ct (missing_encode_eq_zero.mp (checkTables_eq_ok.mp htab)).2.2
    .bind (sameVisible_checkInput h) fun _ _ => .bind (sameVisible_checkOutput h) fun _ _ =>
    .bind (sameVisible_checkNonEmpty h) fun _ _ =>
    .bind (by rw [h.range, sameVisible_encodeInput h hct]) fun bs _ =>
    .bind (by rw [hct, sameVisible_checkEncoded h]) fun _ _ => sameVisible_encoded h hct bs

theorem sameOutcome_execParse (h : SameVisible s u) : SameOutcome (execParse s) (execParse u) :=
  SameRun.finish h .parse <| .bind (sameVisible_checkInput h) fun _ _ =>
    .bind (by rw [h.range, sameVisible_parseHeader h]) fun (ft, hdr) _ => sameVisible_parsed h ft hdr

theorem sameOutcome_execDecode (hs : Inv s) (hu : Inv u) (h : SameVisible s u) :
    SameOutcome (execDecode s) (execDecode u) := by
  refine SameRun.finish h .decode (.bind (sameVisible_checkTables h _) fun _ htab => ?_)
  obtain ⟨-, htree, hvalid⟩ := missing_decode_eq_zero.mp (checkTables_eq_ok.mp htab)
  have hhdr := h.hdr hvalid
  have hrun : s.decodePayload s.tree s.hdr = u.decodePayload u.tree u.hdr := by
    rw [hhdr, decodePayload_sameTree (sameVisible_ib h) (sameTree_of_inv hs hu h htree)]
  exact .bind (sameVisible_checkOutput h) fun _ _ => .bind (by rw [hhdr, sameVisible_checkDecoded h]) fun _ _ =>
    .bind hrun fun out _ => sameVisible_decoded h hhdr out

theorem sameOutcome_execCompress (h : SameVisible s u) : SameOutcome (execCompress s) (execCompress u) := by
  refine SameRun.finish h .compress ?_
  refine .bind (sameVisible_checkInput h) fun _ hin => .bind (sameVisible_checkOutput h) fun _ _ =>
    .bind (sameVisible_checkNonEmpty h) fun _ hne => .bind (sameVisible_inputBytes h) fun bs hbs => ?_
  have hholds : InputHolds s bs := ⟨(ibytes_eq_ok.mp hbs).1, checkInput_eq_ok.mp hin, (ibytes_eq_ok.mp hbs).2⟩
  have hft := freqTableOk_scanBytes (inputHolds_ne_nil hholds (checkNonEmpty_eq_ok.mp hne))
    (inputHolds_length_lt hholds)
  have hct := assignCodes_sameTree (sameTree_buildTree hft s.tree u.tree)
  exact .bind (by simp only [hct, sameVisible_checkEncoded h]) fun _ _ => sameVisible_compressed h hft

theorem sameOutcome_execDecompress (h : SameVisible s u) : SameOutcome (execDecompress s) (execDecompress u) := by
  refine SameRun.finish h .decompress ?_
  refine .bind (sameVisible_checkInput h) fun _ _ => .bind (sameVisible_checkOutput h) fun _ _ =>
    .bind (by rw [h.range, sameVisible_parseHeader h]) fun (ft, hdr) hparse => ?_
  have htree := sameTree_buildTree (parseHeader_eq_ok hparse).1 s.tree u.tree
  exact .bind (sameVisible_checkDecoded h _) fun _ _ =>
    .bind (decodePayload_sameTree (sameVisible_ib h) htree hdr) fun out _ => sameVisible_decompressed h ft hdr out

theorem sameOutcome_exec (hs : Inv s) (hu : Inv u) (h : SameVisible s u) (i : Instr) :
    SameOutcome (exec i s) (exec i u) := by
  cases i with
  | nop => exact sameVisible_complete h
  | compress => exact sameOutcome_execCompress h
  | decompress => exact sameOutcome_execDecompress h
  | scan => exact sameOutcome_execScan h
  | build => exact sameOutcome_execBuild h
  | assign => exact sameOutcome_execAssign hs hu h
  | encode => exact sameOutcome_execEncode h
  | parse => exact sameOutcome_execParse h
  | decode => exact sameOutcome_execDecode hs hu h
  | query sym =>
    have hq : SameVisible { s with query := s.queryRegs sym } { u with query := u.queryRegs sym } :=
      { h with query := sameVisible_queryRegs h sym }
    exact sameVisible_complete hq

/-! #### The events -/

theorem sameOutcome_engineTurn (hs : Inv s) (hu : Inv u) (h : SameVisible s u) :
    SameOutcome (engineTurn s) (engineTurn u) := by
  rw [engineTurn, engineTurn, ← sameVisible_busy h, ← h.lastCmd]
  split
  · split
    · next i _ => exact sameOutcome_exec hs hu h i
    · rw [State.illegalCommand, State.illegalCommand, ← h.lastCmd]
      exact sameVisible_raiseError h _ _ _
  · exact h

theorem sameOutcome_perform (hs : Inv s) (hu : Inv u) (h : SameVisible s u) (e : Event) :
    SameOutcome (perform e s) (perform e u) := by
  cases e with
  | access a => exact sameVisible_hostAccess h a
  | wait =>
    exact { h with
      reads := by simp only [waitTurn, tick_reads, sameVisible_csrRead h, h.reads]
      agenda := by simp only [waitTurn, tick_agenda, sameVisible_busy h, h.agenda]
      draws := congrArg (· + 1) h.draws }
  | engine => exact sameOutcome_engineTurn hs hu h
  | powerOn => exact sameVisible_tick (sameVisible_powerOnReset h)

/-- Settles O58: every read a step makes of a table stands behind its VALID bit, and where NODE is valid a walk from
ROOT meets only nodes that FT determines. -/
theorem invalidTablesAreUnobservable : Obligations.InvalidTablesAreUnobservable := by
  unfold Obligations.InvalidTablesAreUnobservable
  intro s u hs hu h
  cases ha : s.agenda with
  | nil =>
    rw [step_nil ha, step_nil (h.agenda ▸ ha)]
    exact sameOutcome_engineTurn hs hu h
  | cons e rest =>
    rw [step_cons ha, step_cons (h.agenda ▸ ha)]
    exact sameOutcome_perform (inv_withAgenda hs rest) (inv_withAgenda hu rest) (sameVisible_withAgenda h rest) e

end Sys2Proof.Proofs
end

section
/-! ### What every command leaves alone -/

namespace Sys2Proof.Proofs

open Sys2Proof.Machine Sys2Proof.Safety

/-! #### The updates of a command -/

/-- No command's own updates touch what belongs to the HOST, or the model's own fields. -/
theorem Updates.host_eq {s u : State} {i : Instr} (h : Updates s i u) :
    u.params = s.params ∧ u.lastCmd = s.lastCmd ∧ u.irqEn = s.irqEn ∧ u.range = s.range ∧
      u.status.busyWr = s.status.busyWr ∧ u.agenda = s.agenda ∧ u.reads = s.reads ∧ u.draws = s.draws := by
  cases h <;> exact ⟨rfl, rfl, rfl, rfl, rfl, rfl, rfl, rfl⟩

theorem Updates.query_eq {s u : State} {i : Instr} (h : Updates s i u) (hi : ∀ sym, i ≠ .query sym) :
    u.query = s.query := by
  cases h with
  | query sym => exact absurd rfl (hi sym)
  | _ => rfl

theorem Updates.ft_eq {s u : State} {i : Instr} (h : Updates s i u)
    (hi : i ∉ [Instr.scan, .parse, .compress, .decompress]) : u.ft = s.ft := by
  cases h with
  | scan | parse | compress | decompress => simp at hi
  | _ => rfl

theorem Updates.tree_eq {s u : State} {i : Instr} (h : Updates s i u)
    (hi : i ∉ [Instr.build, .compress, .decompress]) : u.tree = s.tree := by
  cases h with
  | build | compress | decompress => simp at hi
  | _ => rfl

theorem Updates.ct_eq {s u : State} {i : Instr} (h : Updates s i u) (hi : i ∉ [Instr.assign, .compress]) :
    u.ct = s.ct := by
  cases h with
  | assign | compress => simp at hi
  | _ => rfl

theorem Updates.hdr_eq {s u : State} {i : Instr} (h : Updates s i u) (hi : i ∉ [Instr.parse, .decompress]) :
    u.hdr = s.hdr := by
  cases h with
  | parse | decompress => simp at hi
  | _ => rfl

theorem Updates.mem_eq {s u : State} {i : Instr} (h : Updates s i u)
    (hi : i ∉ [Instr.encode, .decode, .compress, .decompress]) : u.mem = s.mem := by
  cases h with
  | encode | decode | compress | decompress => simp at hi
  | _ => rfl

/-- Settles O38: a success is the command's own updates and the completion registers, an error the error record. -/
theorem commandsLeaveTheRestAlone : Obligations.CommandsLeaveTheRestAlone := by
  unfold Obligations.CommandsLeaveTheRestAlone
  intro i s t ht
  rcases exec_next ht with ⟨u, hu, rfl⟩ | ⟨e, info, -, rfl⟩
  · obtain ⟨hparams, hcmd, hirq, hrange, hbusyWr, hagenda, hreads, hdraws⟩ := hu.host_eq
    exact ⟨hparams, hcmd, hirq, hrange, hbusyWr, hagenda, hreads, congrArg (· + 1) hdraws, hu.query_eq, hu.ft_eq,
      hu.tree_eq, hu.ct_eq, hu.hdr_eq⟩
  · have hbusyWr : (if e.isPreCheck then s.status else s.status.clearValid).busyWr = s.status.busyWr := by
      split <;> rfl
    simp [hbusyWr]

/-! #### The output window -/

/-- An error is never reported with code 0 (60_exceptions.md R400). -/
theorem code_ne_zero (e : ErrorCode) : e.code ≠ 0 := by cases e <;> decide

/-- Exactly ENCODE, DECODE, COMPRESS and DECOMPRESS write OBUF (20_memory.md R110). -/
theorem writesObuf_iff (i : Instr) : writesObuf i = true ↔ i ∈ [Instr.encode, .decode, .compress, .decompress] := by
  cases i <;> simp [writesObuf]

/-- A success stores OUT_LEN bytes, no more than OUT_CAP, from OBUF[OUT_OFF] up (20_memory.md R104, R110). -/
theorem exec_success_output {i : Instr} {s t : State} (h : exec i s = .next t) (h0 : t.errs.code = 0)
    (hi : i ∈ [Instr.encode, .decode, .compress, .decompress]) :
    ∃ bs, t.mem = s.output bs ∧ t.result.outLen.toNat = bs.length ∧ bs.length ≤ s.range.outCap.toNat := by
  have hcap := s.range.outCap.isLt
  have herr : ∀ w e info, t ≠ s.raiseError w e info := by
    rintro w e info rfl
    rw [raiseError_errs] at h0
    exact code_ne_zero e h0
  simp only [List.mem_cons, List.not_mem_nil, or_false] at hi
  rcases hi with rfl | rfl | rfl | rfl
  · rcases execEncode_next h with ⟨bs, -, -, -, -, -, -, hlen, rfl⟩ | ⟨e, info, -, ht⟩
    · exact ⟨_, rfl, by simp [State.encoded]; omega, by rwa [pack_length]⟩
    · exact absurd ht (herr _ _ _)
  · rcases execDecode_next h with ⟨out, -, -, hlen, hout, -, rfl⟩ | ⟨e, info, -, ht⟩
    · exact ⟨out, rfl, hout.symm, hout.trans_le hlen⟩
    · exact absurd ht (herr _ _ _)
  · rcases execCompress_next h with ⟨bs, _, _, _, hin, -, -, hfresh, -, hlen, rfl⟩ | ⟨e, info, -, ht⟩
    · cases hfresh
      have hart := artifact_scanBytes_length (assignCodes (buildTree (scanBytes bs) s.tree)) (inputHolds_length_lt hin)
      refine ⟨_, rfl, ?_, hart.trans_le hlen⟩
      rw [hart]
      exact Nat.mod_eq_of_lt (hlen.trans_lt hcap)
    · exact absurd ht (herr _ _ _)
  · rcases execDecompress_next h with ⟨ft, hdr, out, -, -, -, hlen, hout, -, rfl⟩ | ⟨e, info, -, ht⟩
    · exact ⟨out, rfl, hout.symm, hout.trans_le hlen⟩
    · exact absurd ht (herr _ _ _)

/-- The window that is drawn reaches no further than OUT_CAP bytes (10_state.md R44). -/
theorem read_drawWindow_outside {s : State} {a : Nat}
    (ha : a < s.windowBase ∨ s.windowBase + s.range.outCap.toNat ≤ a) : s.drawWindow.mem.read a = s.mem.read a := by
  refine read_store_outside (ha.imp_right fun h => ?_)
  rw [drawnBytes_length, State.windowSize]
  omega

/-- Settles O39: a success stores its output, an execution error draws the window, nothing else touches memory. -/
theorem commandsWriteOnlyTheOutputWindow : Obligations.CommandsWriteOnlyTheOutputWindow := by
  unfold Obligations.CommandsWriteOnlyTheOutputWindow
  intro i s t ht
  have hquiet : i ∉ [Instr.encode, .decode, .compress, .decompress] → t.mem = s.mem := fun hi => by
    rcases exec_next ht with ⟨u, hu, rfl⟩ | ⟨e, info, -, rfl⟩
    · exact hu.mem_eq hi
    · rw [← writesObuf_iff, Bool.not_eq_true] at hi
      rw [raiseError_mem, hi, Bool.and_false, if_neg Bool.false_ne_true]
  refine ⟨hquiet, fun h0 hi a ha => ?_, fun a ha => ?_⟩
  · obtain ⟨bs, hmem, hlen, -⟩ := exec_success_output ht h0 hi
    rw [hmem]
    exact output_read_outside (by rwa [hlen] at ha)
  · by_cases hi : i ∈ [Instr.encode, .decode, .compress, .decompress]
    · by_cases h0 : t.errs.code = 0
      · obtain ⟨bs, hmem, -, hcap⟩ := exec_success_output ht h0 hi
        rw [hmem]
        exact output_read_outside (ha.imp_right fun h => by rw [State.windowBase]; omega)
      · rcases exec_next ht with ⟨u, -, rfl⟩ | ⟨e, info, -, rfl⟩
        · exact absurd rfl h0
        · rw [raiseError_mem]
          split
          · exact read_drawWindow_outside ha
          · rfl
    · rw [hquiet hi]

/-! #### The VALID bits -/

/-- The pre-check errors are those with the codes 7, 8 and 9 (60_exceptions.md R400, R421). -/
theorem isPreCheck_iff (e : ErrorCode) : e.isPreCheck = true ↔ e.code ∈ [7, 8, 9] := by
  cases e <;> decide

/-- Settles O40: the updates of each command are its row, a pre-check error keeps STATUS and any other error clears
the VALID bits. -/
theorem validBitsFollowTheTable : Obligations.ValidBitsFollowTheTable := by
  unfold Obligations.ValidBitsFollowTheTable
  intro i s t ht
  rcases exec_next ht with ⟨u, hu, rfl⟩ | ⟨e, info, -, rfl⟩
  · refine ⟨fun _ => ?_, fun h => absurd h (by simp), fun h => absurd rfl h⟩
    cases hu <;> rfl
  · rw [raiseError_errs, raiseError_status]
    refine ⟨fun h => absurd h (code_ne_zero e), fun h => ?_, fun _ h => ?_⟩
    · rw [if_pos ((isPreCheck_iff e).mpr h)]
    · rw [if_neg (mt (isPreCheck_iff e).mp h)]
      rfl

end Sys2Proof.Proofs
end

section
/-! ### Reads of bytes nobody has written -/

namespace Sys2Proof.Proofs

open Sys2Proof.Machine Sys2Proof.Safety

theorem readByte_unwritten_fault {s : State} {a : Nat} (hm : s.mem.read a = none)
    (hf : s.params.unwrittenRead = .fault) : s.readByte a = .error (.unwrittenRead a) := by
  rw [State.readByte, hm]
  dsimp only
  rw [hf]

theorem readByte_unwritten_draw {s : State} {a : Nat} (hm : s.mem.read a = none)
    (hd : s.params.unwrittenRead = .draw) : s.readByte a = .ok (Config.drawByte s.draws a) := by
  rw [State.readByte, hm]
  dsimp only
  rw [hd]

theorem ib_unwritten_fault {s : State} {o : Nat} (ho : o < s.params.ibufSize.toNat)
    (hm : s.mem.read (ibufBase + o) = none) (hf : s.params.unwrittenRead = .fault) :
    s.ib o = .error (.fault (.unwrittenRead (ibufBase + o))) := by
  rw [State.ib, if_pos ho, readByte_unwritten_fault hm hf]

/-- One byte read as a data word stands in bits 7:0 (20_memory.md R107). -/
theorem leData_singleton (b : Byte) : leData [b] = b.setWidth 32 := by
  simp [leData, BitVec.ofNat_toNat]

/-- A one-byte HOST read of IBUF, or of OBUF while idle, is the read of that byte (20_memory.md R105, R115). -/
theorem hostReadData_one {s : State} {a : Word} (hp : ParamsOk s.params)
    (ha : (ibufBase ≤ a.toNat ∧ a.toNat < ibufBase + s.params.ibufSize.toNat) ∨
      (obufBase ≤ a.toNat ∧ a.toNat < obufBase + s.params.obufSize.toNat ∧ s.status.busy = false)) :
    s.hostReadData .one a = (s.readByte a.toNat).map (BitVec.setWidth 32) := by
  have hbytes : (do let bs ← s.readBytes a.toNat 1; return leData bs) =
      (s.readByte a.toNat).map (BitVec.setWidth 32) := by
    rw [State.readBytes]
    cases s.readByte a.toNat with
    | ok b => exact congrArg Except.ok (leData_singleton b)
    | error f => rfl
  rcases ha with ⟨hlo, hhi⟩ | ⟨hlo, hhi, hidle⟩
  · have hok : bufferAccessOk .one a.toNat (a.toNat - ibufBase) s.params.ibufSize.toNat = true := by
      simp [bufferAccessOk, accessBytes, Nat.mod_one]
      omega
    simp only [State.hostReadData, region_ibuf hlo hhi, hok, if_true]
    exact hbytes
  · have hok : bufferAccessOk .one a.toNat (a.toNat - obufBase) s.params.obufSize.toNat = true := by
      simp [bufferAccessOk, accessBytes, Nat.mod_one]
      omega
    simp only [State.hostReadData, region_obuf hp hlo hhi, hok, hidle, if_true, if_false, Bool.false_eq_true]
    exact hbytes

/-- A run of reads faults at its first unwritten byte (10_state.md R67). -/
theorem ibytes_fault {s : State} {o n x : Nat} (hf : s.params.unwrittenRead = .fault) (hox : o ≤ x) (hx : x < o + n)
    (hin : o + n ≤ s.params.ibufSize.toNat) (hwritten : ∀ y, o ≤ y → y < x → s.mem.read (ibufBase + y) ≠ none)
    (hm : s.mem.read (ibufBase + x) = none) :
    s.ibytes o n = .error (.fault (.unwrittenRead (ibufBase + x))) := by
  induction n generalizing o with
  | zero => omega
  | succ n ih =>
    rw [State.ibytes]
    rcases hox.eq_or_lt with rfl | hlt
    · rw [ib_unwritten_fault (by omega) hm hf]
      rfl
    · obtain ⟨b, hb⟩ := Option.ne_none_iff_exists'.mp (hwritten o le_rfl hlt)
      rw [ib_eq_ok.mpr ⟨by omega, .inl hb⟩, ih hlt (by omega) (by omega) fun y hy => hwritten y (by omega)]
      rfl

/-- SCAN faults at the first byte of its input that nobody has written (40_frequency_scanner.md R201). -/
theorem execScan_fault {s : State} {x : Nat} (hf : s.params.unwrittenRead = .fault) (hox : s.range.inOff.toNat ≤ x)
    (hx : x < s.range.inOff.toNat + s.range.inLen.toNat)
    (hin : s.range.inOff.toNat + s.range.inLen.toNat ≤ s.params.ibufSize.toNat)
    (hwritten : ∀ y, s.range.inOff.toNat ≤ y → y < x → s.mem.read (ibufBase + y) ≠ none)
    (hm : s.mem.read (ibufBase + x) = none) : execScan s = .fault (.unwrittenRead (ibufBase + x)) := by
  have hne : s.range.inLen ≠ 0 := fun h0 => by
    rw [h0] at hx
    exact absurd hx (by simpa using hox)
  rw [execScan, checkInput_eq_ok.mpr hin, checkNonEmpty_eq_ok.mpr hne, State.inputBytes,
    ibytes_fault hf hox hx hin hwritten hm]
  rfl

/-- Settles O50: the HOST and the ENGINE read through `readByte`, which faults or draws. -/
theorem unwrittenBytesFaultOrAreFree : Obligations.UnwrittenBytesFaultOrAreFree := by
  unfold Obligations.UnwrittenBytesFaultOrAreFree
  refine ⟨fun s a hp ha hm => ⟨fun hf => ?_, fun hd => ?_⟩, fun s o ho hm => ⟨fun hd => ?_, fun hf hlo hhi hin hw => ?_⟩⟩
  · rw [hostAccess, hostReadData_one hp ha, readByte_unwritten_fault hm hf]
    rfl
  · rw [hostAccess, hostReadData_one hp ha, readByte_unwritten_draw hm hd]
    rfl
  · exact ib_eq_ok.mpr ⟨ho, .inr ⟨hm, hd, rfl⟩⟩
  · exact execScan_fault hf hlo hhi hin hw hm

end Sys2Proof.Proofs
end

section
/-! ### The registers the HOST sees -/

namespace Sys2Proof.Proofs

open Sys2Proof.Machine Sys2Proof.Safety

/-! #### Reads -/

/-- Settles O47, by the inversion of a HOST read. -/
theorem hostReadsChangeNothing : Obligations.HostReadsChangeNothing := by
  unfold Obligations.HostReadsChangeNothing
  intro s t size a h
  obtain ⟨d, -, ht⟩ := hostAccess_read_next h
  exact ⟨d, ht⟩

/-- The data of a four-byte read of the CSR window: 0 where it is not aligned (20_memory.md R103). -/
def csrReadWord (s : State) (a : Word) : Word := if csrAccessOk .four a.toNat then s.csrReadAt a.toNat else 0

theorem hostAccess_read_csr {s : State} {a : Word} (ha : a.toNat < 0x1000) :
    hostAccess (.read .four a) s = .next { s with reads := csrReadWord s a :: s.reads, draws := s.draws + 1 } := by
  simp only [hostAccess, State.hostReadData, region_csr ha]
  rfl

/-- The STATUS word has eight bits (10_state.md R37). -/
theorem status_toWord_lt (st : Status) : st.toWord.toNat < 256 := by
  obtain ⟨a, b, c, d, e, f, g, h⟩ := st
  revert a b c d e f g h
  decide

/-- The bits of the IRQ_EN word (10_state.md R40). -/
theorem irqEn_toWord (e : IrqEnable) :
    e.toWord.getLsbD 0 = e.doneEn ∧ e.toWord.getLsbD 1 = e.errEn ∧ e.toWord.toNat < 4 := by
  obtain ⟨d, r⟩ := e
  revert d r
  decide

/-- The eight words of the queried code stand from 0x04C on (10_state.md R54). -/
theorem csrReadWord_qCode (s : State) (j : Fin 8) :
    csrReadWord s (BitVec.ofNat 32 (0x04C + 4 * j.val)) = s.query.code[j] := by
  have hoff : ∀ j : Fin 8, (BitVec.ofNat 32 (0x04C + 4 * j.val)).toNat % 4 = 0 ∧
      Csr.ofOffset (BitVec.ofNat 32 (0x04C + 4 * j.val)).toNat = some (.qCode j) := by decide
  obtain ⟨h4, hreg⟩ := hoff j
  rw [csrReadWord, if_pos (by simp [csrAccessOk]), State.csrReadAt, hreg]
  rfl

/-- Settles O44: each offset of the map selects its register, and `csrRead` says what that returns. -/
theorem registersReadAtTheirOffsets : Obligations.RegistersReadAtTheirOffsets := by
  unfold Obligations.RegistersReadAtTheirOffsets
  intro s
  obtain ⟨h0, h1, h2, h3, h4, h5, h6, h7⟩ := toWord_getLsbD s.status
  obtain ⟨hdone, herr, hlt⟩ := irqEn_toWord s.irqEn
  have hnarrow : ∀ {n : Nat} (x : BitVec n), n ≤ 32 → (x.setWidth 32).toNat = x.toNat :=
    fun _ hn => BitVec.toNat_setWidth_of_le hn
  exact ⟨csrReadWord s, fun a ha => hostAccess_read_csr ha, rfl, rfl, rfl, h0, h1, h2, h3, h4, h5, h6, h7,
    status_toWord_lt s.status, hnarrow s.errs.code (by decide), rfl, hdone, herr, hlt, rfl, rfl, rfl, rfl, rfl,
    hnarrow s.result.symCount (by decide), rfl, rfl, hnarrow s.result.maxLen (by decide), rfl, rfl,
    hnarrow s.query.info (by decide), csrReadWord_qCode s, rfl, rfl⟩

/-! #### Writes -/

/-- The registers a HOST write can act on (10_state.md R33). -/
def Writable (r : Csr) : Prop := r ∈ [Csr.ctrl, .cmd, .status, .irqEn, .inOff, .inLen, .outOff, .outCap]

theorem csrWrite_readOnly {r : Csr} (h : ¬Writable r) (s : State) (v : Word) : s.csrWrite v r = s := by
  cases r with
  | ctrl | cmd | status | irqEn | inOff | inLen | outOff | outCap => exact absurd (by simp [Writable]) h
  | _ => rfl

/-- Where the registers that take writes stand (10_state.md R33). -/
theorem offset_of_writable {off : Nat} {r : Csr} (h : Csr.ofOffset off = some r) (hw : Writable r) :
    off ∈ [0x004, 0x008, 0x00C, 0x018, 0x01C, 0x020, 0x024, 0x028] := by
  unfold Csr.ofOffset at h
  split at h <;> cases h
  all_goals simp [Writable] at hw ⊢

/-- Settles O43: each offset selects its register, and `csrWrite` says what a write to it does. -/
theorem registerWritesFollowTheAccessCodes : Obligations.RegisterWritesFollowTheAccessCodes := by
  unfold Obligations.RegisterWritesFollowTheAccessCodes
  intro s v
  have hrange : ∀ r, s.status.busy = false → s.writeRange r = { s with range := r } := fun r hb => by
    rw [State.writeRange, if_neg (by simp [hb])]
  refine ⟨fun hb => ⟨?_, ?_, ?_, ?_⟩, ?_, ?_, fun a ha h4 hro => ?_⟩
  · exact (hostWriteEffect_csr (a := 0x01C) (by decide) rfl).trans (hrange _ hb)
  · exact (hostWriteEffect_csr (a := 0x020) (by decide) rfl).trans (hrange _ hb)
  · exact (hostWriteEffect_csr (a := 0x024) (by decide) rfl).trans (hrange _ hb)
  · exact (hostWriteEffect_csr (a := 0x028) (by decide) rfl).trans (hrange _ hb)
  · exact hostWriteEffect_csr (a := 0x00C) (by decide) rfl
  · exact hostWriteEffect_csr (a := 0x018) (by decide) rfl
  · rw [hostWriteEffect_csr (by omega) h4, State.csrWriteAt]
    cases hr : Csr.ofOffset a.toNat with
    | none => rfl
    | some r => exact csrWrite_readOnly (fun hw => hro (offset_of_writable hr hw)) s v

/-- Settles O41: a write to CMD is dropped or accepted, by BUSY. -/
theorem cmdWriteAcceptsWhenIdle : Obligations.CmdWriteAcceptsWhenIdle := by
  unfold Obligations.CmdWriteAcceptsWhenIdle
  intro s w
  have hcmd : s.hostWriteEffect .four 0x008 0xF w = if s.status.busy then s.dropWrite else s.accept w :=
    hostWriteEffect_csr (a := 0x008) (by decide) rfl
  rw [hostAccess, hcmd]
  cases s.status.busy <;> rfl

/-- Settles O54: a write to CTRL is a soft reset where its bit 0 is set, and idle there is no command to abandon. -/
theorem softResetKeepsTheBuffers : Obligations.SoftResetKeepsTheBuffers := by
  unfold Obligations.SoftResetKeepsTheBuffers
  intro s v
  have hctrl : s.hostWriteEffect .four 0x004 0xF v = if v.getLsbD 0 then s.abandon.softReset else s :=
    hostWriteEffect_csr (a := 0x004) (by decide) rfl
  refine ⟨fun hv => ?_, fun hv hb => ?_⟩
  · rw [hctrl, hv, if_neg Bool.false_ne_true]
  · have habandon : s.abandon = s := by rw [State.abandon, if_neg (by simp [hb])]
    rw [hctrl, hv, if_pos rfl, habandon]
    rfl

/-! #### irq and the values after reset -/

/-- Settles O51: irq asks for DONE or ERR, and StatusOk excludes both while BUSY. -/
theorem irqIsALevelOfDoneAndErr : Obligations.IrqIsALevelOfDoneAndErr := by
  unfold Obligations.IrqIsALevelOfDoneAndErr
  intro s
  have hirq : s.irq = true ↔
      (s.status.done = true ∧ s.irqEn.doneEn = true) ∨ (s.status.err = true ∧ s.irqEn.errEn = true) := by
    simp [State.irq]
  refine ⟨hirq, fun hok hi => ?_⟩
  obtain ⟨-, hbusy, -⟩ := hok
  by_contra hb
  obtain ⟨hdone, herr⟩ := hbusy (by simpa using hb)
  simp [hirq, hdone, herr] at hi

/-- Settles O52: each register is a field of the reset state. -/
theorem resetRegistersReadTheirValues : Obligations.ResetRegistersReadTheirValues := by
  unfold Obligations.ResetRegistersReadTheirValues
  refine ⟨fun r => ?_, rfl, fun a => rfl⟩
  cases r with
  | qCode j => simp [State.csrRead, State.reset]
  | _ => rfl

end Sys2Proof.Proofs
end

section
/-! ### HOST accesses that are performed, dropped or ignored -/

namespace Sys2Proof.Proofs

open Sys2Proof.Machine Sys2Proof.Safety

/-! #### The agenda -/

/-- Settles O7: `step_cons` takes the event off the agenda and `perform` says what it does. -/
theorem stepPerformsTheNextEvent : Obligations.StepPerformsTheNextEvent := by
  unfold Obligations.StepPerformsTheNextEvent
  intro s rest
  refine ⟨fun a h => step_cons h, fun h => step_cons h, fun hb h => ?_, fun hb h => ?_⟩
  · rw [step_cons h]
    exact engineTurn_idle hb
  · rw [step_nil h, engineTurn_idle hb]

/-! #### The address map -/

/-- An address inside a buffer window is mapped to a buffer (20_memory.md R102). -/
theorem region_inWindows {s : State} {a : Nat} (h : InWindows s.params a) :
    ∃ off, s.region a = .ibuf off ∨ s.region a = .obuf off := by
  have hcsr : ¬a < 0x1000 := by
    simp only [InWindows, ibufBase, obufBase] at h
    omega
  rw [State.region, if_neg hcsr]
  split
  · exact ⟨_, .inl rfl⟩
  · next hibuf => exact ⟨_, .inr (if_pos (h.resolve_left hibuf))⟩

/-- An address outside the three windows is unmapped (20_memory.md R102). -/
theorem region_unmapped {s : State} {a : Nat} (hcsr : 0x1000 ≤ a) (h : ¬InWindows s.params a) :
    s.region a = .unmapped := by
  obtain ⟨hibuf, hobuf⟩ := not_or.mp h
  rw [State.region, if_neg (by omega), if_neg hibuf, if_neg hobuf]

/-- The end of the buffer window an address lies in. -/
def bufferEnd (p : Params) (a : Nat) : Nat :=
  if a < obufBase then ibufBase + p.ibufSize.toNat else obufBase + p.obufSize.toNat

/-- IBUF ends before OBUF begins (20_memory.md R102, 00_scope.md R8). -/
theorem ibuf_end_le {p : Params} (hp : ParamsOk p) : ibufBase + p.ibufSize.toNat ≤ obufBase :=
  Nat.add_le_add_left hp.2.1 ibufBase

theorem accessBytes_le (size : AccessSize) : accessBytes size ≤ 4 := by cases size <;> decide

theorem accessBytes_pos (size : AccessSize) : 0 < accessBytes size := by cases size <;> decide

/-- What 20_memory.md R105 asks of a buffer access: natural alignment, and an end inside the window it starts in. -/
def WellPlaced (p : Params) (size : AccessSize) (a : Nat) : Prop :=
  a % accessBytes size = 0 ∧ a + accessBytes size ≤ bufferEnd p a

/-- An aligned access wholly inside one window is well placed. -/
theorem wellPlaced_of_inside {p : Params} {size : AccessSize} {a : Nat} (hp : ParamsOk p)
    (halign : a % accessBytes size = 0)
    (h : (ibufBase ≤ a ∧ a + accessBytes size ≤ ibufBase + p.ibufSize.toNat) ∨
      (obufBase ≤ a ∧ a + accessBytes size ≤ obufBase + p.obufSize.toNat)) :
    InWindows p a ∧ WellPlaced p size a := by
  have hpos := accessBytes_pos size
  have hend := ibuf_end_le hp
  simp only [InWindows, WellPlaced, bufferEnd, halign, true_and]
  rcases h with ⟨hlo, hhi⟩ | ⟨hlo, hhi⟩
  · have hbelow : a < obufBase := by omega
    exact ⟨.inl ⟨hlo, by omega⟩, by rwa [if_pos hbelow]⟩
  · exact ⟨.inr ⟨hlo, by omega⟩, by rwa [if_neg (Nat.not_lt.mpr hlo)]⟩

/-- An access that starts in a window and is misaligned, or ends after the window, is misplaced. -/
theorem not_wellPlaced_of_overrun {p : Params} {size : AccessSize} {a : Nat} (hp : ParamsOk p)
    (h : (ibufBase ≤ a ∧ a < ibufBase + p.ibufSize.toNat ∧
        (a % accessBytes size ≠ 0 ∨ ibufBase + p.ibufSize.toNat < a + accessBytes size)) ∨
      (obufBase ≤ a ∧ a < obufBase + p.obufSize.toNat ∧
        (a % accessBytes size ≠ 0 ∨ obufBase + p.obufSize.toNat < a + accessBytes size))) :
    InWindows p a ∧ ¬WellPlaced p size a := by
  have hend := ibuf_end_le hp
  simp only [InWindows, WellPlaced, bufferEnd, not_and_or]
  rcases h with ⟨hlo, hhi, hbad⟩ | ⟨hlo, hhi, hbad⟩
  · have hbelow : a < obufBase := by omega
    exact ⟨.inl ⟨hlo, hhi⟩, by rwa [if_pos hbelow, Nat.not_le]⟩
  · exact ⟨.inr ⟨hlo, hhi⟩, by rwa [if_neg (Nat.not_lt.mpr hlo), Nat.not_le]⟩

variable {s : State} {size : AccessSize} {a data : Word} {lanes : BitVec 4}

/-- Which of the two buffers holds an address, and that the model performs there exactly the well-placed accesses. -/
theorem region_wellPlaced (hp : ParamsOk s.params) (h : InWindows s.params a.toNat) :
    (a.toNat < obufBase ∧ s.region a.toNat = .ibuf (a.toNat - ibufBase) ∧
        (bufferAccessOk size a.toNat (a.toNat - ibufBase) s.params.ibufSize.toNat = true ↔
          WellPlaced s.params size a.toNat)) ∨
      (obufBase ≤ a.toNat ∧ s.region a.toNat = .obuf (a.toNat - obufBase) ∧
        (bufferAccessOk size a.toNat (a.toNat - obufBase) s.params.obufSize.toNat = true ↔
          WellPlaced s.params size a.toNat)) := by
  have hend := ibuf_end_le hp
  simp only [bufferAccessOk, Bool.and_eq_true, decide_eq_true_eq, WellPlaced, bufferEnd]
  rcases h with ⟨hlo, hhi⟩ | ⟨hlo, hhi⟩
  · have hbelow : a.toNat < obufBase := by omega
    refine .inl ⟨hbelow, region_ibuf hlo hhi, and_congr_right fun _ => ?_⟩
    rw [if_pos hbelow]
    omega
  · refine .inr ⟨hlo, region_obuf hp hlo hhi, and_congr_right fun _ => ?_⟩
    rw [if_neg (Nat.not_lt.mpr hlo)]
    omega

/-! #### Accesses without effect -/

theorem readsZero_of_data (h : s.hostReadData size a = .ok 0) : ReadsZero s size a := by
  rw [ReadsZero, hostAccess, h]
  rfl

theorem ignoresWrite_of_effect (h : s.hostWriteEffect size a lanes data = s) :
    IgnoresWrite s size a lanes data := by
  rw [IgnoresWrite, hostAccess, h]
  rfl

/-- A CSR access that is not four bytes wide and aligned reads 0 (20_memory.md R103), as does a reserved offset
(10_state.md R55). -/
theorem hostReadData_csr_ignored (ha : a.toNat < 0x1000)
    (h : csrAccessOk size a.toNat = false ∨ 0x074 ≤ a.toNat) : s.hostReadData size a = .ok 0 := by
  simp only [State.hostReadData, region_csr ha]
  rcases h with h | h
  · rw [h, if_neg Bool.false_ne_true]
  · simp only [State.csrReadAt, ofOffset_reserved h, ite_self]

/-- A CSR write that is not four bytes wide, aligned and on all lanes does nothing (20_memory.md R103), nor does one
of a reserved offset (10_state.md R55). -/
theorem hostWriteEffect_csr_ignored (ha : a.toNat < 0x1000)
    (h : csrAccessOk size a.toNat = false ∨ lanes ≠ 0xF ∨ 0x074 ≤ a.toNat) :
    s.hostWriteEffect size a lanes data = s := by
  simp only [State.hostWriteEffect, region_csr ha]
  rcases h with h | h | h
  · rw [h, Bool.false_and, if_neg Bool.false_ne_true]
  · rw [decide_eq_false h, Bool.and_false, if_neg Bool.false_ne_true]
  · simp only [State.csrWriteAt, ofOffset_reserved h, ite_self]

theorem csrAccessOk_eq_false {a : Nat} (h : size ≠ .four ∨ a % 4 ≠ 0) : csrAccessOk size a = false := by
  rwa [csrAccessOk, Bool.and_eq_false_iff, decide_eq_false_iff_not, decide_eq_false_iff_not]

/-- Settles O45: each access is ignored in the window `region` gives it. -/
theorem ignoredAccessesReadZero : Obligations.IgnoredAccessesReadZero := by
  unfold Obligations.IgnoredAccessesReadZero
  intro s size a lanes data
  refine ⟨fun ha h => ?_, fun ha h => ?_, fun hres ha => ?_, fun ha hibuf hobuf => ?_⟩
  · have hok := csrAccessOk_eq_false h
    exact ⟨readsZero_of_data (hostReadData_csr_ignored ha (.inl hok)),
      ignoresWrite_of_effect (hostWriteEffect_csr_ignored ha (.inl hok))⟩
  · exact ignoresWrite_of_effect (hostWriteEffect_csr_ignored ha (.inr (.inl h)))
  · exact ⟨readsZero_of_data (hostReadData_csr_ignored ha (.inr hres)),
      ignoresWrite_of_effect (hostWriteEffect_csr_ignored ha (.inr (.inr hres)))⟩
  · have hr := region_unmapped (s := s) ha (not_or.mpr ⟨hibuf, hobuf⟩)
    exact ⟨readsZero_of_data (by simp only [State.hostReadData, hr]),
      ignoresWrite_of_effect (by simp only [State.hostWriteEffect, hr])⟩

end Sys2Proof.Proofs
end

section
/-! ### The data word of a buffer access -/

namespace Sys2Proof.Proofs

open Sys2Proof.Machine Sys2Proof.Safety

theorem ofDigits_bytes_lt (bs : List Byte) : Nat.ofDigits 256 (bs.map BitVec.toNat) < 2 ^ (8 * bs.length) := by
  have hlt := Nat.ofDigits_lt_base_pow_length (b := 256) (l := bs.map BitVec.toNat) (by decide)
    (List.forall_mem_map.mpr fun b _ => b.isLt)
  rwa [List.length_map, show 256 = 2 ^ 8 from rfl, ← Nat.pow_mul] at hlt

/-- Bytes are digits in base 256, the lowest first (20_memory.md R107). -/
theorem leData_toNat {bs : List Byte} (h : bs.length ≤ 4) :
    (leData bs).toNat = Nat.ofDigits 256 (bs.map BitVec.toNat) := by
  have hfold : bs.foldr (fun b v => b.toNat + 256 * v) 0 = Nat.ofDigits 256 (bs.map BitVec.toNat) := by
    rw [Nat.ofDigits_eq_foldr, List.foldr_map]
    rfl
  rw [leData, BitVec.toNat_ofNat, hfold]
  exact Nat.mod_eq_of_lt ((ofDigits_bytes_lt bs).trans_le (Nat.pow_le_pow_right (by decide) (by omega)))

theorem leData_toNat_lt {bs : List Byte} (h : bs.length ≤ 4) : (leData bs).toNat < 2 ^ (8 * bs.length) :=
  leData_toNat h ▸ ofDigits_bytes_lt bs

/-- Byte i of the data word is byte i of the bytes (20_memory.md R107). -/
theorem leData_extractLsb' {bs : List Byte} (h : bs.length ≤ 4) {i : Nat} (hi : i < bs.length) :
    (leData bs).extractLsb' (8 * i) 8 = bs[i] := by
  apply BitVec.eq_of_toNat_eq
  rw [BitVec.extractLsb'_toNat, leData_toNat h, Nat.shiftRight_eq_div_pow, Nat.pow_mul,
    Nat.ofDigits_div_pow_eq_ofDigits_drop i (by decide) _ (List.forall_mem_map.mpr fun b _ => b.isLt),
    ← List.map_drop, List.drop_eq_getElem_cons hi, List.map_cons, Nat.ofDigits_cons]
  exact (Nat.add_mul_mod_self_left ..).trans (Nat.mod_eq_of_lt bs[i].isLt)

/-- The bytes of a data word, put together again, are its low bits. -/
theorem leData_bytes (data : Word) {n : Nat} (hn : n ≤ 4) :
    leData (List.ofFn fun i : Fin n => data.extractLsb' (8 * i) 8) = BitVec.ofNat 32 (data.toNat % 2 ^ (8 * n)) := by
  generalize hbs : (List.ofFn fun i : Fin n => data.extractLsb' (8 * i) 8) = bs
  have hl : bs.length = n := by rw [← hbs, List.length_ofFn]
  apply BitVec.eq_of_getLsbD_eq
  intro j hj
  rw [BitVec.getLsbD_ofNat, Nat.testBit_mod_two_pow, decide_eq_true hj, Bool.true_and]
  by_cases hjn : j < 8 * n
  · have hi : j / 8 < bs.length := by omega
    have hbyte := congrArg (fun b => b.getLsbD (j % 8)) (leData_extractLsb' (hl.trans_le hn) hi)
    subst hbs
    simp only [List.getElem_ofFn, BitVec.getLsbD_extractLsb', Nat.mod_lt j (show 8 > 0 by decide), decide_true,
      Bool.true_and, Nat.div_add_mod] at hbyte
    rw [hbyte, decide_eq_true hjn, Bool.true_and]
    rfl
  · rw [decide_eq_false hjn, Bool.false_and]
    exact Nat.testBit_eq_false_of_lt ((leData_toNat_lt (hl.trans_le hn)).trans_le
      (Nat.pow_le_pow_right (by decide) (by omega)))

end Sys2Proof.Proofs
end

section
/-! ### HOST accesses of the buffers -/

namespace Sys2Proof.Proofs

open Sys2Proof.Machine Sys2Proof.Safety

variable {s : State} {size : AccessSize} {a data : Word} {lanes : BitVec 4}

/-! #### Reads of the buffers -/

/-- A misplaced buffer read returns 0 (20_memory.md R105). -/
theorem hostReadData_misplaced (hp : ParamsOk s.params) (h : InWindows s.params a.toNat)
    (hmis : ¬WellPlaced s.params size a.toNat) : s.hostReadData size a = .ok 0 := by
  rcases region_wellPlaced (size := size) hp h with ⟨-, hr, hok⟩ | ⟨-, hr, hok⟩ <;>
    simp only [State.hostReadData, hr, if_neg (mt hok.mp hmis)]

/-- A well-placed read of IBUF, or of OBUF while idle, reads the bytes there (20_memory.md R105, R107, R115). -/
theorem hostReadData_wellPlaced (hp : ParamsOk s.params) (h : InWindows s.params a.toNat)
    (hwell : WellPlaced s.params size a.toNat) (hidle : obufBase ≤ a.toNat → s.status.busy = false) :
    s.hostReadData size a = (s.readBytes a.toNat (accessBytes size)).map leData := by
  rcases region_wellPlaced (size := size) hp h with ⟨-, hr, hok⟩ | ⟨hlo, hr, hok⟩
  · simp only [State.hostReadData, hr, if_pos (hok.mpr hwell)]
    rfl
  · simp only [State.hostReadData, hr, if_pos (hok.mpr hwell), hidle hlo, if_neg Bool.false_ne_true]
    rfl

/-- A well-placed read of OBUF while BUSY returns free values (20_memory.md R114). -/
theorem hostReadData_obuf_busy (hp : ParamsOk s.params) (h : InWindows s.params a.toNat)
    (hwell : WellPlaced s.params size a.toNat) (hlo : obufBase ≤ a.toNat) (hb : s.status.busy = true) :
    s.hostReadData size a = .ok (leData (s.drawnBytes a.toNat (accessBytes size))) := by
  rcases region_wellPlaced (size := size) hp h with ⟨hbelow, -⟩ | ⟨-, hr, hok⟩
  · omega
  · simp only [State.hostReadData, hr, if_pos (hok.mpr hwell), hb, if_true]

/-! #### Writes to the buffers -/

/-- While BUSY, every write that starts in a buffer window is dropped (20_memory.md R113; log 9). -/
theorem hostWriteEffect_busy (hb : s.status.busy = true) (h : InWindows s.params a.toNat) :
    s.hostWriteEffect size a lanes data = s.dropWrite := by
  obtain ⟨off, hr | hr⟩ := region_inWindows h <;>
    simp only [State.hostWriteEffect, hr, bufferWrite_busy _ _ _ _ _ _ _ hb]

/-- While idle, a misplaced buffer write does nothing (20_memory.md R105). -/
theorem hostWriteEffect_misplaced (hp : ParamsOk s.params) (hb : s.status.busy = false)
    (h : InWindows s.params a.toNat) (hmis : ¬WellPlaced s.params size a.toNat) :
    s.hostWriteEffect size a lanes data = s := by
  rcases region_wellPlaced (size := size) hp h with ⟨-, hr, hok⟩ | ⟨-, hr, hok⟩ <;>
    simp only [State.hostWriteEffect, hr, State.bufferWrite, hb, if_neg Bool.false_ne_true,
      if_neg (mt hok.mp hmis)]

/-- While idle, a well-placed buffer write stores its lanes (20_memory.md R105; log 10). -/
theorem hostWriteEffect_wellPlaced (hp : ParamsOk s.params) (hb : s.status.busy = false)
    (h : InWindows s.params a.toNat) (hwell : WellPlaced s.params size a.toNat) :
    s.hostWriteEffect size a lanes data =
      { s with mem := storeLanes a.toNat lanes data 0 (accessBytes size) s.mem } := by
  rcases region_wellPlaced (size := size) hp h with ⟨-, hr, hok⟩ | ⟨-, hr, hok⟩ <;>
    simp only [State.hostWriteEffect, hr, State.bufferWrite, hb, if_neg Bool.false_ne_true,
      if_pos (hok.mpr hwell)]

/-- A run of bytes is read when each of them is. -/
theorem readBytes_eq_ok {a : Nat} {bs : List Byte} (h : ∀ i (hi : i < bs.length), s.readByte (a + i) = .ok bs[i]) :
    s.readBytes a bs.length = .ok bs := by
  induction bs generalizing a with
  | nil => rfl
  | cons b bs ih =>
    have hrest := ih (a := a + 1) fun i hi => by
      have hbyte := h (i + 1) (by simpa using hi)
      rwa [← Nat.add_assoc, Nat.add_right_comm] at hbyte
    rw [List.length_cons, State.readBytes, show s.readByte a = .ok b from h 0 (by simp), hrest]
    rfl

/-- A well-placed read of IBUF, or of OBUF while idle, returns the bytes there as a data word. -/
theorem hostReadData_bytes {bs : List Byte} (hp : ParamsOk s.params) (h : InWindows s.params a.toNat)
    (hwell : WellPlaced s.params size a.toNat) (hidle : obufBase ≤ a.toNat → s.status.busy = false)
    (hl : bs.length = accessBytes size) (hbs : ∀ i (hi : i < bs.length), s.readByte (a.toNat + i) = .ok bs[i]) :
    s.hostReadData size a = .ok (leData bs) := by
  rw [hostReadData_wellPlaced hp h hwell hidle, ← hl, readBytes_eq_ok hbs]
  rfl

/-! #### The buffers as the HOST sees them -/

/-- Settles O42: the registers are `csrWrite`, the buffers `hostWriteEffect_busy`. -/
theorem writesWhileBusyAreDropped : Obligations.WritesWhileBusyAreDropped := by
  unfold Obligations.WritesWhileBusyAreDropped
  intro s v hb
  have hrange : ∀ r, s.writeRange r = s.dropWrite := fun r => if_pos hb
  refine ⟨fun a ha => ?_, fun size a lanes h => hostWriteEffect_busy hb h⟩
  simp only [List.mem_cons, List.not_mem_nil, or_false] at ha
  rcases ha with rfl | rfl | rfl | rfl | rfl
  · exact (hostWriteEffect_csr (by decide) rfl).trans (if_pos hb)
  all_goals exact (hostWriteEffect_csr (by decide) rfl).trans (hrange _)

/-- Settles O46: a misplaced access is ignored while idle, and its write is dropped while BUSY. -/
theorem misalignedBufferAccessesAreIgnored : Obligations.MisalignedBufferAccessesAreIgnored := by
  unfold Obligations.MisalignedBufferAccessesAreIgnored
  intro s size a lanes data hp h
  obtain ⟨hin, hmis⟩ := not_wellPlaced_of_overrun hp h
  refine ⟨readsZero_of_data (hostReadData_misplaced hp hin hmis), ?_⟩
  cases hb : s.status.busy with
  | true =>
    rw [hostAccess, hostWriteEffect_busy hb hin, Bool.or_true]
    rfl
  | false =>
    rw [hostAccess, hostWriteEffect_misplaced hp hb hin hmis, Bool.or_false]
    rfl

/-- Settles O48: the write stores its lanes, which `read_storeLanes` reads back. -/
theorem bufferWritesReadBack : Obligations.BufferWritesReadBack := by
  unfold Obligations.BufferWritesReadBack
  intro s size a data lanes hp hb halign h
  obtain ⟨hin, hwell⟩ := wellPlaced_of_inside hp halign h
  refine ⟨storeLanes a.toNat lanes data 0 (accessBytes size) s.mem,
    ?_, fun i hi => ?_, fun x hx => ?_, fun hall => ?_⟩
  · rw [hostAccess, hostWriteEffect_wellPlaced hp hb hin hwell]
    rfl
  · exact read_storeLanes (Nat.zero_le i) (by omega)
  · exact read_storeLanes_outside (by omega)
  · rw [← leData_bytes data (accessBytes_le size)]
    refine hostReadData_bytes hp hin hwell (fun _ => hb) List.length_ofFn fun i hi => ?_
    rw [List.length_ofFn] at hi
    rw [State.readByte, read_storeLanes (Nat.zero_le i) (by omega), hall i hi, List.getElem_ofFn]
    rfl

/-- Settles O49: the data word of a well-placed read is `leData` of the bytes there, or of the bytes drawn. -/
theorem bufferReadsReturnTheBytes : Obligations.BufferReadsReturnTheBytes := by
  unfold Obligations.BufferReadsReturnTheBytes
  intro s size a hp halign
  have hle := accessBytes_le size
  have hpos := accessBytes_pos size
  have hend := ibuf_end_le hp
  refine ⟨fun bs h hl hbs => ?_, fun hb hlo hhi => ?_⟩
  · obtain ⟨hin, hwell⟩ := wellPlaced_of_inside hp halign (h.imp_right fun ⟨hlo, hhi, _⟩ => ⟨hlo, hhi⟩)
    have hidle : obufBase ≤ a.toNat → s.status.busy = false := fun hlo =>
      h.elim (fun ⟨_, hhi⟩ => by omega) fun ⟨_, _, hb⟩ => hb
    exact ⟨leData bs, hostReadData_bytes hp hin hwell hidle hl hbs, hl ▸ leData_toNat_lt (hl.trans_le hle),
      fun i hi => leData_extractLsb' (hl.trans_le hle) hi⟩
  · obtain ⟨hin, hwell⟩ := wellPlaced_of_inside hp halign (.inr ⟨hlo, hhi⟩)
    have hl : (s.drawnBytes a.toNat (accessBytes size)).length = accessBytes size := drawnBytes_length s _ _
    refine ⟨_, hostReadData_obuf_busy hp hin hwell hlo hb, ?_, fun i hi => ?_⟩
    · have hlt := leData_toNat_lt (hl.trans_le hle)
      rwa [hl] at hlt
    · rw [leData_extractLsb' (hl.trans_le hle) (hl.symm ▸ hi), drawnBytes_getElem]

end Sys2Proof.Proofs
end

section
/-! ### Command words and the commands they encode -/

namespace Sys2Proof.Proofs

open Sys2Proof.Machine Sys2Proof.Safety

/-! #### Words and their bytes -/

/-- The four bytes of a word, put together again, are the word (20_memory.md R107). -/
theorem leWord_bytes (w : Word) :
    leWord (w.extractLsb' 0 8) (w.extractLsb' 8 8) (w.extractLsb' 16 8) (w.extractLsb' 24 8) = w := by
  rw [leWord, BitVec.extractLsb'_append_extractLsb'_eq_extractLsb' (by rfl),
    BitVec.extractLsb'_append_extractLsb'_eq_extractLsb' (by rfl),
    BitVec.extractLsb'_append_extractLsb'_eq_extractLsb' (by rfl), BitVec.extractLsb'_eq_self]

/-- The bytes of a word put together from four bytes are those four (20_memory.md R107). -/
theorem leBytes_leWord (b0 b1 b2 b3 : Byte) : leBytes (leWord b0 b1 b2 b3) = [b0, b1, b2, b3] := by
  simp (disch := decide) only [leBytes, leWord, BitVec.extractLsb'_append_eq_of_le,
    BitVec.extractLsb'_append_eq_of_add_le, BitVec.extractLsb'_eq_self, Nat.sub_self, Nat.reduceSub]

/-- The decoder on bytes is the decoder on the word they stand for (30_encoding.md R146). -/
theorem decode_leBytes_append (w : Word) (rest : List Byte) :
    decode (leBytes w ++ rest) = (decodeWord w).map fun i => (i, rest) := by
  simp only [leBytes, List.cons_append, List.nil_append, decode, leWord_bytes]
  cases decodeWord w <;> rfl

/-- What the decoder accepts starts with the four bytes of a word that decodes (30_encoding.md R146). -/
theorem eq_leBytes_append_of_decode {bs rest : List Byte} {i : Instr} (h : decode bs = .ok (i, rest)) :
    ∃ w, decodeWord w = .ok i ∧ bs = leBytes w ++ rest := by
  match bs with
  | [] | [_] | [_, _] | [_, _, _] => simp [decode] at h
  | b0 :: b1 :: b2 :: b3 :: tail =>
    have hbs : b0 :: b1 :: b2 :: b3 :: tail = leBytes (leWord b0 b1 b2 b3) ++ tail := by
      rw [leBytes_leWord]
      rfl
    rw [hbs, decode_leBytes_append] at h
    cases hw : decodeWord (leWord b0 b1 b2 b3) with
    | error r => simp [hw, Except.map] at h
    | ok j =>
      rw [hw] at h
      obtain ⟨rfl, rfl⟩ := Prod.mk.inj (Except.ok.inj h)
      exact ⟨_, hw, hbs⟩

/-! #### The fields of a word -/

/-- The three fields of a word (30_encoding.md R140). -/
def wordFields (w : Word) : CommandFields := ⟨wordOp w, wordSym w, wordRsvd w⟩

theorem legal_eq_wordFields (w : Word) : legal w = (wordFields w).legal := rfl

theorem wordRsvd_append_wordSym_append_wordOp (w : Word) : wordRsvd w ++ wordSym w ++ wordOp w = w := by
  rw [wordRsvd, wordSym, wordOp, BitVec.extractLsb'_append_extractLsb'_eq_extractLsb' (by rfl),
    BitVec.extractLsb'_append_extractLsb'_eq_extractLsb' (by rfl), BitVec.extractLsb'_eq_self]

/-- A word is determined by its fields: together they have all 32 bits (30_encoding.md R140). -/
theorem wordFields_injective : Function.Injective wordFields := by
  intro v w h
  obtain ⟨hop, hsym, hrsvd⟩ := CommandFields.mk.inj h
  rw [← wordRsvd_append_wordSym_append_wordOp v, hop, hsym, hrsvd, wordRsvd_append_wordSym_append_wordOp]

theorem wordFields_encodeWord (i : Instr) : wordFields (encodeWord i) = i.fields := by
  have h : Laws.EncodedFields.Statement i := by
    cases i with
    | nop => exact Laws.EncodedFields.nop
    | compress => exact Laws.EncodedFields.compress
    | decompress => exact Laws.EncodedFields.decompress
    | scan => exact Laws.EncodedFields.scan
    | build => exact Laws.EncodedFields.build
    | assign => exact Laws.EncodedFields.assign
    | encode => exact Laws.EncodedFields.encode
    | parse => exact Laws.EncodedFields.parse
    | decode => exact Laws.EncodedFields.decode
    | query sym => exact Laws.EncodedFields.query sym
  obtain ⟨hop, hsym, hrsvd, -, -⟩ := h
  rw [wordFields, hop, hsym, hrsvd]

/-! #### What decodes -/

@[simp] theorem fields_rsvd (i : Instr) : i.fields.rsvd = 0 := by
  cases i <;> rfl

theorem plainCommand_eq_ok {i j : Instr} {sym : Byte} : plainCommand i sym = .ok j ↔ sym = 0 ∧ i = j := by
  unfold plainCommand
  split <;> simp_all

/-- The opcode map takes the fields of a command back to the command (30_encoding.md R141). -/
theorem decodeFields_of_fields (i : Instr) : decodeFields i.fields.op i.fields.sym = .ok i := by
  cases i <;> rfl

/-- The opcode map gives a command only for its own fields (30_encoding.md R141). -/
theorem fields_of_decodeFields {op sym : Byte} {i : Instr} (h : decodeFields op sym = .ok i) :
    i.fields = ⟨op, sym, 0⟩ := by
  unfold decodeFields at h
  split at h
  case h_10 hop =>
    obtain rfl := Except.ok.inj h
    exact congrArg (CommandFields.mk · sym 0) (BitVec.eq_of_toNat_eq hop).symm
  case h_11 => simp at h
  all_goals
    rename_i hop
    obtain ⟨rfl, rfl⟩ := plainCommand_eq_ok.mp h
    exact congrArg (CommandFields.mk · 0 0) (BitVec.eq_of_toNat_eq hop).symm

/-- A word decodes to a command exactly when it has the command's fields. -/
theorem decodeWord_eq_ok_iff_fields {w : Word} {i : Instr} : decodeWord w = .ok i ↔ i.fields = wordFields w := by
  unfold decodeWord
  split
  · next hr =>
    rw [wordFields, hr]
    refine ⟨fields_of_decodeFields, fun h => ?_⟩
    have hi := decodeFields_of_fields i
    rwa [h] at hi
  · next hr =>
    exact ⟨nofun, fun h => absurd ((congrArg CommandFields.rsvd h).symm.trans (fields_rsvd i)) hr⟩

/-- A word decodes to a command exactly when it is the command's word (30_encoding.md R141). -/
theorem decodeWord_eq_ok {w : Word} {i : Instr} : decodeWord w = .ok i ↔ w = encodeWord i := by
  rw [decodeWord_eq_ok_iff_fields, ← wordFields_encodeWord, wordFields_injective.eq_iff, eq_comm]

/-- Settles O1: the bytes of a word determine the word, and a word decodes to a command exactly when it is the
command's word. -/
theorem decodeInvertsEncode : Obligations.DecodeInvertsEncode := by
  unfold Obligations.DecodeInvertsEncode
  refine ⟨fun i rest => ?_, fun bs rest i h => ?_⟩
  · rw [encode, decode_leBytes_append, decodeWord_eq_ok.mpr rfl]
    rfl
  · obtain ⟨w, hw, rfl⟩ := eq_leBytes_append_of_decode h
    rw [decodeWord_eq_ok.mp hw, encode]

/-- Settles O3, by running the decoder on each word. -/
theorem sampleWordsDecode : Obligations.SampleWordsDecode := by
  unfold Obligations.SampleWordsDecode
  decide

/-! #### Legal words -/

theorem legal_fields_iff {f : CommandFields} :
    f.legal = true ↔ f.op ∈ legalOps ∧ f.rsvd = 0 ∧ (f.op = 0x20 ∨ f.sym = 0) := by
  simp [CommandFields.legal, and_assoc]

/-- The legal fields are those of the commands (30_encoding.md R141, R143). -/
theorem legal_iff_exists_fields {f : CommandFields} : f.legal = true ↔ ∃ i : Instr, i.fields = f := by
  rw [legal_fields_iff]
  constructor
  · obtain ⟨op, sym, rsvd⟩ := f
    rintro ⟨hop, rfl, hsym⟩
    by_cases hq : op = 0x20
    · subst hq
      exact ⟨.query sym, rfl⟩
    · obtain rfl := hsym.resolve_left hq
      simp only [legalOps, List.mem_cons, List.not_mem_nil, or_false, hq] at hop
      rcases hop with rfl | rfl | rfl | rfl | rfl | rfl | rfl | rfl | rfl
      exacts [⟨.nop, rfl⟩, ⟨.compress, rfl⟩, ⟨.decompress, rfl⟩, ⟨.scan, rfl⟩, ⟨.build, rfl⟩, ⟨.assign, rfl⟩,
        ⟨.encode, rfl⟩, ⟨.parse, rfl⟩, ⟨.decode, rfl⟩]
  · rintro ⟨i, rfl⟩
    cases i <;> simp [Instr.fields, legalOps]

theorem exists_decodeWord_iff_legal {w : Word} : (∃ i, decodeWord w = .ok i) ↔ legal w = true := by
  simp only [decodeWord_eq_ok_iff_fields, legal_eq_wordFields, legal_iff_exists_fields]

theorem wordOp_toNat (w : Word) : (wordOp w).toNat = w.toNat % 256 := by
  rw [wordOp, BitVec.extractLsb'_toNat, Nat.shiftRight_zero]

theorem wordSym_toNat (w : Word) : (wordSym w).toNat = w.toNat / 256 % 256 := by
  rw [wordSym, BitVec.extractLsb'_toNat, Nat.shiftRight_eq_div_pow]

theorem wordRsvd_toNat (w : Word) : (wordRsvd w).toNat = w.toNat / 65536 := by
  have hw := w.isLt
  rw [wordRsvd, BitVec.extractLsb'_toNat, Nat.shiftRight_eq_div_pow]
  omega

theorem mem_legalOps_iff {op : Byte} :
    op ∈ legalOps ↔ op.toNat ∈ [0x00, 0x01, 0x02, 0x10, 0x11, 0x12, 0x13, 0x14, 0x15, 0x20] :=
  (List.mem_map_of_injective (f := BitVec.toNat) (l := legalOps) fun _ _ => BitVec.eq_of_toNat_eq).symm

/-- `legal(w)` in the numbers of 30_encoding.md R143. -/
theorem legal_iff_toNat {w : Word} :
    legal w = true ↔
      w.toNat % 256 ∈ [0x00, 0x01, 0x02, 0x10, 0x11, 0x12, 0x13, 0x14, 0x15, 0x20] ∧ w.toNat / 65536 = 0 ∧
        (w.toNat % 256 = 0x20 ∨ w.toNat / 256 % 256 = 0) := by
  rw [legal_eq_wordFields, legal_fields_iff, ← wordOp_toNat, ← wordSym_toNat, ← wordRsvd_toNat, ← mem_legalOps_iff]
  simp only [wordFields, ← BitVec.toNat_inj]
  rfl

/-- Settles O2: `legal` is a check on the fields of the word, and the legal fields are those of the commands. -/
theorem legalWordsAreThoseThatDecode : Obligations.LegalWordsAreThoseThatDecode := by
  unfold Obligations.LegalWordsAreThoseThatDecode
  exact fun w => ⟨legal_iff_toNat, exists_decodeWord_iff_legal⟩

/-- A word that is not legal is rejected (30_encoding.md R144). -/
theorem decodeWord_error_of_not_legal {w : Word} (h : ¬legal w = true) : ∃ r, decodeWord w = .error r := by
  cases hw : decodeWord w with
  | error r => exact ⟨r, rfl⟩
  | ok i => exact absurd (exists_decodeWord_iff_legal.mp ⟨i, hw⟩) h

/-- Settles O6: a word that is not legal is rejected, and its completion is the pre-check error ILLEGAL_COMMAND. -/
theorem illegalWordChangesNothingElse : Obligations.IllegalWordChangesNothingElse := by
  unfold Obligations.IllegalWordChangesNothingElse
  intro s rest hb ha hill
  have hnot : ¬legal s.lastCmd = true := fun hlegal => by
    obtain ⟨hop, hrsvd, hsym⟩ := legal_iff_toNat.mp hlegal
    rcases hill with hbad | hbad | ⟨hquery, hbad⟩
    exacts [hbad hop, hbad hrsvd, hsym.elim hquery hbad]
  obtain ⟨r, hr⟩ := decodeWord_error_of_not_legal hnot
  rcases ha with ⟨ha, rfl⟩ | ha
  · rw [step_nil ha, engineTurn_illegal hb hr, ← ha]
    rfl
  · rw [step_cons ha]
    exact engineTurn_illegal (s := { s with agenda := rest }) hb hr

end Sys2Proof.Proofs
end

section
/-! ### The header of an artifact -/

namespace Sys2Proof.Proofs

open Sys2Proof.Machine Sys2Proof.Safety

/-! #### Where its bytes stand -/

@[simp] theorem leBytes_length (w : Word) : (leBytes w).length = 4 := rfl

/-- The bytes of one table entry: its symbol and its count (30_encoding.md R150). -/
def entryBytes (e : FtEntry) : List Byte := e.sym :: leBytes e.cnt

@[simp] theorem entryBytes_length (e : FtEntry) : (entryBytes e).length = 5 := rfl

/-- The bytes of the table entries (30_encoding.md R150). -/
def entriesBytes (ft : FreqTable) : List Byte := ft.flatMap entryBytes

@[simp] theorem entriesBytes_length (ft : FreqTable) : (entriesBytes ft).length = 5 * ft.length := by
  simp [entriesBytes, List.length_flatMap, Nat.mul_comm]

/-- Entry i stands between the entries before it and those after it. -/
theorem entriesBytes_eq_append {ft : FreqTable} {i : Nat} (h : i < ft.length) :
    entriesBytes ft = entriesBytes (ft.take i) ++ entryBytes ft[i] ++ entriesBytes (ft.drop (i + 1)) := by
  unfold entriesBytes
  rw [List.append_assoc, ← List.flatMap_cons, ← List.drop_eq_getElem_cons h, ← List.flatMap_append,
    List.take_append_drop]

theorem headerBytes_eq (ft : FreqTable) (n vbc : Nat) :
    headerBytes ft n vbc = leBytes (BitVec.ofNat 32 ft.length) ++ entriesBytes ft ++
      leBytes (BitVec.ofNat 32 n) ++ leBytes (BitVec.ofNat 32 vbc) := rfl

/-- A part of a list stands where the parts before it end. -/
theorem take_drop_of_append {α : Type} {l pre mid post : List α} {o w : Nat} (h : l = pre ++ mid ++ post)
    (ho : pre.length = o) (hw : mid.length = w) : (l.drop o).take w = mid := by
  rw [h, List.append_assoc, List.drop_left' ho, List.take_left' hw]

section layout

variable (ft : FreqTable) (n vbc : Nat)

theorem headerBytes_symbolCount : (headerBytes ft n vbc).take 4 = leBytes (BitVec.ofNat 32 ft.length) := by
  rw [headerBytes_eq, List.append_assoc, List.append_assoc]
  exact List.take_left' rfl

/-- Entry i has the five bytes from offset 4 + 5·i on (30_encoding.md R150). -/
theorem headerBytes_entry {i : Nat} (h : i < ft.length) :
    ((headerBytes ft n vbc).drop (4 + 5 * i)).take 5 = entryBytes ft[i] := by
  refine take_drop_of_append (pre := leBytes (BitVec.ofNat 32 ft.length) ++ entriesBytes (ft.take i))
    (post := entriesBytes (ft.drop (i + 1)) ++ leBytes (BitVec.ofNat 32 n) ++ leBytes (BitVec.ofNat 32 vbc))
    ?_ ?_ rfl
  · rw [headerBytes_eq, entriesBytes_eq_append h]
    simp only [List.append_assoc]
  · simp [Nat.min_eq_left h.le]

theorem headerBytes_sym {i : Nat} (h : i < ft.length) : (headerBytes ft n vbc)[4 + 5 * i]? = some ft[i].sym := by
  have hhead := congrArg List.head? (headerBytes_entry ft n vbc h)
  rwa [List.head?_take, if_neg (by decide), List.head?_drop] at hhead

theorem headerBytes_cnt {i : Nat} (h : i < ft.length) :
    ((headerBytes ft n vbc).drop (5 + 5 * i)).take 4 = leBytes ft[i].cnt := by
  have htail := congrArg (List.drop 1) (headerBytes_entry ft n vbc h)
  rwa [List.drop_take, List.drop_drop, Nat.add_right_comm] at htail

theorem headerBytes_totalSymbols :
    ((headerBytes ft n vbc).drop (4 + 5 * ft.length)).take 4 = leBytes (BitVec.ofNat 32 n) :=
  take_drop_of_append (headerBytes_eq ft n vbc) (by simp) rfl

theorem headerBytes_validBitCount :
    ((headerBytes ft n vbc).drop (8 + 5 * ft.length)).take 4 = leBytes (BitVec.ofNat 32 vbc) :=
  take_drop_of_append (post := []) ((headerBytes_eq ft n vbc).trans (List.append_nil _).symm) (by simp; omega) rfl

end layout

/-- Settles O26: the fields of the header stand where the parts before them end. -/
theorem headerBytesFollowTheLayout : Obligations.HeaderBytesFollowTheLayout := by
  unfold Obligations.HeaderBytesFollowTheLayout
  rintro ft n vbc hd - rfl
  refine ⟨headerBytes_length ft _ _, headerBytes_symbolCount ft _ _,
    fun i h => ⟨headerBytes_sym ft _ _ h, headerBytes_cnt ft _ _ h⟩, ?_, ?_⟩
  · rw [headerBytes_totalSymbols, BitVec.ofNat_toNat, BitVec.setWidth_eq]
  · rw [headerBytes_validBitCount, BitVec.ofNat_toNat, BitVec.setWidth_eq]

end Sys2Proof.Proofs
end

section
/-! ### ParseHeader of a well-formed header -/

namespace Sys2Proof.Proofs

open Sys2Proof.Machine Sys2Proof.Safety

variable {s : State} {off len : Nat}

theorem ib_of_bytesAt {bs : List Byte} {o : Nat} {b : Byte} (h : BytesAt s off bs) (ho : bs[o]? = some b) :
    s.ib (off + o) = .ok b := by
  obtain ⟨hlt, rfl⟩ := List.getElem?_eq_some_iff.mp ho
  exact h o hlt

/-- A word that stands at offset o of the bytes is read there. -/
theorem le32_of_bytesAt_slice {bs : List Byte} {o : Nat} {w : Word} (h : BytesAt s off bs)
    (ho : (bs.drop o).take 4 = leBytes w) : s.le32 (off + o) = .ok w := by
  refine le32_of_bytesAt fun i hi => ?_
  rw [Nat.add_assoc]
  refine ib_of_bytesAt h ?_
  rw [← List.getElem?_drop, ← List.getElem?_take_of_lt (j := 4) hi, ho, List.getElem?_eq_getElem hi]

/-- A symbol of a table without repeated symbols does not stand before itself. -/
theorem sym_ne_of_mem_take {ft : FreqTable} (hd : (ft.map FtEntry.sym).Nodup) {r : Nat} (h : r < ft.length) :
    ∀ e ∈ ft.take r, e.sym ≠ ft[r].sym := by
  have htake := hd.sublist ((List.take_sublist (r + 1) ft).map FtEntry.sym)
  rw [← List.take_append_getElem h, List.map_append, List.map_singleton, ← List.concat_eq_append,
    List.nodup_concat] at htake
  exact fun e he heq => htake.1 (heq ▸ List.mem_map_of_mem he)

/-- The entry loop, `m` entries before the end of a header's table, reads the rest of the table
(44_decoder_bit_reader.md R321). -/
theorem parseEntries_of_header {ft : FreqTable} {n vbc : Nat} (hft : DistinctCounted ft)
    (hb : BytesAt s off (headerBytes ft n vbc)) (hlen : 4 + 5 * ft.length ≤ len) {m r : Nat}
    (hr : r + m = ft.length) : s.parseEntries off len m r (ft.take r) = .ok ft := by
  obtain ⟨hdistinct, hcounted⟩ := hft
  induction m generalizing r with
  | zero => exact congrArg Except.ok (List.take_of_length_le hr.ge)
  | succ m ih =>
    have hlt : r < ft.length := by omega
    have hsym : s.ib (off + 4 + 5 * r) = .ok ft[r].sym :=
      Nat.add_assoc off 4 _ ▸ ib_of_bytesAt hb (headerBytes_sym ft n vbc hlt)
    have hcnt : s.le32 (off + 5 + 5 * r) = .ok ft[r].cnt :=
      Nat.add_assoc off 5 _ ▸ le32_of_bytesAt_slice hb (headerBytes_cnt ft n vbc hlt)
    have hnew : ¬((ft.take r).any fun e => e.sym == ft[r].sym) = true := by
      simpa using sym_ne_of_mem_take hdistinct hlt
    have hpos : ft[r].cnt ≠ 0 := hcounted _ (List.getElem_mem hlt)
    rw [State.parseEntries, need_eq_ok.mpr (by omega), run_ok_bind, hsym, run_ok_bind, if_neg hnew,
      need_eq_ok.mpr (by omega), run_ok_bind, hcnt, run_ok_bind, if_neg hpos, List.take_append_getElem hlt]
    exact ih (by omega)

/-- ParseHeader of the header of a well-formed table, with a positive symbol count and payload bytes for every valid
bit (44_decoder_bit_reader.md R321). -/
theorem parseHeader_of_header {ft : FreqTable} {n vbc : Word} (hft : FreqTableOk ft) (hn : n ≠ 0)
    (hb : BytesAt s off (headerBytes ft n.toNat vbc.toNat))
    (hlen : 12 + 5 * ft.length + ceil8 vbc.toNat ≤ len) :
    s.parseHeader off len = .ok (ft, ⟨n, vbc, BitVec.ofNat 32 (off + 12 + 5 * ft.length)⟩) := by
  obtain ⟨hpos, hle, hdc⟩ := hft
  have hk : (BitVec.ofNat 32 ft.length).toNat = ft.length := Nat.mod_eq_of_lt (by omega)
  have hkw : s.le32 off = _ := le32_of_bytesAt_slice (o := 0) hb (headerBytes_symbolCount ft _ _)
  have hentries : s.parseEntries off len ft.length 0 [] = .ok ft :=
    parseEntries_of_header hdc hb (by omega) (Nat.zero_add _)
  have hnw := le32_of_bytesAt_slice hb (headerBytes_totalSymbols ft _ _)
  have hvw := le32_of_bytesAt_slice hb (headerBytes_validBitCount ft _ _)
  rw [BitVec.ofNat_toNat, BitVec.setWidth_eq, ← Nat.add_assoc] at hnw hvw
  rw [State.parseHeader, need_eq_ok.mpr (by omega), run_ok_bind, hkw, run_ok_bind]
  dsimp only
  rw [hk, if_neg (by omega), hentries, run_ok_bind, need_eq_ok.mpr (by omega), run_ok_bind, hnw, run_ok_bind,
    if_neg hn, need_eq_ok.mpr (by omega), run_ok_bind, hvw, run_ok_bind, if_neg (by omega)]
  rfl

/-- Settles O15: ParseHeader reads back the header, and PARSE latches it. -/
theorem parseLatchesTheHeader : Obligations.ParseLatchesTheHeader := by
  unfold Obligations.ParseLatchesTheHeader
  intro s ft n vbc hft hn hin hb hlen
  rw [exec, execParse, checkInput_eq_ok.mpr hin, run_ok_bind, parseHeader_of_header hft hn hb hlen]
  rfl

end Sys2Proof.Proofs
end

section
/-! ### SCAN counts its input -/

namespace Sys2Proof.Proofs

open Sys2Proof.Machine Sys2Proof.Safety

/-! #### The counts -/

@[simp] theorem cnt_nil (b : Byte) : FreqTable.cnt [] b = 0 := rfl

theorem cnt_cons (e : FtEntry) (ft : FreqTable) (b : Byte) :
    FreqTable.cnt (e :: ft) b = if e.sym = b then e.cnt else FreqTable.cnt ft b := by
  rw [FreqTable.cnt, List.find?_cons]
  by_cases h : e.sym = b
  · simp [h]
  · rw [if_neg h, beq_false_of_ne h]
    rfl

/-- One byte of the scan counts its own symbol once more, modulo 2^32 (40_frequency_scanner.md R200). -/
theorem cnt_bump (ft : FreqTable) (a b : Byte) :
    FreqTable.cnt (FreqTable.bump ft a) b = FreqTable.cnt ft b + if a = b then 1 else 0 := by
  induction ft with
  | nil => simp [FreqTable.bump, cnt_cons]
  | cons e es ih =>
    rw [FreqTable.bump]
    split
    · next hs =>
      subst hs
      rw [cnt_cons, cnt_cons]
      split <;> simp
    · next hs =>
      rw [cnt_cons, cnt_cons, ih]
      split
      · next hb => simp [← hb, Ne.symm hs]
      · rfl

theorem scanBytes_concat (bs : List Byte) (b : Byte) : scanBytes (bs ++ [b]) = FreqTable.bump (scanBytes bs) b := by
  rw [scanBytes, List.foldl_concat, scanBytes]

/-- The scan counts the occurrences of every byte, modulo 2^32. -/
theorem cnt_scanBytes (bs : List Byte) (b : Byte) : FreqTable.cnt (scanBytes bs) b = BitVec.ofNat 32 (bs.count b) := by
  induction bs using List.reverseRecOn with
  | nil => rfl
  | append_singleton bs a ih =>
    rw [scanBytes_concat, cnt_bump, ih, List.count_append, List.count_singleton, BitVec.ofNat_add]
    by_cases h : a = b <;> simp [h]

/-- No count wraps in a scan of fewer than 2^32 bytes. -/
theorem cnt_scanBytes_toNat {bs : List Byte} (h : bs.length < 2 ^ 32) (b : Byte) :
    (FreqTable.cnt (scanBytes bs) b).toNat = bs.count b := by
  rw [cnt_scanBytes, BitVec.toNat_ofNat, Nat.mod_eq_of_lt (List.count_le_length.trans_lt h)]

/-! #### The symbols and their order -/

theorem map_sym_scanBytes_concat (bs : List Byte) (b : Byte) :
    (scanBytes (bs ++ [b])).map FtEntry.sym =
      if b ∈ (scanBytes bs).map FtEntry.sym then (scanBytes bs).map FtEntry.sym
      else (scanBytes bs).map FtEntry.sym ++ [b] := by
  rw [scanBytes_concat, map_sym_bump]

/-- The symbols of the scan are the bytes that occur. -/
theorem mem_map_sym_scanBytes {bs : List Byte} {b : Byte} : b ∈ (scanBytes bs).map FtEntry.sym ↔ b ∈ bs := by
  induction bs using List.reverseRecOn with
  | nil => rfl
  | append_singleton bs a ih =>
    rw [map_sym_scanBytes_concat, List.mem_append, List.mem_singleton, ← ih]
    split
    · next ha => exact ⟨.inl, fun h => h.elim id fun hb => hb ▸ ha⟩
    · rw [List.mem_append, List.mem_singleton]

/-- The scan lists its symbols in the order of their first occurrence: a byte seen before keeps the places of first
occurrence, a new one first occurs after all of them. -/
theorem map_sym_scanBytes_pairwise (bs : List Byte) :
    ((scanBytes bs).map FtEntry.sym).Pairwise (fun x y => bs.idxOf x < bs.idxOf y) := by
  induction bs using List.reverseRecOn with
  | nil => exact .nil
  | append_singleton bs a ih =>
    have hidx : ∀ x ∈ (scanBytes bs).map FtEntry.sym, (bs ++ [a]).idxOf x = bs.idxOf x := fun x hx =>
      List.idxOf_append_of_mem (mem_map_sym_scanBytes.mp hx)
    have hkept : ((scanBytes bs).map FtEntry.sym).Pairwise fun x y => (bs ++ [a]).idxOf x < (bs ++ [a]).idxOf y :=
      ih.imp_of_mem fun {x y} hx hy hlt => by rwa [hidx x hx, hidx y hy]
    rw [map_sym_scanBytes_concat]
    split
    · exact hkept
    · next ha =>
      refine List.pairwise_append.mpr ⟨hkept, List.pairwise_singleton _ _, fun x hx y hy => ?_⟩
      rw [List.mem_singleton.mp hy, hidx x hx, List.idxOf_append_of_notMem (mt mem_map_sym_scanBytes.mpr ha)]
      exact (List.idxOf_lt_length_of_mem (mem_map_sym_scanBytes.mp hx)).trans_le (Nat.le_add_right _ _)

/-! #### The command -/

theorem inLen_ne_zero_of_inputHolds {s : State} {bs : List Byte} (h : InputHolds s bs) (hne : bs ≠ []) :
    s.range.inLen ≠ 0 := fun h0 =>
  hne (List.eq_nil_of_length_eq_zero (by rw [h.1, h0]; rfl))

/-- SCAN of a non-empty input succeeds with its updates (40_frequency_scanner.md R201). -/
theorem execScan_of_inputHolds {s : State} {bs : List Byte} (h : InputHolds s bs) (hne : bs ≠ []) :
    execScan s = .next (s.scanned bs).complete := by
  have ⟨_, hin, _⟩ := h
  rw [execScan, checkInput_eq_ok.mpr hin, run_ok_bind, checkNonEmpty_eq_ok.mpr (inLen_ne_zero_of_inputHolds h hne),
    run_ok_bind, inputBytes_of_holds h, run_ok_bind, run_pure, finish_ok]

/-- Settles O11: SCAN succeeds, and the counts, the symbols and their order follow byte by byte. -/
theorem scanCountsInFirstOccurrenceOrder : Obligations.ScanCountsInFirstOccurrenceOrder := by
  unfold Obligations.ScanCountsInFirstOccurrenceOrder
  exact fun s bs h hne => ⟨execScan_of_inputHolds h hne, cnt_scanBytes_toNat (inputHolds_length_lt h),
    fun b => mem_map_sym_scanBytes, map_sym_scanBytes_pairwise bs⟩

end Sys2Proof.Proofs
end

section
/-! ### BUILD completes -/

namespace Sys2Proof.Proofs

open Sys2Proof.Machine Sys2Proof.Safety

/-- BUILD of a valid table succeeds with its updates (41_tree_builder.md R226). -/
theorem execBuild_of_ftValid {s : State} (h : s.status.ftValid = true) : execBuild s = .next s.built.complete := by
  rw [execBuild, checkTables_eq_ok.mpr (missing_build_eq_zero.mpr h), run_ok_bind, run_pure, finish_ok]

/-- Settles O12: the table check passes, and the updates are those of R226 and of a completion. -/
theorem buildMakesTheTree : Obligations.BuildMakesTheTree := by
  unfold Obligations.BuildMakesTheTree
  exact fun s h => execBuild_of_ftValid h

end Sys2Proof.Proofs
end

section
/-! ### The queue is in order -/

namespace Sys2Proof.Proofs

open Sys2Proof.Machine Sys2Proof.Safety

/-- An added node leaves the nodes made before it as they are. -/
theorem buildAdd_node_lt {b : BuildState} {x : Fin 511} (hx : x.val < b.next) (nd : Node) (w : BitVec 40)
    (q : List QueueEntry) : (b.add nd w q).node[x] = b.node[x] := by
  rw [buildAdd_node, if_neg hx.ne]

theorem buildAdd_node_new {b : BuildState} {x : Fin 511} (hx : x.val = b.next) (nd : Node) (w : BitVec 40)
    (q : List QueueEntry) : (b.add nd w q).node[x] = nd := by
  rw [buildAdd_node, if_pos hx]

theorem Forest.entry_lt {b : BuildState} (h : Forest b) {e : QueueEntry} (he : e ∈ b.queue) : e.node.val < b.next :=
  h.root_lt _ (List.mem_map_of_mem he)

/-- The children of a merge are nodes made before it. -/
theorem Forest.merge_child_lt {b : BuildState} {x y : QueueEntry} {rest : List QueueEntry} (h : Forest b)
    (hq : b.queue = x :: y :: rest) {w : BitVec 40} {z : Fin 511} (hz : HasChild (.internal x.node y.node w) z) :
    z.val < b.next := by
  rcases hasChild_internal.mp hz with rfl | rfl
  · exact h.entry_lt (by simp [hq])
  · exact h.entry_lt (by simp [hq])

theorem less_iff {x y : QueueEntry} :
    x.less y = true ↔ x.weight < y.weight ∨ x.weight = y.weight ∧ x.seq < y.seq := by
  simp [QueueEntry.less]

theorem less_trans {x y z : QueueEntry} (hxy : x.less y = true) (hyz : y.less z = true) : x.less z = true := by
  rw [less_iff, BitVec.lt_def, ← BitVec.toNat_inj] at *
  omega

/-- Of two entries the one inserted first is less, unless the other has the smaller weight. -/
theorem less_of_not_less {x y : QueueEntry} (h : ¬y.less x = true) (hseq : x.seq < y.seq) : x.less y = true := by
  rw [less_iff, BitVec.lt_def, ← BitVec.toNat_inj] at *
  omega

/-- The entries stand in rising order, so that extractMin takes the head (41_tree_builder.md R220). -/
def Rising (q : List QueueEntry) : Prop := q.Pairwise fun x y => x.less y = true

/-- The insertion of an entry with a new sequence number keeps the order (41_tree_builder.md R221). -/
theorem Rising.queueInsert {q : List QueueEntry} {e : QueueEntry} (h : Rising q) (hseq : ∀ x ∈ q, x.seq < e.seq) :
    Rising (queueInsert q e) := by
  induction q with
  | nil => exact List.pairwise_singleton _ e
  | cons x xs ih =>
    obtain ⟨hx, hxs⟩ := List.pairwise_cons.mp h
    rw [Machine.queueInsert]
    split
    · next hex =>
      exact List.pairwise_cons.mpr ⟨List.forall_mem_cons.mpr ⟨hex, fun z hz => less_trans hex (hx z hz)⟩, h⟩
    · next hex =>
      have hxe : x.less e = true := less_of_not_less hex (hseq x List.mem_cons_self)
      refine List.pairwise_cons.mpr ⟨fun z hz => ?_, ih hxs fun z hz => hseq z (List.mem_cons_of_mem x hz)⟩
      rcases List.mem_cons.mp ((queueInsert_perm xs e).mem_iff.mp hz) with rfl | hz
      · exact hxe
      · exact hx z hz

/-- The queue is in order, and its entries show the weights and the indices of their nodes: a node's index is its
insertion number (41_tree_builder.md R223). -/
structure Queued (b : BuildState) : Prop where
  rising : Rising b.queue
  entry_seq : ∀ e ∈ b.queue, e.seq = e.node.val
  entry_weight : ∀ e ∈ b.queue, e.weight = nodeWeight b.node[e.node]
  seq : b.seq = b.next

theorem Queued.add {b : BuildState} {nd : Node} {q : List QueueEntry} (h : Queued b) (hb : Forest b)
    (hnext : b.next < 511) (hq : q.Sublist b.queue) : Queued (b.add nd (nodeWeight nd) q) := by
  have hnew : (Fin.ofNat 511 b.next).val = b.next := Nat.mod_eq_of_lt hnext
  have hmem : ∀ e ∈ (b.add nd (nodeWeight nd) q).queue,
      e = ⟨nodeWeight nd, b.seq, Fin.ofNat 511 b.next⟩ ∨ e ∈ b.queue := fun e he =>
    (List.mem_cons.mp ((queueInsert_perm q _).mem_iff.mp he)).imp_right fun he => hq.subset he
  exact {
    rising := Rising.queueInsert (List.Pairwise.sublist hq h.rising) fun e he => by
      have := hb.entry_lt (hq.subset he)
      rwa [h.seq, h.entry_seq e (hq.subset he)]
    entry_seq := fun e he => by
      rcases hmem e he with rfl | he
      · rw [hnew, h.seq]
      · exact h.entry_seq e he
    entry_weight := fun e he => by
      rcases hmem e he with rfl | he
      · rw [buildAdd_node_new hnew]
      · rw [buildAdd_node_lt (hb.entry_lt he), h.entry_weight e he]
    seq := congrArg (· + 1) h.seq }

/-- The order of two entries of the queue is the order of their nodes. -/
theorem Queued.nodeLess {b : BuildState} (h : Queued b) {x y : QueueEntry} (hx : x ∈ b.queue) (hy : y ∈ b.queue)
    (hless : x.less y = true) : NodeLess b.node x.node y.node := by
  rwa [less_iff, h.entry_seq x hx, h.entry_seq y hy, h.entry_weight x hx, h.entry_weight y hy] at hless

end Sys2Proof.Proofs
end

section
/-! ### What every turn of `Build()` keeps -/

namespace Sys2Proof.Proofs

open Sys2Proof.Machine Sys2Proof.Safety

/-- The leaf of an entry is added to the queue (41_tree_builder.md R221). -/
def leafNext (b : BuildState) (e : FtEntry) : BuildState :=
  b.add (.leaf e.sym (e.cnt.setWidth 40)) (e.cnt.setWidth 40) b.queue

/-- The run of `Build()` after the leaves of `ft`: its nodes, and the queue in order. -/
structure Running (ft : FreqTable) (b : BuildState) : Prop extends Building ft b, Queued b

theorem running_nil (node : Vector Node 511) : Running [] ⟨node, [], 0, 0⟩ :=
  ⟨building_nil node, List.Pairwise.nil, nofun, nofun, rfl⟩

theorem Running.addLeaf {done : FreqTable} {b : BuildState} (h : Running done b) (hnext : b.next = done.length)
    (hlt : b.next < 511) (e : FtEntry) : Running (done ++ [e]) (leafNext b e) :=
  ⟨h.toBuilding.addLeaf hnext hlt, h.toQueued.add h.forest hlt (List.Sublist.refl _)⟩

theorem Running.next_lt {ft : FreqTable} {b : BuildState} {x y : QueueEntry} {rest : List QueueEntry}
    (h : Running ft b) (hft : ft.length ≤ 256) (hq : b.queue = x :: y :: rest) : b.next < 511 := by
  have hbudget := h.budget
  rw [hq, List.length_cons, List.length_cons] at hbudget
  omega

theorem Running.merge {ft : FreqTable} {b : BuildState} {x y : QueueEntry} {rest : List QueueEntry}
    (h : Running ft b) (hft : ft.length ≤ 256) (hq : b.queue = x :: y :: rest) : Running ft (mergeNext b x y rest) :=
  ⟨Building.merge hft hq h.toBuilding, h.toQueued.add h.forest (h.next_lt hft hq) (by simp [hq])⟩

/-- What each leaf keeps, the loading of the leaves keeps. -/
theorem loadLeaves_induction {P : FreqTable → BuildState → Prop}
    (hleaf : ∀ done e b, Running done b → b.next = done.length → b.next < 511 → P done b →
      P (done ++ [e]) (leafNext b e))
    {es done : FreqTable} {b : BuildState} (hb : Running done b) (hnext : b.next = done.length)
    (hle : done.length + es.length ≤ 256) (hP : P done b) :
    Running (done ++ es) (loadLeaves es b) ∧ P (done ++ es) (loadLeaves es b) := by
  induction es generalizing done b with
  | nil =>
    rw [List.append_nil]
    exact ⟨hb, hP⟩
  | cons e es ih =>
    rw [List.length_cons] at hle
    have hlt : b.next < 511 := by omega
    rw [List.append_cons]
    exact ih (hb.addLeaf hnext hlt e) (by simp [hnext]) (by simp; omega) (hleaf done e b hb hnext hlt hP)

/-- What each leaf keeps while the table is loaded and each merge keeps after it, the whole run keeps. -/
theorem buildRun_induction {P : FreqTable → BuildState → Prop} {ft : FreqTable} (h : FreqTableOk ft)
    (node : Vector Node 511) (hnil : P [] ⟨node, [], 0, 0⟩)
    (hleaf : ∀ done e b, Running done b → b.next = done.length → b.next < 511 → P done b →
      P (done ++ [e]) (leafNext b e))
    (hmerge : ∀ b x y rest, Running ft b → b.queue = x :: y :: rest → b.next < 511 → P ft b →
      P ft (mergeNext b x y rest)) :
    Running ft (buildRun ft node) ∧ P ft (buildRun ft node) := by
  refine mergeAll_induction (P := fun b => Running ft b ∧ P ft b) (fun b x y rest hq ⟨hb, hP⟩ => ?_) _
    (loadLeaves_induction hleaf (running_nil node) rfl (by simpa using h.2.1) hnil)
  exact ⟨hb.merge h.2.1 hq, hmerge b x y rest hb hq (hb.next_lt h.2.1 hq) hP⟩

/-- The entry left at the end of the run is that of ROOT. -/
theorem buildRun_queue {ft : FreqTable} (h : FreqTableOk ft) (old : Tree) :
    ∃ e, (buildRun ft old.node).queue = [e] ∧ e.node = (buildTree ft old).root := by
  obtain ⟨-, e, hq, he⟩ := buildRun_end h old.node
  exact ⟨e, hq, Fin.ext (he.trans (buildTree_root h old).symm)⟩

end Sys2Proof.Proofs
end

section
/-! ### Each merge takes the two least -/

namespace Sys2Proof.Proofs

open Sys2Proof.Machine Sys2Proof.Safety

/-- Node x is the parent of the two least nodes in the queue when it is made, the least on the left
(41_tree_builder.md R222). -/
def MergesLeast (node : Vector Node 511) (x : Fin 511) : Prop :=
  ∃ l r, node[x] = .internal l r (nodeWeight node[l] + nodeWeight node[r]) ∧
    InQueue node x.val l ∧ InQueue node x.val r ∧ NodeLess node l r ∧
    ∀ y, InQueue node x.val y → y ≠ l → y ≠ r → NodeLess node r y

theorem inQueue_iff {node : Vector Node 511} {n : Nat} {x : Fin 511} :
    InQueue node n x ↔ x.val < n ∧ ∀ y : Fin 511, y.val < n → ¬HasChild node[y] x := by
  refine and_congr_right fun _ => forall₂_congr fun y _ => ?_
  cases node[y] <;> simp

/-- The nodes in the queue are the roots of the forest. -/
theorem Forest.inQueue_iff {b : BuildState} (h : Forest b) {x : Fin 511} :
    InQueue b.node b.next x ↔ x ∈ roots b := by
  rw [Proofs.inQueue_iff]
  refine ⟨fun ⟨hx, hnone⟩ => ?_, fun hx => ⟨h.root_lt x hx, h.orphan x hx⟩⟩
  by_contra hroot
  obtain ⟨y, ⟨hy, hyx⟩, -⟩ := h.parent x hx hroot
  exact hnone y hy hyx

/-! #### Later nodes do not matter -/

section congr

variable {node node' : Vector Node 511}

theorem inQueue_congr {n : Nat} (h : ∀ y : Fin 511, y.val < n → node'[y] = node[y]) (x : Fin 511) :
    InQueue node' n x ↔ InQueue node n x := by
  rw [inQueue_iff, inQueue_iff]
  exact and_congr_right fun _ => forall₂_congr fun y hy => by rw [h y hy]

theorem nodeLess_congr {x y : Fin 511} (hx : node'[x] = node[x]) (hy : node'[y] = node[y]) :
    NodeLess node' x y ↔ NodeLess node x y := by
  rw [NodeLess, NodeLess, hx, hy]

theorem MergesLeast.congr {x : Fin 511} (h : MergesLeast node x)
    (heq : ∀ y : Fin 511, y.val ≤ x.val → node'[y] = node[y]) : MergesLeast node' x := by
  have hlt : ∀ y : Fin 511, y.val < x.val → node'[y] = node[y] := fun y hy => heq y hy.le
  obtain ⟨l, r, hx, hl, hr, hlr, hleast⟩ := h
  refine ⟨l, r, ?_, (inQueue_congr hlt l).mpr hl, (inQueue_congr hlt r).mpr hr,
    (nodeLess_congr (hlt l hl.1) (hlt r hr.1)).mpr hlr, fun y hy hyl hyr => ?_⟩
  · rw [heq x le_rfl, hlt l hl.1, hlt r hr.1, hx]
  · exact (nodeLess_congr (hlt r hr.1) (hlt y hy.1)).mpr (hleast y ((inQueue_congr hlt y).mp hy) hyl hyr)

end congr

/-- The new node of a merge: its children are the first two entries of a queue in order. -/
theorem Running.mergesLeast {ft : FreqTable} {b : BuildState} {x y : QueueEntry} {rest : List QueueEntry}
    (h : Running ft b) (hq : b.queue = x :: y :: rest) {z : Fin 511} (hz : z.val = b.next) :
    MergesLeast (mergeNext b x y rest).node z := by
  have hb := h.forest
  have hx : x ∈ b.queue := by simp [hq]
  have hy : y ∈ b.queue := by simp [hq]
  have hrising := h.rising
  rw [hq, Rising, List.pairwise_cons, List.pairwise_cons] at hrising
  obtain ⟨hxlt, hylt, -⟩ := hrising
  have hkept : ∀ i : Fin 511, i.val < b.next → (mergeNext b x y rest).node[i] = b.node[i] := fun i hi =>
    buildAdd_node_lt hi _ _ _
  have hinq : ∀ i, InQueue (mergeNext b x y rest).node z.val i ↔ i ∈ roots b := fun i => by
    rw [hz, inQueue_congr hkept, hb.inQueue_iff]
  have hless : ∀ e ∈ b.queue, ∀ e' ∈ b.queue, e.less e' = true →
      NodeLess (mergeNext b x y rest).node e.node e'.node := fun e he e' he' hlt =>
    (nodeLess_congr (hkept _ (hb.entry_lt he)) (hkept _ (hb.entry_lt he'))).mpr (h.toQueued.nodeLess he he' hlt)
  refine ⟨x.node, y.node, ?_, (hinq _).mpr (List.mem_map_of_mem hx), (hinq _).mpr (List.mem_map_of_mem hy),
    hless x hx y hy (hxlt y List.mem_cons_self), fun i hi hix hiy => ?_⟩
  · rw [hkept _ (hb.entry_lt hx), hkept _ (hb.entry_lt hy), ← h.entry_weight x hx, ← h.entry_weight y hy, mergeNext,
      buildAdd_node_new hz]
  · obtain ⟨e, he, rfl⟩ := List.mem_map.mp ((hinq i).mp hi)
    have herest : e ∈ rest := by
      rw [hq, List.mem_cons, List.mem_cons] at he
      exact (he.resolve_left fun h => hix (h ▸ rfl)).resolve_left fun h => hiy (h ▸ rfl)
    exact hless y hy e he (hylt e herest)

/-- The internal nodes made so far are the parents of the two least. -/
def LeastFirst (ft : FreqTable) (b : BuildState) : Prop :=
  ∀ x : Fin 511, ft.length ≤ x.val → x.val < b.next → MergesLeast b.node x

theorem leastFirst_buildRun {ft : FreqTable} (h : FreqTableOk ft) (node : Vector Node 511) :
    LeastFirst ft (buildRun ft node) := by
  refine (buildRun_induction h node nofun ?_ ?_).2
  · intro done e b _ hnext _ _ x hx hx'
    rw [leafNext, buildAdd_next] at hx'
    rw [List.length_append, List.length_singleton] at hx
    omega
  · intro b x y rest hb hq _ hleast z hz hz'
    rw [mergeNext, buildAdd_next] at hz'
    rcases Nat.lt_succ_iff_lt_or_eq.mp hz' with hz' | hz'
    · exact (hleast z hz hz').congr fun i hi => buildAdd_node_lt (by omega) _ _ _
    · exact hb.mergesLeast hq hz'

/-- Settles O20: the queue is kept in order of weight and node index, so its first two entries are the two least. -/
theorem buildMergesTheTwoLeast : Obligations.BuildMergesTheTwoLeast := by
  unfold Obligations.BuildMergesTheTwoLeast
  rintro ft old _ h rfl x hx hx'
  rw [← (buildRun_end h old.node).1] at hx'
  exact leastFirst_buildRun h old.node x hx hx'

end Sys2Proof.Proofs
end

section
/-! ### The weights are exact sums -/

namespace Sys2Proof.Proofs

open Sys2Proof.Machine Sys2Proof.Safety

/-- The sum of the counts. -/
def countSum (ft : FreqTable) : Nat := (ft.map fun e => e.cnt.toNat).sum

/-- The sum of the weights in the queue. -/
def weightSum (q : List QueueEntry) : Nat := (q.map fun e => e.weight.toNat).sum

/-- 256 counts of 32 bits do not fill 40 bits (41_tree_builder.md R224). -/
theorem countSum_lt {ft : FreqTable} (h : FreqTableOk ft) : countSum ft < 2 ^ 40 := by
  have hcnt : ∀ c ∈ ft.map fun e => e.cnt.toNat, c ≤ 2 ^ 32 - 1 :=
    List.forall_mem_map.mpr fun e _ => Nat.le_sub_one_of_lt e.cnt.isLt
  have hsum := List.sum_le_card_nsmul _ _ hcnt
  rw [List.length_map, smul_eq_mul] at hsum
  have hle := h.2.1
  rw [countSum]
  omega

theorem weightSum_buildAdd (b : BuildState) (nd : Node) (w : BitVec 40) (q : List QueueEntry) :
    weightSum (b.add nd w q).queue = w.toNat + weightSum q :=
  ((queueInsert_perm q _).map _).sum_eq

/-- The weights in the queue add up to the counts of the leaves, and each internal weight is the exact sum of its
children's. -/
structure Weighed (ft : FreqTable) (b : BuildState) : Prop where
  total : weightSum b.queue = countSum ft
  exact : ∀ (x l r : Fin 511) (w : BitVec 40), x.val < b.next → b.node[x] = .internal l r w →
    w.toNat = (nodeWeight b.node[l]).toNat + (nodeWeight b.node[r]).toNat

theorem Weighed.add {ft ft' : FreqTable} {b : BuildState} {nd : Node} {w : BitVec 40} {q : List QueueEntry}
    (h : Weighed ft b) (hb : Forest b) (hchild : ∀ x, HasChild nd x → x.val < b.next)
    (htotal : w.toNat + weightSum q = countSum ft')
    (hnew : ∀ l r w, nd = .internal l r w → w.toNat = (nodeWeight b.node[l]).toNat + (nodeWeight b.node[r]).toNat) :
    Weighed ft' (b.add nd w q) where
  total := (weightSum_buildAdd b nd w q).trans htotal
  exact x l r w' hx hnode := by
    have hlt : l.val < b.next ∧ r.val < b.next ∧
        w'.toNat = (nodeWeight b.node[l]).toNat + (nodeWeight b.node[r]).toNat := by
      rw [buildAdd_node] at hnode
      rw [buildAdd_next] at hx
      split at hnode
      · subst hnode
        exact ⟨hchild l (by simp), hchild r (by simp), hnew l r w' rfl⟩
      · have hx' : x.val < b.next := by omega
        have hc := hb.child_lt x hx'
        rw [hnode] at hc
        exact ⟨(hc l (by simp)).trans hx', (hc r (by simp)).trans hx', h.exact x l r w' hx' hnode⟩
    obtain ⟨hl, hr, hw⟩ := hlt
    rwa [buildAdd_node_lt hl, buildAdd_node_lt hr]

/-- A merge: the two weights are part of the total, which 40 bits hold. -/
theorem Weighed.merge {ft : FreqTable} {b : BuildState} {x y : QueueEntry} {rest : List QueueEntry}
    (h : Weighed ft b) (hft : FreqTableOk ft) (hb : Running ft b) (hq : b.queue = x :: y :: rest) :
    Weighed ft (mergeNext b x y rest) := by
  have hx : x ∈ b.queue := by simp [hq]
  have hy : y ∈ b.queue := by simp [hq]
  have htotal := h.total
  have hlt := countSum_lt hft
  simp only [hq, weightSum, List.map_cons, List.sum_cons] at htotal
  have hsum : (x.weight + y.weight).toNat = x.weight.toNat + y.weight.toNat := by
    rw [BitVec.toNat_add, Nat.mod_eq_of_lt (by omega)]
  refine h.add hb.forest (fun z hz => hb.forest.merge_child_lt hq hz) ?_ ?_
  · rw [hsum, weightSum]
    omega
  · rintro l r w ⟨⟩
    rw [hsum, hb.entry_weight x hx, hb.entry_weight y hy]

theorem weighed_buildRun {ft : FreqTable} (h : FreqTableOk ft) (node : Vector Node 511) :
    Running ft (buildRun ft node) ∧ Weighed ft (buildRun ft node) := by
  refine buildRun_induction h node ⟨rfl, nofun⟩ ?_ ?_
  · intro done e b hb _ _ hweighed
    refine hweighed.add hb.forest (by simp) ?_ nofun
    rw [hweighed.total, BitVec.toNat_setWidth_of_le (by decide)]
    simp [countSum, Nat.add_comm]
  · intro b x y rest hb hq _ hweighed
    exact hweighed.merge h hb hq

/-- Settles O21: the weights in the queue always add up to the counts, which 40 bits hold. -/
theorem builtWeightsAreExact : Obligations.BuiltWeightsAreExact := by
  unfold Obligations.BuiltWeightsAreExact
  rintro ft old _ h rfl
  obtain ⟨hrun, hweighed⟩ := weighed_buildRun h old.node
  obtain ⟨e, hq, he⟩ := buildRun_queue h old
  have hweight : e.weight = nodeWeight (buildTree ft old).node[e.node] := hrun.entry_weight e (by simp [hq])
  refine ⟨?_, fun x l r w hx hnode => hweighed.exact x l r w (by rwa [(buildRun_end h old.node).1]) hnode⟩
  calc (nodeWeight (buildTree ft old).node[(buildTree ft old).root]).toNat
      = e.weight.toNat := by simp only [← he, hweight]
    _ = weightSum (buildRun ft old.node).queue := by simp [hq, weightSum]
    _ = countSum ft := hweighed.total

end Sys2Proof.Proofs
end

section
/-! ### Code trees: the trees of symbols a node store holds -/

namespace Sys2Proof.Proofs

open Sys2Proof.Machine Sys2Proof.Safety

/-- A binary tree with a symbol at each leaf: a Huffman tree without its indices and weights. -/
inductive CodeTree where
  | leaf (sym : Byte)
  | node (left right : CodeTree)

namespace CodeTree

/-- The symbols, from left to right. -/
def leaves : CodeTree → List Byte
  | leaf sym => [sym]
  | node l r => l.leaves ++ r.leaves

def height : CodeTree → Nat
  | leaf _ => 0
  | node l r => max l.height r.height + 1

/-- Each symbol with the path to its leaf, after the bits `p` (42_code_assigner.md R250). -/
def paths : CodeTree → List Bool → List (Byte × List Bool)
  | leaf sym, p => [(sym, p)]
  | node l r, p => l.paths (p ++ [false]) ++ r.paths (p ++ [true])

/-- Each symbol with its code: its path, or the one bit 0 when it is the only one (42_code_assigner.md R251). -/
def codes : CodeTree → List (Byte × List Bool)
  | leaf sym => [(sym, [false])]
  | node l r => (node l r).paths []

theorem paths_map_fst (t : CodeTree) (p : List Bool) : (t.paths p).map Prod.fst = t.leaves := by
  induction t generalizing p with
  | leaf sym => rfl
  | node l r ihl ihr => rw [paths, leaves, List.map_append, ihl, ihr]

theorem codes_map_fst (t : CodeTree) : t.codes.map Prod.fst = t.leaves := by
  cases t with
  | leaf sym => rfl
  | node l r => exact paths_map_fst _ []

theorem leaves_length_pos (t : CodeTree) : 0 < t.leaves.length := by
  induction t with
  | leaf sym => exact Nat.one_pos
  | node l r ihl _ =>
    rw [leaves, List.length_append]
    omega

/-- Every level but the last costs a leaf (41_tree_builder.md R225). -/
theorem height_lt_leaves_length (t : CodeTree) : t.height < t.leaves.length := by
  induction t with
  | leaf sym => exact Nat.one_pos
  | node l r ihl ihr =>
    have hl := l.leaves_length_pos
    have hr := r.leaves_length_pos
    rw [height, leaves, List.length_append]
    omega

theorem paths_length {t : CodeTree} {p : List Bool} {c : Byte × List Bool} (h : c ∈ t.paths p) :
    p.length ≤ c.2.length ∧ c.2.length ≤ p.length + t.height := by
  induction t generalizing p with
  | leaf sym =>
    rw [paths, List.mem_singleton] at h
    simp [h, height]
  | node l r ihl ihr =>
    have hlen := (List.mem_append.mp h).imp ihl ihr
    simp only [List.length_append, List.length_singleton] at hlen
    rw [height]
    omega

/-- The codes of at least two symbols have between one bit and as many as the tree is high. -/
theorem codes_length_node {l r : CodeTree} {c : Byte × List Bool} (h : c ∈ (node l r).codes) :
    1 ≤ c.2.length ∧ c.2.length ≤ (node l r).height := by
  have hlen := (List.mem_append.mp h).imp paths_length paths_length
  simp only [List.nil_append, List.length_singleton] at hlen
  rw [height]
  omega

/-- The Kraft sum of the paths below `p`, multiplied by `2 ^ m`: each inner node halves its share. -/
theorem paths_kraft {t : CodeTree} {p : List Bool} {m : Nat} (h : p.length + t.height ≤ m) :
    ((t.paths p).map fun c => 2 ^ (m - c.2.length)).sum = 2 ^ (m - p.length) := by
  induction t generalizing p with
  | leaf sym => simp [paths]
  | node l r ihl ihr =>
    rw [height] at h
    have hhalf : ∀ b : Bool, (p ++ [b]).length = p.length + 1 := fun b => by simp
    rw [paths, List.map_append, List.sum_append, ihl (by rw [hhalf]; omega), ihr (by rw [hhalf]; omega), hhalf, hhalf,
      ← Nat.two_mul, ← Nat.pow_succ']
    congr 1
    omega

end CodeTree

/-! #### The code table of a list of codes -/

/-- The entries of `cs` put into a table, in order. -/
def putCodes (ct : CodeTable) (cs : List (Byte × List Bool)) : CodeTable :=
  cs.foldl (fun ct c => CodeTable.put ct c.1 c.2) ct

theorem bits_put (ct : CodeTable) (sym sym' : Byte) (c : List Bool) :
    CodeTable.bits (CodeTable.put ct sym c) sym' = if sym = sym' then c else CodeTable.bits ct sym' := by
  simp only [CodeTable.bits, CodeTable.put, Vector.getElem_set, BitVec.toNat_inj]

theorem bits_putCodes_of_notMem {cs : List (Byte × List Bool)} {sym : Byte} (h : sym ∉ cs.map Prod.fst)
    (ct : CodeTable) : CodeTable.bits (putCodes ct cs) sym = CodeTable.bits ct sym := by
  induction cs generalizing ct with
  | nil => rfl
  | cons c cs ih =>
    rw [List.map_cons, List.mem_cons, not_or] at h
    rw [putCodes, List.foldl_cons, ← putCodes, ih h.2, bits_put, if_neg (Ne.symm h.1)]

/-- Of different symbols each has the code put for it. -/
theorem bits_putCodes_of_mem {cs : List (Byte × List Bool)} (hd : (cs.map Prod.fst).Nodup) {c : Byte × List Bool}
    (h : c ∈ cs) (ct : CodeTable) : CodeTable.bits (putCodes ct cs) c.1 = c.2 := by
  induction cs generalizing ct with
  | nil => exact absurd h List.not_mem_nil
  | cons d cs ih =>
    obtain ⟨hnot, hd⟩ := List.nodup_cons.mp hd
    rw [putCodes, List.foldl_cons, ← putCodes]
    rcases List.mem_cons.mp h with rfl | h
    · rw [bits_putCodes_of_notMem hnot, bits_put, if_pos rfl]
    · exact ih hd h _

end Sys2Proof.Proofs
end

section
/-! ### The code tree of a frequency table -/

namespace Sys2Proof.Proofs

open Sys2Proof.Machine Sys2Proof.Safety

/-- The code tree of a node, when `T` gives those of its children. -/
def nodeTree (T : Fin 511 → CodeTree) : Node → CodeTree
  | .leaf sym _ => .leaf sym
  | .internal l r _ => .node (T l) (T r)

/-- `T` gives the code tree at each node below `n`. -/
def TreesBelow (node : Vector Node 511) (n : Nat) (T : Fin 511 → CodeTree) : Prop :=
  ∀ x : Fin 511, x.val < n → T x = nodeTree T node[x]

theorem nodeTree_congr {T T' : Fin 511 → CodeTree} {nd : Node} (h : ∀ x, HasChild nd x → T x = T' x) :
    nodeTree T nd = nodeTree T' nd := by
  cases nd with
  | leaf sym w => rfl
  | internal l r w => rw [nodeTree, nodeTree, h l (by simp), h r (by simp)]

/-- The run so far has made trees that hold the symbols of `ft`, each once: `T` gives the tree at each node. -/
structure Planted (ft : FreqTable) (T : Fin 511 → CodeTree) (b : BuildState) : Prop where
  trees : TreesBelow b.node b.next T
  symbols : ((roots b).flatMap fun x => (T x).leaves).Perm (ft.map FtEntry.sym)

/-- A new node over trees taken out of the queue. -/
theorem Planted.add {ft ft' : FreqTable} {T : Fin 511 → CodeTree} {b : BuildState} {nd : Node} {w : BitVec 40}
    {q : List QueueEntry} (h : Planted ft T b) (hb : Forest b) (hlt : b.next < 511) (hq : q.Sublist b.queue)
    (hchild : ∀ x, HasChild nd x → x.val < b.next)
    (hsym : ((nodeTree T nd).leaves ++ (q.map QueueEntry.node).flatMap fun x => (T x).leaves).Perm
      (ft'.map FtEntry.sym)) :
    Planted ft' (Function.update T (Fin.ofNat 511 b.next) (nodeTree T nd)) (b.add nd w q) := by
  have hnew : (Fin.ofNat 511 b.next).val = b.next := Nat.mod_eq_of_lt hlt
  have hold : ∀ x : Fin 511, x.val < b.next → Function.update T (Fin.ofNat 511 b.next) (nodeTree T nd) x = T x :=
    fun x hx => Function.update_of_ne (fun h => by rw [h] at hx; omega) _ _
  constructor
  · intro x hx
    rw [buildAdd_next] at hx
    rcases Nat.lt_succ_iff_lt_or_eq.mp hx with hx | hx
    · rw [hold x hx, buildAdd_node_lt hx, h.trees x hx]
      exact nodeTree_congr fun y hy => (hold y ((hb.child_lt x hx y hy).trans hx)).symm
    · rw [buildAdd_node_new hx, Fin.ext (hx.trans hnew.symm : x.val = _), Function.update_self]
      exact nodeTree_congr fun y hy => (hold y (hchild y hy)).symm
  · refine ((buildAdd_roots_perm b nd w q).flatMap_right _).trans ?_
    rw [List.flatMap_cons, Function.update_self]
    refine List.Perm.trans (List.Perm.append_left _ (.of_eq (List.flatMap_congr fun x hx => ?_))) hsym
    obtain ⟨e, he, rfl⟩ := List.mem_map.mp hx
    rw [hold _ (hb.entry_lt (hq.subset he))]

theorem planted_buildRun {ft : FreqTable} (h : FreqTableOk ft) (node : Vector Node 511) :
    ∃ T, Planted ft T (buildRun ft node) := by
  refine (buildRun_induction (P := fun ft b => ∃ T, Planted ft T b) h node
    ⟨fun _ => .leaf 0, nofun, List.Perm.refl _⟩ ?_ ?_).2
  · rintro done e b hb - hlt ⟨T, hT⟩
    refine ⟨_, hT.add hb.forest hlt (List.Sublist.refl _) (by simp) ?_⟩
    rw [List.map_append]
    exact List.perm_append_comm.trans (hT.symbols.append_right _)
  · rintro b x y rest hb hq hlt ⟨T, hT⟩
    refine ⟨_, hT.add hb.forest hlt (by simp [hq]) (fun z hz => hb.forest.merge_child_lt hq hz) ?_⟩
    simpa [roots, hq, nodeTree, CodeTree.leaves] using hT.symbols

/-! #### ASSIGN walks the code tree -/

section walk

variable {node : Vector Node 511} {n : Nat} {T : Fin 511 → CodeTree}

/-- The walk puts the paths of the tree into the table, from left to right (42_code_assigner.md R250). -/
theorem walk_eq_putCodes (hT : TreesBelow node n T)
    (hchild : ∀ x : Fin 511, x.val < n → ∀ y, HasChild node[x] y → y.val < x.val) {depth : Nat} {x : Fin 511}
    (hx : x.val < n) (hdepth : (T x).height < depth) (p : List Bool) (ct : CodeTable) :
    walk node depth x p ct = putCodes ct ((T x).paths p) := by
  induction depth generalizing x p ct with
  | zero => exact absurd hdepth (Nat.not_lt_zero _)
  | succ depth ih =>
    have htree := hT x hx
    have hlt := hchild x hx
    rw [walk]
    cases hnode : node[x] with
    | leaf sym w =>
      rw [hnode, nodeTree] at htree
      rw [htree]
      rfl
    | internal l r w =>
      rw [hnode, nodeTree] at htree
      rw [hnode] at hlt
      rw [htree, CodeTree.height] at hdepth
      rw [htree, CodeTree.paths, putCodes, List.foldl_append, ← putCodes, ← putCodes]
      dsimp only
      rw [ih ((hlt l (by simp)).trans hx) (by omega), ih ((hlt r (by simp)).trans hx) (by omega)]

/-- ASSIGN makes the codes of the tree at the root (42_code_assigner.md R250, R251). -/
theorem assignCodes_eq_putCodes {t : Tree} (hT : TreesBelow t.node n T)
    (hchild : ∀ x : Fin 511, x.val < n → ∀ y, HasChild t.node[x] y → y.val < x.val) (hroot : t.root.val < n)
    (hheight : (T t.root).height < 256) : assignCodes t = putCodes CodeTable.empty (T t.root).codes := by
  have htree := hT t.root hroot
  have hwalk := walk_eq_putCodes hT hchild hroot hheight [] CodeTable.empty
  rw [assignCodes]
  cases hnode : t.node[t.root] with
  | leaf sym w =>
    rw [hnode, nodeTree] at htree
    rw [htree]
    rfl
  | internal l r w =>
    rw [hnode, nodeTree] at htree
    rw [htree] at hwalk ⊢
    exact hwalk

end walk

/-- ASSIGN of a built tree makes the codes of a code tree with the symbols of the table, each once. -/
theorem assignCodes_buildTree {ft : FreqTable} (h : FreqTableOk ft) (old : Tree) :
    ∃ t : CodeTree, t.leaves.Perm (ft.map FtEntry.sym) ∧
      assignCodes (buildTree ft old) = putCodes CodeTable.empty t.codes := by
  obtain ⟨T, htrees, hsym⟩ := planted_buildRun h old.node
  have hchild := (building_buildRun h old.node).forest.child_lt
  obtain ⟨e, hq, he⟩ := buildRun_queue h old
  have hroot : (buildTree ft old).root.val < (buildRun ft old.node).next := by
    have hpos := h.1
    rw [buildTree_root h old, (buildRun_end h old.node).1]
    omega
  have hleaves : (T (buildTree ft old).root).leaves.Perm (ft.map FtEntry.sym) := by
    simpa [roots, hq, he] using hsym
  have hheight : (T (buildTree ft old).root).height < 256 := by
    have hlt := (T (buildTree ft old).root).height_lt_leaves_length
    rw [hleaves.length_eq, List.length_map] at hlt
    exact hlt.trans_le h.2.1
  exact ⟨_, hleaves, assignCodes_eq_putCodes htrees hchild hroot hheight⟩

/-- The code of each symbol of a code tree whose symbols differ. -/
theorem bits_of_mem_codes {t : CodeTree} (hd : t.leaves.Nodup) {c : Byte × List Bool} (h : c ∈ t.codes) :
    CodeTable.bits (putCodes CodeTable.empty t.codes) c.1 = c.2 :=
  bits_putCodes_of_mem (by rwa [t.codes_map_fst]) h _

/-! #### The lengths -/

theorem codes_length {t : CodeTree} {c : Byte × List Bool} (h : c ∈ t.codes) :
    (t.leaves.length = 1 → c.2.length = 1) ∧
      (2 ≤ t.leaves.length → 1 ≤ c.2.length ∧ c.2.length ≤ t.leaves.length - 1) := by
  cases t with
  | leaf sym =>
    rw [CodeTree.codes, List.mem_singleton] at h
    simp [h, CodeTree.leaves]
  | node l r =>
    have hheight := (CodeTree.node l r).height_lt_leaves_length
    have hlen := CodeTree.codes_length_node h
    omega

theorem codes_kraft {t : CodeTree} {m : Nat} (h : 2 ≤ t.leaves.length) (hm : t.height ≤ m) :
    (t.codes.map fun c => 2 ^ (m - c.2.length)).sum = 2 ^ m := by
  cases t with
  | leaf sym => simp [CodeTree.leaves] at h
  | node l r => exact CodeTree.paths_kraft (p := []) (by simpa using hm)

/-- Settles O24: the codes are those of a code tree with k leaves, whose height is below k and whose inner nodes each
halve their share of the Kraft sum. -/
theorem codeLengthsAreBoundedAndFull : Obligations.CodeLengthsAreBoundedAndFull := by
  unfold Obligations.CodeLengthsAreBoundedAndFull
  rintro ft old _ h rfl
  obtain ⟨t, hleaves, hct⟩ := assignCodes_buildTree h old
  obtain ⟨hpos, hle, hdistinct, -⟩ := h
  rw [hct]
  have hnodup : t.leaves.Nodup := hleaves.nodup_iff.mpr hdistinct
  have hlen : t.leaves.length = ft.length := by rw [hleaves.length_eq, List.length_map]
  refine ⟨fun e he => ?_, fun hk => ?_⟩
  · have hsym : e.sym ∈ t.codes.map Prod.fst := by
      rw [t.codes_map_fst, hleaves.mem_iff]
      exact List.mem_map_of_mem he
    obtain ⟨c, hc, hce⟩ := List.mem_map.mp hsym
    have hlength := codes_length hc
    rw [← hce, CodeTable.len, bits_of_mem_codes hnodup hc, ← hlen]
    exact ⟨hlength.1, hlength.2, by omega⟩
  · have hheight := t.height_lt_leaves_length
    calc (ft.map fun e => 2 ^ (255 - CodeTable.len (putCodes CodeTable.empty t.codes) e.sym)).sum
        = (t.leaves.map fun sym => 2 ^ (255 - CodeTable.len (putCodes CodeTable.empty t.codes) sym)).sum := by
          rw [(hleaves.map _).sum_eq, List.map_map]
          rfl
      _ = (t.codes.map fun c => 2 ^ (255 - c.2.length)).sum := by
          rw [← t.codes_map_fst, List.map_map]
          refine congrArg List.sum (List.map_congr_left fun c hc => ?_)
          rw [Function.comp, CodeTable.len, bits_of_mem_codes hnodup hc]
      _ = 2 ^ 255 := codes_kraft (by omega) (by omega)

end Sys2Proof.Proofs
end

section
/-! ### QUERY reads the tables -/

namespace Sys2Proof.Proofs

open Sys2Proof.Machine Sys2Proof.Safety

/-- The number of a bit sequence shows the sequence, and 0 beyond its end. -/
theorem testBit_lsbFirst (c : List Bool) (i : Nat) : (lsbFirst c).testBit i = c.getD i false := by
  induction c generalizing i with
  | nil => simp [lsbFirst]
  | cons b c ih =>
    have hbit : lsbFirst (b :: c) = Nat.bit b (lsbFirst c) := by
      rw [lsbFirst, Nat.bit_val, Nat.add_comm]
    rw [hbit]
    cases i with
    | zero => rw [Nat.testBit_bit_zero, List.getD_cons_zero]
    | succ i => rw [Nat.testBit_bit_succ, ih, List.getD_cons_succ]

/-- Bit i of Q_CODEj is bit 32j + i of the code (10_state.md R54). -/
theorem queryCode_getLsbD (c : List Bool) (j : Nat) {i : Nat} (hi : i < 32) :
    (queryCode c j).getLsbD i = c.getD (32 * j + i) false := by
  rw [queryCode, BitVec.getLsbD_ofNat, testBit_lsbFirst]
  simp [List.getD_eq_getElem?_getD, hi]

theorem queryRegs_code (s : State) (sym : Byte) (j : Fin 8) :
    (s.queryRegs sym).code[j] = queryCode (s.queryBits sym) j.val := by
  fin_cases j <;> rfl

/-- The fields of Q_INFO (10_state.md R53): PRESENT, seven zero bits, RANK and CODE_LEN. -/
theorem queryInfo_fields {info : BitVec 24} {len rank : BitVec 8} {present : Bool}
    (h : info = len ++ rank ++ 0#7 ++ BitVec.ofBool present) :
    info.getLsbD 0 = present ∧ info.extractLsb' 1 7 = 0 ∧ info.extractLsb' 8 8 = rank ∧
      info.extractLsb' 16 8 = len := by
  subst h
  refine ⟨?_, ?_, ?_, ?_⟩
  · rw [BitVec.getLsbD_append, if_pos Nat.one_pos, BitVec.getLsbD_ofBool]
    simp
  · rw [BitVec.extractLsb'_append_eq_of_le (by decide)]
    exact BitVec.extractLsb'_append_eq_right
  · rw [BitVec.extractLsb'_append_eq_of_le (by decide), BitVec.extractLsb'_append_eq_of_le (by decide)]
    exact BitVec.extractLsb'_append_eq_right
  · rw [BitVec.extractLsb'_append_eq_of_le (by decide), BitVec.extractLsb'_append_eq_of_le (by decide)]
    exact BitVec.extractLsb'_append_eq_left

theorem queryPresent_eq (s : State) (sym : Byte) :
    s.queryPresent sym = (s.status.ftValid && decide (FreqTable.cnt s.ft sym ≠ 0)) := by
  simp [State.queryPresent, Nat.pos_iff_ne_zero, ← BitVec.toNat_inj]

/-- Settles O10: QUERY completes with the Q registers of R256, whose fields and bits are read off one by one. -/
theorem queryReadsTheTables : Obligations.QueryReadsTheTables := by
  unfold Obligations.QueryReadsTheTables
  rintro s sym _ c rfl hc
  rw [← queryPresent_eq] at hc ⊢
  obtain rfl : c = s.queryBits sym := hc
  obtain ⟨hzero, hreserved, hrank, hlen⟩ := queryInfo_fields (info := (s.queryRegs sym).info) rfl
  refine ⟨s.queryRegs sym, execQuery_next.mpr rfl, rfl, hzero, hreserved, hrank, hlen, fun j i hi => ?_⟩
  rw [queryRegs_code, queryCode_getLsbD _ _ hi]

end Sys2Proof.Proofs
end

section
/-! ### ASSIGN makes the codes and their greatest length -/

namespace Sys2Proof.Proofs

open Sys2Proof.Machine Sys2Proof.Safety

theorem foldl_max_length_le {cs : List (List Bool)} {m n : Nat} :
    cs.foldl (fun m c => max m c.length) m ≤ n ↔ m ≤ n ∧ ∀ c ∈ cs, c.length ≤ n := by
  induction cs generalizing m with
  | nil => simp
  | cons c cs ih => rw [List.foldl_cons, ih, max_le_iff, List.forall_mem_cons, and_assoc]

/-- The codes of a table are those of its 256 byte values (10_state.md R63). -/
theorem mem_codeTable_iff {ct : CodeTable} {c : List Bool} : c ∈ ct.toList ↔ ∃ sym, CodeTable.bits ct sym = c := by
  rw [Vector.mem_toList_iff, Vector.mem_iff_getElem]
  exact ⟨fun ⟨i, hi, h⟩ => ⟨BitVec.ofNatLT i hi, h⟩, fun ⟨sym, h⟩ => ⟨sym.toNat, sym.isLt, h⟩⟩

/-- MaxLen() is the least bound of the code lengths (42_code_assigner.md R254). -/
theorem maxLen_le_iff {ct : CodeTable} {m : Nat} : CodeTable.maxLen ct ≤ m ↔ ∀ sym, CodeTable.len ct sym ≤ m := by
  rw [CodeTable.maxLen, foldl_max_length_le]
  simp [mem_codeTable_iff, CodeTable.len, -Vector.mem_toList_iff]

theorem maxLen_eq {ct : CodeTable} {m : Nat} (hle : ∀ sym, CodeTable.len ct sym ≤ m)
    (hmax : ∃ sym, CodeTable.len ct sym = m) : CodeTable.maxLen ct = m := by
  obtain ⟨sym, rfl⟩ := hmax
  exact le_antisymm (maxLen_le_iff.mpr hle) (maxLen_le_iff.mp le_rfl sym)

/-- ASSIGN of a valid tree succeeds with its updates (42_code_assigner.md R255). -/
theorem execAssign_of_valid {s : State} (hf : s.status.ftValid = true) (ht : s.status.treeValid = true) :
    execAssign s = .next s.assigned.complete := by
  rw [execAssign, checkTables_eq_ok.mpr (missing_assign_eq_zero.mpr ⟨hf, ht⟩), run_ok_bind, run_pure, finish_ok]

/-- Settles O13: the table check passes, and the greatest code length is what MaxLen() computes. -/
theorem assignMakesTheCodes : Obligations.AssignMakesTheCodes := by
  unfold Obligations.AssignMakesTheCodes
  intro s m hf ht hle hmax
  rw [← maxLen_eq hle hmax]
  exact execAssign_of_valid hf ht

end Sys2Proof.Proofs
end

section
/-! ### COMPRESS writes the artifact -/

namespace Sys2Proof.Proofs

open Sys2Proof.Machine Sys2Proof.Safety

/-- COMPRESS of a non-empty input whose artifact has room succeeds with its updates (45_pipeline_commands.md R372). -/
theorem execCompress_of_inputHolds {s : State} {bs : List Byte} {ft : FreqTable} {tree : Tree} {ct : CodeTable}
    (h : InputHolds s bs) (hne : bs ≠ []) (hout : OutputFits s) (hfresh : s.freshCodes bs = (ft, tree, ct))
    (hbits : totalBits ft ct ≤ word32Max) (hroom : artifactSize ft (totalBits ft ct) ≤ s.range.outCap.toNat) :
    execCompress s = .next (s.compressed bs).complete := by
  have ⟨_, hin, _⟩ := h
  have hcheck : s.checkEncoded (totalBits ft ct) (artifactSize ft (totalBits ft ct)) = .ok () :=
    checkEncoded_eq_ok.mpr ⟨hbits, hroom⟩
  rw [execCompress, checkInput_eq_ok.mpr hin, run_ok_bind, checkOutput_eq_ok.mpr hout, run_ok_bind,
    checkNonEmpty_eq_ok.mpr (inLen_ne_zero_of_inputHolds h hne), run_ok_bind, inputBytes_of_holds h, run_ok_bind,
    hfresh]
  dsimp only
  rw [hcheck, run_ok_bind, run_pure, finish_ok]

/-- Settles O17: every check of COMPRESS passes, its updates are those of R372, and the bit total of the scanned table
is the length of the stream. -/
theorem compressWritesTheArtifact : Obligations.CompressWritesTheArtifact := by
  unfold Obligations.CompressWritesTheArtifact
  rintro s bs _ _ _ _ h hne hout rfl rfl rfl rfl hbits hroom
  exact ⟨(totalBits_scanBytes _ (inputHolds_length_lt h)).symm,
    execCompress_of_inputHolds h hne hout rfl hbits hroom⟩

end Sys2Proof.Proofs
end

section
/-! ### The codes are the paths to the leaves, and none begins another -/

namespace Sys2Proof.Proofs

open Sys2Proof.Machine Sys2Proof.Safety

theorem leafAt_leaf {node : Vector Node 511} {x : Fin 511} {sym : Byte} {w : BitVec 40}
    (h : node[x] = .leaf sym w) (c : List Bool) : leafAt node x c = if c = [] then some sym else none := by
  cases c <;> simp [leafAt, h]

theorem leafAt_internal_nil {node : Vector Node 511} {x l r : Fin 511} {w : BitVec 40}
    (h : node[x] = .internal l r w) : leafAt node x [] = none := by
  simp [leafAt, h]

theorem leafAt_internal_cons {node : Vector Node 511} {x l r : Fin 511} {w : BitVec 40}
    (h : node[x] = .internal l r w) (b : Bool) (c : List Bool) :
    leafAt node x (b :: c) = leafAt node (if b then r else l) c := by
  simp [leafAt, h]

theorem isCode_leaf {t : Tree} {x sym : Byte} {w : BitVec 40} {c : List Bool} (h : t.node[t.root] = .leaf x w) :
    IsCode t sym c ↔ x = sym ∧ c = [false] := by
  rw [IsCode, h]

theorem isCode_internal {t : Tree} {l r : Fin 511} {w : BitVec 40} {sym : Byte} {c : List Bool}
    (h : t.node[t.root] = .internal l r w) : IsCode t sym c ↔ leafAt t.node t.root c = some sym := by
  rw [IsCode, h]

theorem assignCodes_leaf {t : Tree} {sym : Byte} {w : BitVec 40} (h : t.node[t.root] = .leaf sym w) :
    assignCodes t = CodeTable.put CodeTable.empty sym [false] := by
  rw [assignCodes, h]

theorem assignCodes_internal {t : Tree} {l r : Fin 511} {w : BitVec 40} (h : t.node[t.root] = .internal l r w) :
    assignCodes t = walk t.node 256 t.root [] CodeTable.empty := by
  rw [assignCodes, h]

/-- What a walk from node x leaves for a symbol: the code it had, or the walk's own path followed by a path from x to a
leaf of the symbol (42_code_assigner.md R250). -/
theorem bits_walk (node : Vector Node 511) (depth : Nat) (x : Fin 511) (p : List Bool) (ct : CodeTable) (sym : Byte) :
    CodeTable.bits (walk node depth x p ct) sym = CodeTable.bits ct sym ∨
      ∃ c, CodeTable.bits (walk node depth x p ct) sym = p ++ c ∧ leafAt node x c = some sym := by
  induction depth generalizing x p ct with
  | zero => exact .inl rfl
  | succ depth ih =>
    rw [walk]
    cases hnode : node[x] with
    | leaf sym' w =>
      dsimp only
      rw [bits_put]
      split
      · next hsym =>
        subst hsym
        exact .inr ⟨[], (List.append_nil p).symm, leafAt_leaf hnode []⟩
      · exact .inl rfl
    | internal l r w =>
      dsimp only
      rcases ih r (p ++ [true]) (walk node depth l (p ++ [false]) ct) with hr | ⟨c, hc, hleaf⟩
      · rw [hr]
        rcases ih l (p ++ [false]) ct with hl | ⟨c, hc, hleaf⟩
        · exact .inl hl
        · exact .inr ⟨false :: c, by rw [hc, List.append_assoc]; rfl, by rwa [leafAt_internal_cons hnode]⟩
      · exact .inr ⟨true :: c, by rw [hc, List.append_assoc]; rfl, by rwa [leafAt_internal_cons hnode]⟩

@[simp] theorem bits_empty (sym : Byte) : CodeTable.bits CodeTable.empty sym = [] := by
  simp [CodeTable.bits, CodeTable.empty]

/-- ASSIGN gives a symbol no code but its code in the tree (42_code_assigner.md R250, R251). -/
theorem isCode_assignCodes {t : Tree} {sym : Byte} (h : CodeTable.bits (assignCodes t) sym ≠ []) :
    IsCode t sym (CodeTable.bits (assignCodes t) sym) := by
  cases hnode : t.node[t.root] with
  | leaf sym' w =>
    rw [assignCodes_leaf hnode, bits_put, bits_empty] at h ⊢
    obtain ⟨hsym, -⟩ := ite_ne_right_iff.mp h
    exact (isCode_leaf hnode).mpr ⟨hsym, if_pos hsym⟩
  | internal l r w =>
    rw [assignCodes_internal hnode] at h ⊢
    rcases bits_walk t.node 256 t.root [] CodeTable.empty sym with hold | ⟨c, hc, hleaf⟩
    · exact absurd (hold.trans (bits_empty sym)) h
    · rwa [isCode_internal hnode, hc, List.nil_append]

/-- Settles O22: the symbols of the table have codes of at least one bit, and a code that is not empty is the one in the
tree; only the symbols of the table are leaves. -/
theorem codesAreThePathsToTheLeaves : Obligations.CodesAreThePathsToTheLeaves := by
  unfold Obligations.CodesAreThePathsToTheLeaves
  intro ft old h
  refine ⟨fun e he => isCode_assignCodes (List.ne_nil_of_length_pos ?_), fun sym hsym => ?_⟩
  · obtain ⟨hone, hmany, -⟩ := (codeLengthsAreBoundedAndFull ft old _ h rfl).1 e he
    rcases h.1.eq_or_lt with hk | hk
    · exact (hone hk.symm).ge
    · exact (hmany hk).1
  · obtain ⟨t, hleaves, hct⟩ := assignCodes_buildTree h old
    rw [hct, bits_putCodes_of_notMem, bits_empty]
    rwa [t.codes_map_fst, hleaves.mem_iff]

/-- A path that goes on from a leaf reaches none (42_code_assigner.md R252). -/
theorem leafAt_append {node : Vector Node 511} {x : Fin 511} {c : List Bool} {sym : Byte}
    (h : leafAt node x c = some sym) (d : List Bool) :
    leafAt node x (c ++ d) = if d = [] then some sym else none := by
  induction c generalizing x with
  | nil =>
    cases hnode : node[x] with
    | leaf sym' w =>
      rw [leafAt_leaf hnode, if_pos rfl] at h
      rw [List.nil_append, leafAt_leaf hnode, h]
    | internal l r w => simp [leafAt_internal_nil hnode] at h
  | cons b c ih =>
    cases hnode : node[x] with
    | leaf sym' w => simp [leafAt_leaf hnode] at h
    | internal l r w =>
      rw [leafAt_internal_cons hnode] at h
      rw [List.cons_append, leafAt_internal_cons hnode, ih h]

/-- Two codes of a tree of which one begins the other are codes of one symbol. -/
theorem isCode_eq_of_isPrefix {t : Tree} {a b : Byte} {c d : List Bool} (hc : IsCode t a c) (hd : IsCode t b d)
    (hpre : c <+: d) : a = b := by
  cases hnode : t.node[t.root] with
  | leaf sym w =>
    obtain ⟨ha, -⟩ := (isCode_leaf hnode).mp hc
    obtain ⟨hb, -⟩ := (isCode_leaf hnode).mp hd
    exact ha.symm.trans hb
  | internal l r w =>
    rw [isCode_internal hnode] at hc hd
    obtain ⟨e, rfl⟩ := hpre
    rw [leafAt_append hc, Option.ite_none_right_eq_some, Option.some_inj] at hd
    exact hd.2

/-- Settles O23: the codes are those of one tree, where only the code of the same symbol begins a code. -/
theorem codesArePrefixFree : Obligations.CodesArePrefixFree := by
  unfold Obligations.CodesArePrefixFree
  intro ft old h a ha b hb hab hpre
  obtain ⟨e, he, rfl⟩ := List.mem_map.mp ha
  obtain ⟨e', he', rfl⟩ := List.mem_map.mp hb
  obtain ⟨hcode, -⟩ := codesAreThePathsToTheLeaves ft old h
  exact hab (isCode_eq_of_isPrefix (hcode e he) (hcode e' he') hpre)

end Sys2Proof.Proofs
end

section
/-! ### Packed bits -/

namespace Sys2Proof.Proofs

open Sys2Proof.Machine Sys2Proof.Safety

/-- The number that takes in n bits, the first bit first, shows bit n − 1 − i at place i. -/
theorem testBit_foldl_msbFirst (f : Nat → Bool) {n i : Nat} (hi : i < n) :
    ((List.range n).foldl (fun v t => 2 * v + (f t).toNat) 0).testBit i = f (n - 1 - i) := by
  induction n generalizing i with
  | zero => omega
  | succ n ih =>
    rw [List.range_succ, List.foldl_concat, ← Nat.bit_val]
    cases i with
    | zero => rw [Nat.testBit_bit_zero]; rfl
    | succ i => rw [Nat.testBit_bit_succ, ih (by omega), Nat.add_sub_cancel, Nat.sub_sub, Nat.add_comm 1 i]

/-- The first bit of a payload byte is bit 7, and padding bits are 0 (30_encoding.md R153, R154). -/
theorem byteMsb_getLsbD (bs : List Bool) {t : Nat} (ht : t < 8) :
    (byteMsb bs).getLsbD (7 - t) = bs.getD t false := by
  have hlt : 7 - t < 8 := by omega
  rw [byteMsb, BitVec.getLsbD_ofNat, decide_eq_true hlt, Bool.true_and,
    testBit_foldl_msbFirst (fun t => bs.getD t false) hlt]
  congr 1
  omega

/-- Payload byte k has the eight bits from bit 8·k on. -/
theorem packBytes_getElem {n k : Nat} {bs : List Bool} (h : k < (packBytes n bs).length) :
    (packBytes n bs)[k] = byteMsb ((bs.drop (8 * k)).take 8) := by
  induction n generalizing k bs with
  | zero => exact absurd h (Nat.not_lt_zero k)
  | succ n ih =>
    cases k with
    | zero => rfl
    | succ k =>
      refine (ih (Nat.lt_of_succ_lt_succ h)).trans ?_
      rw [List.drop_drop, Nat.mul_succ, Nat.add_comm 8]

theorem pack_getElem {bits : List Bool} {k : Nat} (h : k < (pack bits).length) :
    (pack bits)[k] = byteMsb ((bits.drop (8 * k)).take 8) := packBytes_getElem h

/-- Bit p of a bit sequence is bit 7 − (p mod 8) of byte p div 8 of its packed bytes, and padding bits are 0
(43_encoder_bit_packer.md R280). -/
theorem pack_getLsbD {bits : List Bool} {p : Nat} (h : p / 8 < (pack bits).length) :
    (pack bits)[p / 8].getLsbD (7 - p % 8) = bits.getD p false := by
  have hmod : p % 8 < 8 := Nat.mod_lt p (by decide)
  rw [pack_getElem, byteMsb_getLsbD _ hmod, List.getD_eq_getElem?_getD, List.getElem?_take_of_lt hmod,
    List.getElem?_drop, Nat.div_add_mod, List.getD_eq_getElem?_getD]

/-- Settles O25: a store is read back byte by byte, and the bytes of `pack` show the bits. -/
theorem packedBitsStandMsbFirst : Obligations.PackedBitsStandMsbFirst := by
  unfold Obligations.PackedBitsStandMsbFirst
  intro m o bits
  have hlen : (pack bits).length = (bits.length + 7) / 8 := pack_length bits
  refine ⟨hlen, fun p hp => ?_, fun a ha => read_store_outside (by rwa [hlen])⟩
  have hbyte : p / 8 < (pack bits).length := by omega
  exact ⟨_, read_store_inside hbyte, pack_getLsbD hbyte⟩

end Sys2Proof.Proofs
end

section
/-! ### ENCODE packs its input, or reports the first byte without a code -/

namespace Sys2Proof.Proofs

open Sys2Proof.Machine Sys2Proof.Safety

variable {s : State} {bs : List Byte}

/-- ENCODE once its pre-checks have passed and its input is not empty: pass 1, the output check and the updates
(43_encoder_bit_packer.md R284). -/
theorem execEncode_of_checks (htab : s.status.missing 0x70 = 0)
    (hin : s.range.inOff.toNat + s.range.inLen.toNat ≤ s.params.ibufSize.toNat) (hout : OutputFits s)
    (hne : s.range.inLen ≠ 0) :
    execEncode s = finish .encode s (do
      let bs ← s.encodeInput 0 s.range.inLen.toNat
      s.checkEncoded (stream s.ct bs).length (ceil8 (stream s.ct bs).length)
      return s.encoded bs) := by
  rw [execEncode, checkTables_eq_ok.mpr htab, run_ok_bind, checkInput_eq_ok.mpr hin, run_ok_bind,
    checkOutput_eq_ok.mpr hout, run_ok_bind, checkNonEmpty_eq_ok.mpr hne, run_ok_bind]

theorem len_eq_zero_iff {ct : CodeTable} {b : Byte} : CodeTable.len ct b = 0 ↔ CodeTable.bits ct b = [] :=
  List.length_eq_zero_iff

/-- ENCODE of a non-empty input whose bytes all have codes, with room for the packed codes, succeeds with its updates
(43_encoder_bit_packer.md R284). -/
theorem execEncode_of_inputHolds (htab : s.status.missing 0x70 = 0) (h : InputHolds s bs) (hne : bs ≠ [])
    (hout : OutputFits s) (hcodes : ∀ b ∈ bs, CodeTable.bits s.ct b ≠ [])
    (hbits : (stream s.ct bs).length ≤ word32Max)
    (hroom : ceil8 (stream s.ct bs).length ≤ s.range.outCap.toNat) :
    execEncode s = .next (s.encoded bs).complete := by
  have ⟨hlen, hin, hbytes⟩ := h
  have hread : s.encodeInput 0 s.range.inLen.toNat = .ok bs :=
    encodeInput_eq_ok.mpr ⟨hlen, hbytes, fun b hb => mt len_eq_zero_iff.mp (hcodes b hb)⟩
  rw [execEncode_of_checks htab hin hout (inLen_ne_zero_of_inputHolds h hne), hread, run_ok_bind,
    checkEncoded_eq_ok.mpr ⟨hbits, hroom⟩, run_ok_bind, run_pure, finish_ok]

/-- Settles O14: ENCODE succeeds with its updates, and the bytes of `pack` show the bits of the stream. -/
theorem encodePacksTheStream : Obligations.EncodePacksTheStream := by
  unfold Obligations.EncodePacksTheStream
  rintro s bs _ hf ht hc h hne hout hcodes rfl hbits hroom
  have hlen := pack_length (stream s.ct bs)
  refine ⟨pack (stream s.ct bs), ?_, hlen, fun p hp => ?_⟩
  · rw [hlen]
    exact execEncode_of_inputHolds (missing_encode_eq_zero.mpr ⟨hf, ht, hc⟩) h hne hout hcodes hbits hroom
  · have hbyte : p / 8 < (pack (stream s.ct bs)).length := by omega
    rw [List.getD_eq_getElem _ _ hbyte]
    exact pack_getLsbD hbyte

theorem bytesAt_of_cons {o : Nat} {b : Byte} (h : BytesAt s o (b :: bs)) :
    s.ib o = .ok b ∧ BytesAt s (o + 1) bs := by
  refine ⟨h 0 (Nat.zero_lt_succ _), fun i hi => ?_⟩
  rw [Nat.add_assoc, Nat.add_comm 1]
  exact h (i + 1) (Nat.succ_lt_succ hi)

/-- Pass 1 of ENCODE stops at the first byte without a code, with the offset of that byte; it reads nothing after it
(43_encoder_bit_packer.md R282). -/
theorem encodeInput_of_unknown {b : Byte} {i n : Nat} (hn : bs.length < n)
    (hbytes : BytesAt s (s.range.inOff.toNat + i) (bs ++ [b])) (hcodes : ∀ x ∈ bs, CodeTable.bits s.ct x ≠ [])
    (hb : CodeTable.bits s.ct b = []) : s.encodeInput i n = raise .unknownSymbol (i + bs.length) := by
  obtain ⟨m, rfl⟩ := Nat.exists_eq_add_of_lt hn
  clear hn
  induction bs generalizing i with
  | nil =>
    obtain ⟨hread, -⟩ := bytesAt_of_cons hbytes
    rw [State.encodeInput, hread, run_ok_bind, if_pos (len_eq_zero_iff.mpr hb)]
    rfl
  | cons x bs ih =>
    obtain ⟨hread, hrest⟩ := bytesAt_of_cons hbytes
    obtain ⟨hx, hcodes⟩ := List.forall_mem_cons.mp hcodes
    rw [State.encodeInput, hread, run_ok_bind, if_neg (mt len_eq_zero_iff.mp hx), List.length_cons,
      Nat.add_right_comm _ 1 m, ih hrest hcodes, run_raise_bind, Nat.add_right_comm i 1, Nat.add_assoc]

/-- Settles O31: past its pre-checks ENCODE stops in pass 1; UNKNOWN_SYMBOL is not among the errors of COMPRESS. -/
theorem firstUnknownSymbolIsReported : Obligations.FirstUnknownSymbolIsReported := by
  unfold Obligations.FirstUnknownSymbolIsReported
  refine ⟨fun s bs b htab hin hout hlt hbytes hcodes hb => ?_, fun s t h => ?_⟩
  · have hne : s.range.inLen ≠ 0 := fun h0 => by simp [h0] at hlt
    have hread : s.encodeInput 0 s.range.inLen.toNat = raise .unknownSymbol (0 + bs.length) :=
      encodeInput_of_unknown hlt hbytes hcodes hb
    rw [exec, execEncode_of_checks htab hin hout hne, hread, run_raise_bind, finish_raise, Nat.zero_add]
    rfl
  · rcases execCompress_next h with ⟨bs, _, _, _, -, -, -, -, -, -, rfl⟩ | ⟨e, info, he, rfl⟩
    · exact (by decide : (0 : Byte) ≠ 2)
    · have hcode : e.code ≠ 2 := by rcases he with rfl | rfl | rfl <;> decide
      rwa [raiseError_errs]

end Sys2Proof.Proofs
end

section
/-! ### What the bit reader and the decoder make of a payload -/

namespace Sys2Proof.Proofs

open Sys2Proof.Machine Sys2Proof.Safety

variable {s : State} {pay : Nat}

/-! #### Bits of a payload -/

/-- From bit `p` on the payload at IBUF offset `pay` holds the bits `bits`. -/
def BitsFrom (s : State) (pay p : Nat) (bits : List Bool) : Prop :=
  ∀ i (h : i < bits.length), s.readBit pay (p + i) = .ok bits[i]

theorem bitsFrom_zero_iff {bits : List Bool} : BitsFrom s pay 0 bits ↔ BitsAt s pay bits := by
  simp [BitsFrom, BitsAt]

theorem bitsFrom_of_cons {p : Nat} {b : Bool} {bits : List Bool} (h : BitsFrom s pay p (b :: bits)) :
    s.readBit pay p = .ok b ∧ BitsFrom s pay (p + 1) bits := by
  refine ⟨h 0 (Nat.zero_lt_succ _), fun i hi => ?_⟩
  rw [Nat.add_assoc, Nat.add_comm 1]
  exact h (i + 1) (Nat.succ_lt_succ hi)

theorem bitsFrom_of_append {p : Nat} {c bits : List Bool} (h : BitsFrom s pay p (c ++ bits)) :
    BitsFrom s pay p c ∧ BitsFrom s pay (p + c.length) bits := by
  refine ⟨fun i hi => ?_, fun i hi => ?_⟩
  · rw [h i (by rw [List.length_append]; omega), List.getElem_append_left hi]
  · rw [Nat.add_assoc, h (c.length + i) (by rw [List.length_append]; omega), List.getElem_append_right' c hi]
    simp only [Nat.add_comm]

/-! #### One turn of the loop of `Decode` -/

section turn

variable {t : Tree} {p emitted m avail : Nat} {cur l r : Fin 511} {sym : Byte} {w w' : BitVec 40} {b : Bool}

theorem decodeLoop_done : s.decodeLoop t pay avail p emitted 0 cur = .ok [] := by
  cases avail <;> rfl

theorem decodeLoop_exhausted :
    s.decodeLoop t pay 0 p emitted (m + 1) cur = raise .truncatedStream emitted := rfl

theorem decodeLoop_leaf_zero (hread : s.readBit pay p = .ok false) (hcur : t.node[cur] = .leaf sym w) :
    s.decodeLoop t pay (avail + 1) p emitted (m + 1) cur =
      (sym :: ·) <$> s.decodeLoop t pay avail (p + 1) (emitted + 1) m t.root := by
  rw [State.decodeLoop, hread, run_ok_bind, hcur]
  rfl

theorem decodeLoop_leaf_one (hread : s.readBit pay p = .ok true) (hcur : t.node[cur] = .leaf sym w) :
    s.decodeLoop t pay (avail + 1) p emitted (m + 1) cur = raise .invalidCode emitted := by
  rw [State.decodeLoop, hread, run_ok_bind, hcur]
  rfl

theorem decodeLoop_to_leaf (hread : s.readBit pay p = .ok b) (hcur : t.node[cur] = .internal l r w)
    (hnext : t.node[if b then r else l] = .leaf sym w') :
    s.decodeLoop t pay (avail + 1) p emitted (m + 1) cur =
      (sym :: ·) <$> s.decodeLoop t pay avail (p + 1) (emitted + 1) m t.root := by
  rw [State.decodeLoop, hread, run_ok_bind, hcur]
  dsimp only
  rw [hnext]
  rfl

theorem decodeLoop_to_internal {l' r' : Fin 511} (hread : s.readBit pay p = .ok b)
    (hcur : t.node[cur] = .internal l r w) (hnext : t.node[if b then r else l] = .internal l' r' w') :
    s.decodeLoop t pay (avail + 1) p emitted (m + 1) cur =
      s.decodeLoop t pay avail (p + 1) emitted (m + 1) (if b then r else l) := by
  rw [State.decodeLoop, hread, run_ok_bind, hcur]
  dsimp only
  rw [hnext]

end turn

/-! #### Codes, and bits that reach no leaf -/

section walk

variable {t : Tree} {p emitted m avail : Nat}

/-- From an internal node, a path to a leaf puts out the symbol of the leaf and starts again at the root
(44_decoder_bit_reader.md R322). -/
theorem decodeLoop_path {cur l r : Fin 511} {w : BitVec 40} {sym : Byte} {c : List Bool}
    (hcur : t.node[cur] = .internal l r w) (hleaf : leafAt t.node cur c = some sym) (hbits : BitsFrom s pay p c) :
    s.decodeLoop t pay (avail + c.length) p emitted (m + 1) cur =
      (sym :: ·) <$> s.decodeLoop t pay avail (p + c.length) (emitted + 1) m t.root := by
  induction c generalizing p cur l r w with
  | nil => simp [leafAt_internal_nil hcur] at hleaf
  | cons b c ih =>
    obtain ⟨hread, hrest⟩ := bitsFrom_of_cons hbits
    rw [leafAt_internal_cons hcur] at hleaf
    cases hnext : t.node[if b then r else l] with
    | leaf sym' w' =>
      rw [leafAt_leaf hnext, Option.ite_none_right_eq_some, Option.some_inj] at hleaf
      obtain ⟨rfl, rfl⟩ := hleaf
      exact decodeLoop_to_leaf hread hcur hnext
    | internal l' r' w' =>
      rw [List.length_cons, ← Nat.add_assoc, decodeLoop_to_internal hread hcur hnext, ih hnext hleaf hrest,
        Nat.add_assoc p, Nat.add_comm 1]

/-- A code at the root, of a single leaf too, puts out its symbol (44_decoder_bit_reader.md R322, R323). -/
theorem decodeLoop_code {sym : Byte} {c : List Bool} (hcode : IsCode t sym c) (hbits : BitsFrom s pay p c) :
    s.decodeLoop t pay (avail + c.length) p emitted (m + 1) t.root =
      (sym :: ·) <$> s.decodeLoop t pay avail (p + c.length) (emitted + 1) m t.root := by
  cases hroot : t.node[t.root] with
  | leaf sym' w =>
    obtain ⟨rfl, rfl⟩ := (isCode_leaf hroot).mp hcode
    exact decodeLoop_leaf_zero (bitsFrom_of_cons hbits).1 hroot
  | internal l r w => exact decodeLoop_path hroot ((isCode_internal hroot).mp hcode) hbits

/-- A sequence of codes puts out its symbols (44_decoder_bit_reader.md R322). -/
theorem decodeLoop_codes {cs : List (Byte × List Bool)} (hcodes : ∀ c ∈ cs, IsCode t c.1 c.2)
    (hbits : BitsFrom s pay p (cs.flatMap Prod.snd)) :
    s.decodeLoop t pay (avail + (cs.flatMap Prod.snd).length) p emitted (m + cs.length) t.root =
      (cs.map Prod.fst ++ ·) <$>
        s.decodeLoop t pay avail (p + (cs.flatMap Prod.snd).length) (emitted + cs.length) m t.root := by
  induction cs generalizing p emitted with
  | nil => exact (id_map _).symm
  | cons c cs ih =>
    obtain ⟨hcode, hcodes⟩ := List.forall_mem_cons.mp hcodes
    rw [List.flatMap_cons] at hbits ⊢
    obtain ⟨hc, hrest⟩ := bitsFrom_of_append hbits
    rw [List.length_append, Nat.add_comm c.2.length, ← Nat.add_assoc, List.length_cons, ← Nat.add_assoc,
      decodeLoop_code hcode hc, ih hcodes hrest, Functor.map_map]
    congr 2 <;> omega

/-- Bits that reach no leaf end before a symbol is out (44_decoder_bit_reader.md R324). -/
theorem decodeLoop_noLeaf {cur : Fin 511} {q : List Bool} (hno : ∀ q', q' <+: q → leafAt t.node cur q' = none)
    (hbits : BitsFrom s pay p q) :
    s.decodeLoop t pay q.length p emitted (m + 1) cur = raise .truncatedStream emitted := by
  induction q generalizing p cur with
  | nil => exact decodeLoop_exhausted
  | cons b q ih =>
    obtain ⟨hread, hrest⟩ := bitsFrom_of_cons hbits
    cases hcur : t.node[cur] with
    | leaf sym w => simpa [leafAt_leaf hcur] using hno [] List.nil_prefix
    | internal l r w =>
      have hnext : ∀ q', q' <+: q → leafAt t.node (if b then r else l) q' = none := fun q' hq' => by
        rw [← leafAt_internal_cons hcur]
        exact hno _ ((List.prefix_cons_inj b).mpr hq')
      cases hchild : t.node[if b then r else l] with
      | leaf sym w' => simpa [leafAt_leaf hchild] using hnext [] List.nil_prefix
      | internal l' r' w' => rw [List.length_cons, decodeLoop_to_internal hread hcur hchild, ih hnext hrest]

end walk

end Sys2Proof.Proofs
end

section
/-! ### DECODE, and the payload of a header -/

namespace Sys2Proof.Proofs

open Sys2Proof.Machine Sys2Proof.Safety

variable {s : State} {t : Tree} {h : Header} {cs : List (Byte × List Bool)}

/-! #### The payload of a header -/

/-- `Decode` of a payload that starts with the codes of some of the symbols due: it puts those out and goes on after
their bits (44_decoder_bit_reader.md R322). -/
theorem decodePayload_after_codes (hn : cs.length ≤ h.n.toNat) (hcodes : ∀ c ∈ cs, IsCode t c.1 c.2)
    (hvbc : (cs.flatMap Prod.snd).length ≤ h.vbc.toNat) (hbits : BitsAt s h.pay.toNat (cs.flatMap Prod.snd)) :
    s.decodePayload t h = (cs.map Prod.fst ++ ·) <$>
      s.decodeLoop t h.pay.toNat (h.vbc.toNat - (cs.flatMap Prod.snd).length) (cs.flatMap Prod.snd).length cs.length
        (h.n.toNat - cs.length) t.root := by
  have hloop := decodeLoop_codes (avail := h.vbc.toNat - (cs.flatMap Prod.snd).length) (emitted := 0)
    (m := h.n.toNat - cs.length) hcodes (bitsFrom_zero_iff.mpr hbits)
  rwa [Nat.sub_add_cancel hvbc, Nat.sub_add_cancel hn, Nat.zero_add, Nat.zero_add] at hloop

/-- `Decode` of a payload that starts with the codes of all the symbols due; bits after them are ignored
(44_decoder_bit_reader.md R322, R324). -/
theorem decodePayload_codes (hn : cs.length = h.n.toNat) (hcodes : ∀ c ∈ cs, IsCode t c.1 c.2)
    (hvbc : (cs.flatMap Prod.snd).length ≤ h.vbc.toNat) (hbits : BitsAt s h.pay.toNat (cs.flatMap Prod.snd)) :
    s.decodePayload t h = .ok (cs.map Prod.fst) := by
  rw [decodePayload_after_codes hn.le hcodes hvbc hbits, hn, Nat.sub_self, decodeLoop_done]
  exact congrArg Except.ok (List.append_nil _)

/-- `Decode` of a payload whose valid bits end after the codes of fewer symbols than are due
(44_decoder_bit_reader.md R324). -/
theorem decodePayload_truncated {q : List Bool} (hn : cs.length < h.n.toNat) (hcodes : ∀ c ∈ cs, IsCode t c.1 c.2)
    (hq : NoLeafOn t q) (hvbc : (cs.flatMap Prod.snd ++ q).length = h.vbc.toNat)
    (hbits : BitsAt s h.pay.toNat (cs.flatMap Prod.snd ++ q)) :
    s.decodePayload t h = raise .truncatedStream cs.length := by
  obtain ⟨hcs, hrest⟩ := bitsFrom_of_append (bitsFrom_zero_iff.mpr hbits)
  rw [Nat.zero_add] at hrest
  obtain ⟨due, hdue⟩ := Nat.exists_eq_add_one.mpr (Nat.sub_pos_of_lt hn)
  rw [List.length_append] at hvbc
  have hend : s.decodeLoop t h.pay.toNat q.length (cs.flatMap Prod.snd).length cs.length (due + 1) t.root =
      raise .truncatedStream cs.length := by
    rcases hq with rfl | hno
    · exact decodeLoop_exhausted
    · exact decodeLoop_noLeaf hno hrest
  rw [decodePayload_after_codes hn.le hcodes (by omega) (bitsFrom_zero_iff.mp hcs), hdue, ← hvbc,
    Nat.add_sub_cancel_left, hend]
  rfl

/-- `Decode` under a single leaf of a payload with a 1 bit after fewer 0 bits than symbols are due
(44_decoder_bit_reader.md R323). -/
theorem decodePayload_oneBit {m : Nat} {sym : Byte} {w : BitVec 40} (hroot : t.node[t.root] = .leaf sym w)
    (hn : m < h.n.toNat) (hvbc : m < h.vbc.toNat)
    (hbits : BitsAt s h.pay.toNat (List.replicate m false ++ [true])) :
    s.decodePayload t h = raise .invalidCode m := by
  have hcodes : ∀ c ∈ List.replicate m (sym, [false]), IsCode t c.1 c.2 := fun c hc => by
    rw [List.eq_of_mem_replicate hc]
    exact (isCode_leaf hroot).mpr ⟨rfl, rfl⟩
  have hzeros : (List.replicate m (sym, [false])).flatMap Prod.snd = List.replicate m false := by
    simp [List.flatMap_replicate]
  obtain ⟨hcs, hrest⟩ := bitsFrom_of_append (bitsFrom_zero_iff.mpr hbits)
  obtain ⟨hone, -⟩ := bitsFrom_of_cons hrest
  rw [Nat.zero_add, List.length_replicate] at hone
  obtain ⟨due, hdue⟩ := Nat.exists_eq_add_one.mpr (Nat.sub_pos_of_lt hn)
  obtain ⟨avail, hav⟩ := Nat.exists_eq_add_one.mpr (Nat.sub_pos_of_lt hvbc)
  have hafter := decodePayload_after_codes (s := s) (h := h) (by simpa using hn.le) hcodes
    (by simpa [hzeros] using hvbc.le) (by rwa [hzeros, ← bitsFrom_zero_iff])
  rw [hzeros, List.length_replicate, List.length_replicate, hdue, hav, decodeLoop_leaf_one hone hroot] at hafter
  exact hafter

/-! #### DECODE -/

/-- DECODE once its checks have passed: the payload of HDR, and the updates (44_decoder_bit_reader.md R326). -/
theorem execDecode_of_checks (htab : s.status.missing 0xB0 = 0) (hout : OutputFits s)
    (hroom : s.hdr.n.toNat ≤ s.range.outCap.toNat) :
    execDecode s = finish .decode s (s.decoded <$> s.decodePayload s.tree s.hdr) := by
  rw [execDecode, checkTables_eq_ok.mpr htab, run_ok_bind, checkOutput_eq_ok.mpr hout, run_ok_bind,
    checkDecoded_eq_ok.mpr hroom, run_ok_bind]
  rfl

/-- Settles O16: the checks pass, and the loop of `Decode` puts out one symbol for each code. -/
theorem decodeWritesTheCodedSymbols : Obligations.DecodeWritesTheCodedSymbols := by
  unfold Obligations.DecodeWritesTheCodedSymbols
  intro s cs hf ht hh hout hroom hn hcodes hvbc hbits
  rw [exec, execDecode_of_checks (missing_decode_eq_zero.mpr ⟨hf, ht, hh⟩) hout hroom,
    decodePayload_codes hn hcodes hvbc hbits]
  rfl

end Sys2Proof.Proofs
end

section
/-! ### DECODE and DECOMPRESS of a bad payload -/

namespace Sys2Proof.Proofs

open Sys2Proof.Machine Sys2Proof.Safety

variable {s : State} {ft : FreqTable} {n vbc : Word}

/-- The payload offset of an artifact fits its 32-bit latch (44_decoder_bit_reader.md R326). -/
theorem artifactAt_payload_toNat (h : ArtifactAt s ft n vbc) :
    (BitVec.ofNat 32 (s.range.inOff.toNat + 12 + 5 * ft.length)).toNat =
      s.range.inOff.toNat + 12 + 5 * ft.length := by
  obtain ⟨-, -, hin, -, hlen⟩ := h
  have hsize := s.params.ibufSize.isLt
  exact Nat.mod_eq_of_lt (by omega)

/-- DECOMPRESS of an artifact that has room for its symbols: the payload under the tree of its table, and the updates
(45_pipeline_commands.md R373). -/
theorem execDecompress_of_artifact (h : ArtifactAt s ft n vbc) (hout : OutputFits s)
    (hroom : n.toNat ≤ s.range.outCap.toNat) {hdr : Header}
    (hhdr : hdr = ⟨n, vbc, BitVec.ofNat 32 (s.range.inOff.toNat + 12 + 5 * ft.length)⟩) :
    execDecompress s =
      finish .decompress s (s.decompressed ft hdr <$> s.decodePayload (buildTree ft s.tree) hdr) := by
  obtain ⟨hft, hn, hin, hbytes, hlen⟩ := h
  rw [execDecompress, checkInput_eq_ok.mpr hin, run_ok_bind, checkOutput_eq_ok.mpr hout, run_ok_bind,
    parseHeader_of_header hft hn hbytes hlen, run_ok_bind, ← hhdr]
  dsimp only
  rw [checkDecoded_eq_ok.mpr (by rwa [hhdr]), run_ok_bind]
  rfl

/-- An error in the payload is the error completion of DECODE. -/
theorem execDecode_of_payload_raise {e : ErrorCode} {info : Nat} (htab : s.status.missing 0xB0 = 0)
    (hout : OutputFits s) (hroom : s.hdr.n.toNat ≤ s.range.outCap.toNat)
    (hpay : s.decodePayload s.tree s.hdr = raise e info) :
    exec .decode s = .next (s.raiseError true e (BitVec.ofNat 32 info)) := by
  rw [exec, execDecode_of_checks htab hout hroom, hpay]
  rfl

/-- An error in the payload is the error completion of DECOMPRESS. -/
theorem execDecompress_of_payload_raise {e : ErrorCode} {info : Nat} (h : ArtifactAt s ft n vbc) (hout : OutputFits s)
    (hroom : n.toNat ≤ s.range.outCap.toNat)
    (hpay : s.decodePayload (buildTree ft s.tree)
      ⟨n, vbc, BitVec.ofNat 32 (s.range.inOff.toNat + 12 + 5 * ft.length)⟩ = raise e info) :
    exec .decompress s = .next (s.raiseError true e (BitVec.ofNat 32 info)) := by
  rw [exec, execDecompress_of_artifact h hout hroom rfl, hpay]
  rfl

/-- Settles O35: after the codes the loop of `Decode` finds no further leaf. -/
theorem truncatedPayloadIsReported : Obligations.TruncatedPayloadIsReported := by
  unfold Obligations.TruncatedPayloadIsReported
  refine ⟨fun s cs q htab hout hroom hn hcodes hq hvbc hbits => ?_,
    fun s ft n vbc cs q h hout hroom hn hcodes hq hvbc hbits => ?_⟩
  · exact execDecode_of_payload_raise htab hout hroom (decodePayload_truncated hn hcodes hq hvbc hbits)
  · rw [← artifactAt_payload_toNat h] at hbits
    exact execDecompress_of_payload_raise h hout hroom (decodePayload_truncated hn hcodes hq hvbc hbits)

/-- The tree of a table of one symbol is a single leaf (41_tree_builder.md R223). -/
theorem buildTree_root_leaf (hft : FreqTableOk ft) (hone : ft.length = 1) (old : Tree) :
    ∃ sym w, (buildTree ft old).node[(buildTree ft old).root] = .leaf sym w := by
  have hroot : (buildTree ft old).root.val < ft.length := by
    rw [buildTree_root hft old, hone]
    decide
  exact ⟨_, _, (building_buildRun hft old.node).leaf _ hroot⟩

/-- Settles O36: after the codes of `m` symbols, each one 0 bit, the loop of `Decode` stands on the leaf with a 1
bit. -/
theorem oneBitUnderASingleLeafIsReported : Obligations.OneBitUnderASingleLeafIsReported := by
  unfold Obligations.OneBitUnderASingleLeafIsReported
  refine ⟨fun s m sym w htab hout hroom hroot hn hvbc hbits => ?_,
    fun s ft n vbc m h hone hout hroom hn hvbc hbits => ?_⟩
  · exact execDecode_of_payload_raise htab hout hroom (decodePayload_oneBit hroot hn hvbc hbits)
  · have ⟨hft, _⟩ := h
    obtain ⟨sym, w, hroot⟩ := buildTree_root_leaf hft hone s.tree
    rw [← artifactAt_payload_toNat h] at hbits
    exact execDecompress_of_payload_raise h hout hroom (decodePayload_oneBit hroot hn hvbc hbits)

end Sys2Proof.Proofs
end

section
/-! ### PARSE and DECOMPRESS of a bad header -/

namespace Sys2Proof.Proofs

open Sys2Proof.Machine Sys2Proof.Safety

variable {s : State} {off len : Nat}

/-! #### The fields of ParseHeader -/

theorem need_eq_raise {o w : Nat} (h : len < o + w) : need len o w = raise .malformedHeader o := if_pos h

theorem bytesAt_of_append {o : Nat} {bs bs' : List Byte} (h : BytesAt s o (bs ++ bs')) :
    BytesAt s o bs ∧ BytesAt s (o + bs.length) bs' := by
  refine ⟨fun i hi => ?_, fun i hi => ?_⟩
  · rw [h i (by rw [List.length_append]; omega), List.getElem_append_left hi]
  · rw [Nat.add_assoc, h (bs.length + i) (by rw [List.length_append]; omega), List.getElem_append_right' bs hi]
    simp only [Nat.add_comm]

/-- The part of ParseHeader after the table `ft` of `k` entries is read: the two totals, and the check of the payload
(44_decoder_bit_reader.md R321). -/
def parseTotals (s : State) (off len k : Nat) (ft : FreqTable) : Run (FreqTable × Header) := do
  need len (4 + 5 * k) 4
  let n ← s.le32 (off + 4 + 5 * k)
  if n = 0 then raise .malformedHeader (4 + 5 * k)
  else
    need len (8 + 5 * k) 4
    let v ← s.le32 (off + 8 + 5 * k)
    if len - (12 + 5 * k) < ceil8 v.toNat then raise .truncatedStream 0
    else return (ft, ⟨n, v, BitVec.ofNat 32 (off + 12 + 5 * k)⟩)

/-- ParseHeader with a legal symbol count reads the entries, then the totals (44_decoder_bit_reader.md R321). -/
theorem parseHeader_of_count {k : Word} (hlen : 4 ≤ len) (hk : BytesAt s off (leBytes k)) (hpos : k.toNat ≠ 0)
    (hle : k.toNat ≤ 256) :
    s.parseHeader off len = s.parseEntries off len k.toNat 0 [] >>= parseTotals s off len k.toNat := by
  rw [State.parseHeader, need_eq_ok.mpr (by omega), run_ok_bind, le32_of_bytesAt hk, run_ok_bind]
  exact if_neg (by omega)

/-- ParseHeader without a symbol count reports offset 0 (44_decoder_bit_reader.md R321). -/
theorem parseHeader_without_count (hlen : len < 4) : s.parseHeader off len = raise .malformedHeader 0 := by
  rw [State.parseHeader, need_eq_raise (by omega), run_raise_bind]

/-- ParseHeader with an illegal symbol count reports offset 0 (44_decoder_bit_reader.md R321). -/
theorem parseHeader_of_bad_count {k : Word} (hlen : 4 ≤ len) (hk : BytesAt s off (leBytes k))
    (hbad : k.toNat = 0 ∨ 256 < k.toNat) : s.parseHeader off len = raise .malformedHeader 0 := by
  rw [State.parseHeader, need_eq_ok.mpr (by omega), run_ok_bind, le32_of_bytesAt hk, run_ok_bind]
  exact if_pos hbad

/-! #### The entry loop -/

section entries

variable {m r o : Nat} {ft : FreqTable} (ho : o = 4 + 5 * r)

include ho

theorem parseEntries_without_sym (hlen : len < o + 1) :
    s.parseEntries off len (m + 1) r ft = raise .malformedHeader o := by
  rw [State.parseEntries, ← ho, need_eq_raise hlen, run_raise_bind]

variable {sym : Byte} (hlen : o + 1 ≤ len) (hsym : s.ib (off + o) = .ok sym)

include hlen hsym

theorem parseEntries_of_repeated (hrep : sym ∈ ft.map FtEntry.sym) :
    s.parseEntries off len (m + 1) r ft = raise .malformedHeader o := by
  rw [State.parseEntries, ← ho, need_eq_ok.mpr hlen, run_ok_bind, Nat.add_assoc, ← ho, hsym, run_ok_bind]
  exact if_pos (by simpa using hrep)

variable (hnew : sym ∉ ft.map FtEntry.sym)

include hnew

theorem parseEntries_without_cnt (hshort : len < o + 5) :
    s.parseEntries off len (m + 1) r ft = raise .malformedHeader (o + 1) := by
  have hcnto : 5 + 5 * r = o + 1 := by omega
  rw [State.parseEntries, ← ho, need_eq_ok.mpr hlen, run_ok_bind, Nat.add_assoc, ← ho, hsym, run_ok_bind,
    if_neg (by simpa using hnew), hcnto, need_eq_raise (by omega), run_raise_bind]

theorem parseEntries_of_cnt {f : Word} (hlen' : o + 5 ≤ len) (hcnt : BytesAt s (off + o + 1) (leBytes f)) :
    s.parseEntries off len (m + 1) r ft =
      if f = 0 then raise .malformedHeader (o + 1)
      else s.parseEntries off len m (r + 1) (ft ++ [⟨sym, f⟩]) := by
  have hcnto : 5 + 5 * r = o + 1 := by omega
  rw [State.parseEntries, ← ho, need_eq_ok.mpr hlen, run_ok_bind, Nat.add_assoc off 4, ← ho, hsym, run_ok_bind,
    if_neg (by simpa using hnew), Nat.add_assoc off 5, hcnto, need_eq_ok.mpr (by omega), run_ok_bind, ← Nat.add_assoc,
    le32_of_bytesAt hcnt, run_ok_bind]

end entries

/-- The entry loop takes in well-formed entries and goes on after them (44_decoder_bit_reader.md R321). -/
theorem parseEntries_append {ft es : FreqTable} {m r : Nat} (hd : DistinctCounted (ft ++ es))
    (hlen : 4 + 5 * (r + es.length) ≤ len) (hb : BytesAt s (off + (4 + 5 * r)) (entriesBytes es)) :
    s.parseEntries off len (m + es.length) r ft = s.parseEntries off len m (r + es.length) (ft ++ es) := by
  induction es generalizing ft r with
  | nil => rw [List.append_nil]; rfl
  | cons e es ih =>
    rw [List.append_cons] at hd ⊢
    rw [List.length_cons] at hlen ⊢
    obtain ⟨hentry, hrest⟩ := bytesAt_of_append (bs := entryBytes e) hb
    obtain ⟨hsym, hcnt⟩ := bytesAt_of_cons hentry
    obtain ⟨hnodup, hpos⟩ := hd
    have hnew : e.sym ∉ ft.map FtEntry.sym := by
      rw [List.map_append, List.map_append, List.append_assoc] at hnodup
      exact (List.disjoint_of_nodup_append hnodup).symm (by simp)
    have hne : e.cnt ≠ 0 := hpos e (by simp)
    have hnext : off + (4 + 5 * r) + (entryBytes e).length = off + (4 + 5 * (r + 1)) := by
      rw [entryBytes_length]
      omega
    rw [hnext] at hrest
    rw [← Nat.add_assoc, parseEntries_of_cnt rfl (by omega) hsym hnew (by omega) hcnt, if_neg hne,
      ih ⟨hnodup, hpos⟩ (by omega) hrest, Nat.add_assoc r, Nat.add_comm 1]

/-- ParseHeader after well-formed entries of a header goes on with the next one (44_decoder_bit_reader.md R321). -/
theorem parseHeader_after_entries {es : FreqTable} {k : Word} (hpos : k.toNat ≠ 0) (hle : k.toNat ≤ 256)
    (hes : es.length ≤ k.toNat) (hd : DistinctCounted es) (hlen : 4 + 5 * es.length ≤ len)
    (hb : BytesAt s off (leBytes k ++ entriesBytes es)) :
    s.parseHeader off len =
      s.parseEntries off len (k.toNat - es.length) es.length es >>= parseTotals s off len k.toNat := by
  obtain ⟨hk, hentries⟩ := bytesAt_of_append hb
  have hloop := parseEntries_append (m := k.toNat - es.length) (r := 0) (ft := []) (len := len) hd (by omega) hentries
  rw [Nat.sub_add_cancel hes, Nat.zero_add, List.nil_append] at hloop
  rw [parseHeader_of_count (by omega) hk hpos hle, hloop]

/-! #### The commands -/

/-- An error of ParseHeader is the error completion of PARSE and of DECOMPRESS, once their pre-checks have passed
(44_decoder_bit_reader.md R325; 45_pipeline_commands.md R373). -/
theorem exec_of_parseHeader_raise {i : Instr} {e : ErrorCode} {info : Nat} (hi : i ∈ [Instr.parse, .decompress])
    (hin : s.range.inOff.toNat + s.range.inLen.toNat ≤ s.params.ibufSize.toNat) (hout : i = .decompress → OutputFits s)
    (h : s.parseHeader s.range.inOff.toNat s.range.inLen.toNat = raise e info) :
    exec i s = .next (s.raiseError (writesObuf i) e (BitVec.ofNat 32 info)) := by
  rcases List.mem_pair.mp hi with rfl | rfl
  · rw [exec, execParse, checkInput_eq_ok.mpr hin, run_ok_bind, h]
    rfl
  · rw [exec, execDecompress, checkInput_eq_ok.mpr hin, run_ok_bind, checkOutput_eq_ok.mpr (hout rfl), run_ok_bind, h]
    rfl

/-- Settles O34: the entry loop takes in the entries before, and stops at the next one. -/
theorem badHeaderEntriesAreReported : Obligations.BadHeaderEntriesAreReported := by
  unfold Obligations.BadHeaderEntriesAreReported
  intro s i es k o hi hin hout hlt hle hnodup hpos ho hlen hb
  have stops {e : ErrorCode} {info : Nat}
      (h : ∀ m, s.parseEntries s.range.inOff.toNat s.range.inLen.toNat (m + 1) es.length es = raise e info) :
      exec i s = .next (s.raiseError (writesObuf i) e (BitVec.ofNat 32 info)) := by
    obtain ⟨m, hm⟩ := Nat.exists_eq_add_one.mpr (Nat.sub_pos_of_lt hlt)
    refine exec_of_parseHeader_raise hi hin hout ?_
    rw [parseHeader_after_entries (by omega) hle hlt.le ⟨hnodup, hpos⟩ (ho ▸ hlen) hb, hm, h, run_raise_bind]
  refine ⟨fun hshort => stops fun m => parseEntries_without_sym ho hshort, fun sym hlen' hsym => ⟨fun hrep => ?_,
    fun hnew hshort => ?_, fun hnew hfull hzero => ?_⟩⟩
  · exact stops fun m => parseEntries_of_repeated ho hlen' hsym hrep
  · exact stops fun m => parseEntries_without_cnt ho hlen' hsym hnew hshort
  · exact stops fun m => parseEntries_of_cnt (f := 0) ho hlen' hsym hnew hfull hzero

/-! #### The totals -/

section totals

variable {k o : Nat} {ft : FreqTable} (ho : o = 4 + 5 * k)

include ho

theorem parseTotals_without_n (hlen : len < o + 4) : parseTotals s off len k ft = raise .malformedHeader o := by
  rw [parseTotals, ← ho, need_eq_raise hlen, run_raise_bind]

variable {n : Word} (hlen : o + 4 ≤ len) (hn : BytesAt s (off + o) (leBytes n))

include hlen hn

theorem parseTotals_of_zero_n (hzero : n = 0) : parseTotals s off len k ft = raise .malformedHeader o := by
  rw [parseTotals, ← ho, need_eq_ok.mpr hlen, run_ok_bind, Nat.add_assoc, ← ho, le32_of_bytesAt hn, run_ok_bind,
    if_pos hzero]

theorem parseTotals_without_vbc (hpos : n ≠ 0) (hshort : len < o + 8) :
    parseTotals s off len k ft = raise .malformedHeader (o + 4) := by
  rw [parseTotals, ← ho, need_eq_ok.mpr hlen, run_ok_bind, Nat.add_assoc, ← ho, le32_of_bytesAt hn, run_ok_bind,
    if_neg hpos, need_eq_raise (by omega), run_raise_bind, ho, Nat.add_right_comm]

theorem parseTotals_of_short_payload {vbc : Word} (hpos : n ≠ 0) (hlen' : o + 8 ≤ len)
    (hv : BytesAt s (off + o + 4) (leBytes vbc)) (hshort : len < o + 8 + ceil8 vbc.toNat) :
    parseTotals s off len k ft = raise .truncatedStream 0 := by
  have hvo : off + 8 + 5 * k = off + o + 4 := by omega
  rw [parseTotals, ← ho, need_eq_ok.mpr hlen, run_ok_bind, Nat.add_assoc off 4, ← ho, le32_of_bytesAt hn, run_ok_bind,
    if_neg hpos, need_eq_ok.mpr (by omega), run_ok_bind, hvo, le32_of_bytesAt hv, run_ok_bind, if_pos (by omega)]

end totals

/-- Settles O33: ParseHeader stops at the symbol count, or reads the whole table and stops at one of the totals. -/
theorem badHeaderFieldsAreReported : Obligations.BadHeaderFieldsAreReported := by
  unfold Obligations.BadHeaderFieldsAreReported
  intro s i hi hin hout
  refine ⟨fun hlen => exec_of_parseHeader_raise hi hin hout (parseHeader_without_count hlen),
    fun k hlen hk hbad => exec_of_parseHeader_raise hi hin hout (parseHeader_of_bad_count hlen hk hbad),
    fun ft o hft ho hlen hb => ?_⟩
  have stops {e : ErrorCode} {info : Nat}
      (h : parseTotals s s.range.inOff.toNat s.range.inLen.toNat ft.length ft = raise e info) :
      exec i s = .next (s.raiseError (writesObuf i) e (BitVec.ofNat 32 info)) := by
    obtain ⟨hpos, hle, hdc⟩ := hft
    have hk : (BitVec.ofNat 32 ft.length).toNat = ft.length := Nat.mod_eq_of_lt (by omega)
    refine exec_of_parseHeader_raise hi hin hout ?_
    rw [parseHeader_after_entries (by omega) (by omega) hk.ge hdc (by omega) hb, hk, Nat.sub_self]
    exact h
  refine ⟨fun hshort => stops (parseTotals_without_n ho hshort), fun n hlen' hn => ⟨fun hzero => ?_,
    fun hpos hshort => ?_, fun vbc hpos hlen'' hv hshort => ?_⟩⟩
  · exact stops (parseTotals_of_zero_n ho hlen' hn hzero)
  · exact stops (parseTotals_without_vbc ho hlen' hn hpos hshort)
  · exact stops (parseTotals_of_short_payload ho hlen' hn hpos hlen'' hv hshort)

end Sys2Proof.Proofs
end

section
/-! ### The command of a fetched word, and NOP -/

namespace Sys2Proof.Proofs

open Sys2Proof.Machine Sys2Proof.Safety

/-- The table word of a 32-bit word is the word. -/
theorem tableWord_toNat (w : Word) : tableWord 32 w.toNat = w := by
  rw [tableWord, Nat.mod_eq_of_lt w.isLt, BitVec.ofNat_toNat, BitVec.setWidth_eq]

/-- Settles O5: the word is accepted, its turn is the ENGINE's, and it decodes to the command. -/
theorem fetchedWordRunsNext : Obligations.FetchedWordRunsNext := by
  unfold Obligations.FetchedWordRunsNext
  intro s i
  have hturn : (s.withFetchWord 32 (encodeWord i).toNat).agenda = .engine :: s.agenda := rfl
  rw [step_cons hturn, State.withFetchWord, tableWord_toNat]
  exact engineTurn_pending rfl (decodeWord_eq_ok.mpr rfl)

/-- Settles O9: NOP has no updates of its own, and a completion changes only its registers. -/
theorem nopOnlyCompletes : Obligations.NopOnlyCompletes := by
  unfold Obligations.NopOnlyCompletes
  exact fun s => execNop_next.mpr rfl

end Sys2Proof.Proofs
end

section
/-! ### DECOMPRESS, and DECOMPRESS of what COMPRESS wrote -/

namespace Sys2Proof.Proofs

open Sys2Proof.Machine Sys2Proof.Safety

variable {s : State} {bs : List Byte}

/-! #### DECOMPRESS of an artifact -/

/-- DECOMPRESS of an artifact whose payload starts with the codes of its symbols, with room for them, succeeds with its
updates (45_pipeline_commands.md R373). -/
theorem execDecompress_of_codes {ft : FreqTable} {n vbc : Word} {cs : List (Byte × List Bool)}
    (h : ArtifactAt s ft n vbc) (hout : OutputFits s) (hroom : n.toNat ≤ s.range.outCap.toNat)
    (hn : cs.length = n.toNat) (hcodes : ∀ c ∈ cs, IsCode (buildTree ft s.tree) c.1 c.2)
    (hvbc : (cs.flatMap Prod.snd).length ≤ vbc.toNat)
    (hbits : BitsAt s (s.range.inOff.toNat + 12 + 5 * ft.length) (cs.flatMap Prod.snd)) :
    execDecompress s = .next (s.decompressed ft
      ⟨n, vbc, BitVec.ofNat 32 (s.range.inOff.toNat + 12 + 5 * ft.length)⟩ (cs.map Prod.fst)).complete := by
  rw [← artifactAt_payload_toNat h] at hbits
  rw [execDecompress_of_artifact h hout hroom rfl, decodePayload_codes hn hcodes hvbc hbits]
  rfl

/-- Settles O18: every check of DECOMPRESS passes, and the loop of `Decode` puts out one symbol for each code. -/
theorem decompressRestoresTheSymbols : Obligations.DecompressRestoresTheSymbols := by
  unfold Obligations.DecompressRestoresTheSymbols
  intro s ft n vbc cs hft hn hin hout hbytes hlen hroom hcs hcodes hvbc hbits
  exact execDecompress_of_codes ⟨hft, hn, hin, hbytes, hlen⟩ hout hroom hcs hcodes hvbc hbits

/-! #### The codes of an artifact -/

/-- The bytes with their codes, in order. -/
def codedBytes (ct : CodeTable) (bs : List Byte) : List (Byte × List Bool) :=
  bs.map fun b => (b, CodeTable.bits ct b)

@[simp] theorem codedBytes_map_fst (ct : CodeTable) (bs : List Byte) : (codedBytes ct bs).map Prod.fst = bs := by
  rw [codedBytes, List.map_map]
  exact List.map_id bs

@[simp] theorem codedBytes_flatMap_snd (ct : CodeTable) (bs : List Byte) :
    (codedBytes ct bs).flatMap Prod.snd = stream ct bs := by
  rw [codedBytes, List.flatMap_map, stream]

@[simp] theorem codedBytes_length (ct : CodeTable) (bs : List Byte) : (codedBytes ct bs).length = bs.length :=
  List.length_map _

/-- The codes of a table are those of every tree built of it, whatever the node store held before (41_tree_builder.md
R223, 42_code_assigner.md R250). -/
theorem isCode_buildTree {ft : FreqTable} (h : FreqTableOk ft) (old old' : Tree) {b : Byte}
    (hb : b ∈ ft.map FtEntry.sym) :
    IsCode (buildTree ft old) b (CodeTable.bits (assignCodes (buildTree ft old')) b) := by
  obtain ⟨e, he, rfl⟩ := List.mem_map.mp hb
  obtain ⟨hcode, -⟩ := codesAreThePathsToTheLeaves ft old h
  rw [← assignCodes_sameTree (sameTree_buildTree h old old')]
  exact hcode e he

/-- The bytes of a scanned input have their codes in every tree built of the scan. -/
theorem isCode_of_mem_codedBytes (hft : FreqTableOk (scanBytes bs)) (old old' : Tree) {c : Byte × List Bool}
    (hc : c ∈ codedBytes (assignCodes (buildTree (scanBytes bs) old')) bs) :
    IsCode (buildTree (scanBytes bs) old) c.1 c.2 := by
  obtain ⟨b, hb, rfl⟩ := List.mem_map.mp hc
  exact isCode_buildTree hft old old' (mem_map_sym_scanBytes.mpr hb)

/-- Packed bits are read back bit by bit (44_decoder_bit_reader.md R320). -/
theorem bitsAt_of_bytesAt_pack {pay : Nat} {bits : List Bool} (h : BytesAt s pay (pack bits)) :
    BitsAt s pay bits := by
  intro p hp
  have hbyte : p / 8 < (pack bits).length := by
    rw [pack_length, ceil8]
    omega
  rw [State.readBit, h _ hbyte, run_ok_bind, run_pure, payloadBit, pack_getLsbD hbyte, List.getD_eq_getElem _ _ hp]

section artifact

variable {ct : CodeTable} {n vbc : Word} (hn : n.toNat = bs.length) (hvbc : vbc.toNat = totalBits (scanBytes bs) ct)
  (hbytes : BytesAt s s.range.inOff.toNat (artifact (scanBytes bs) ct bs))

include hbytes

theorem bitsAt_of_bytesAt_artifact :
    BitsAt s (s.range.inOff.toNat + 12 + 5 * (scanBytes bs).length) (stream ct bs) := by
  obtain ⟨-, hpayload⟩ := bytesAt_of_append hbytes
  rw [headerBytes_length, ← Nat.add_assoc] at hpayload
  exact bitsAt_of_bytesAt_pack hpayload

variable (hne : bs ≠ []) (hin : s.range.inOff.toNat + s.range.inLen.toNat ≤ s.params.ibufSize.toNat)
  (hsize : s.range.inLen.toNat = (artifact (scanBytes bs) ct bs).length)

include hn hvbc hne hin hsize

/-- The artifact of a non-empty input is one that ParseHeader accepts (30_encoding.md R150). -/
theorem artifactAt_of_bytesAt_artifact : ArtifactAt s (scanBytes bs) n vbc := by
  have hlen : bs.length < 2 ^ 32 := hn ▸ n.isLt
  obtain ⟨hheader, -⟩ := bytesAt_of_append hbytes
  refine ⟨freqTableOk_scanBytes hne hlen, ?_, hin, by rwa [hn, hvbc], ?_⟩
  · rintro rfl
    exact hne (List.eq_nil_of_length_eq_zero hn.symm)
  · rw [hsize, artifact_scanBytes_length ct hlen, hvbc]
    exact le_rfl

/-- DECOMPRESS of the artifact that COMPRESS makes of `bs` gives back `bs` (45_pipeline_commands.md R374). -/
theorem execDecompress_of_bytesAt_artifact {old : Tree} (hct : ct = assignCodes (buildTree (scanBytes bs) old))
    (hout : OutputFits s) (hroom : bs.length ≤ s.range.outCap.toNat) :
    execDecompress s = .next (s.decompressed (scanBytes bs)
      ⟨n, vbc, BitVec.ofNat 32 (s.range.inOff.toNat + 12 + 5 * (scanBytes bs).length)⟩ bs).complete := by
  have hartifact := artifactAt_of_bytesAt_artifact hn hvbc hbytes hne hin hsize
  have ⟨hft, _⟩ := hartifact
  have hexec := execDecompress_of_codes (cs := codedBytes ct bs) hartifact hout (hn ▸ hroom)
    (by rw [codedBytes_length, hn]) (fun c hc => isCode_of_mem_codedBytes hft _ old (hct ▸ hc))
    (by rw [codedBytes_flatMap_snd, hvbc, totalBits_scanBytes ct (hn ▸ n.isLt)])
    (by rw [codedBytes_flatMap_snd]; exact bitsAt_of_bytesAt_artifact hbytes)
  rwa [codedBytes_map_fst] at hexec

end artifact

/-! #### The round trip -/

/-- A COMPRESS that completes without error has written the artifact of its input, within the checks of
45_pipeline_commands.md R372. -/
theorem execCompress_succeeded {t : State} {ft : FreqTable} {tree : Tree} {ct : CodeTable} (h : InputHolds s bs)
    (hfresh : s.freshCodes bs = (ft, tree, ct)) (ht : execCompress s = .next t) (hok : t.errs.code = 0) :
    bs ≠ [] ∧ totalBits ft ct ≤ word32Max ∧ artifactSize ft (totalBits ft ct) ≤ s.range.outCap.toNat ∧
      t = (s.compressed bs).complete := by
  rcases execCompress_next ht with ⟨bs', _, _, _, h', -, hne, hfresh', hbits, hroom, rfl⟩ | ⟨e, info, he, rfl⟩
  · obtain rfl : bs' = bs := Except.ok.inj ((inputBytes_of_holds h').symm.trans (inputBytes_of_holds h))
    obtain ⟨rfl, rfl, rfl⟩ : _ = ft ∧ _ = tree ∧ _ = ct := by simpa using hfresh'.symm.trans hfresh
    exact ⟨inputHolds_ne_nil h hne, hbits, hroom, rfl⟩
  · rw [raiseError_errs] at hok
    have hcode : e.code ≠ 0 := by rcases he with rfl | rfl | rfl <;> decide
    exact absurd hok hcode

/-- IBUF holds the bytes that somebody has written there. -/
theorem bytesAt_of_read {off : Nat} (hin : off + bs.length ≤ s.params.ibufSize.toNat)
    (h : ∀ i (hi : i < bs.length), s.mem.read (ibufBase + off + i) = some bs[i]) : BytesAt s off bs := fun i hi =>
  ib_eq_ok.mpr ⟨by omega, .inl ((congrArg s.mem.read (Nat.add_assoc _ _ _).symm).trans (h i hi))⟩

/-- Settles O59: the copy of the artifact is read byte by byte, its codes are those of the tree DECOMPRESS builds, and
the symbols they put out are the input. -/
theorem decompressInvertsCompress : Obligations.DecompressInvertsCompress := by
  unfold Obligations.DecompressInvertsCompress
  intro s t u bs h ht hok hlen hin hcopy hout hroom
  obtain ⟨hne, hbits, hfits, rfl⟩ := execCompress_succeeded h rfl ht hok
  have hlt := inputHolds_length_lt h
  have hsize : (s.compressed bs).complete.result.outLen.toNat =
      (artifact (scanBytes bs) (assignCodes (buildTree (scanBytes bs) s.tree)) bs).length :=
    (Nat.mod_eq_of_lt (hfits.trans_lt s.range.outCap.isLt)).trans (artifact_scanBytes_length _ hlt).symm
  have hn : (BitVec.ofNat 32 bs.length).toNat = bs.length := Nat.mod_eq_of_lt hlt
  have hvbc := (BitVec.toNat_ofNat _ 32).trans (Nat.mod_eq_of_lt (Nat.lt_succ_of_le hbits))
  have hbytes := bytesAt_of_read (by rwa [← hsize, ← hlen]) fun i hi =>
    (hcopy i (hsize ▸ hi)).trans (read_store_inside hi)
  have hexec := execDecompress_of_bytesAt_artifact hn hvbc hbytes hne hin (hlen ▸ hsize) rfl hout hroom
  exact ⟨_, hexec, rfl, rfl, hn, fun i hi => read_store_inside hi⟩

end Sys2Proof.Proofs
end

section
/-! ### What the two kinds of error completion do -/

namespace Sys2Proof.Proofs

open Sys2Proof.Machine Sys2Proof.Safety

variable {s : State} {e : ErrorCode}

theorem isPreCheck_iff_mem : e.isPreCheck = true ↔ e ∈ [.illegalCommand, .sequenceError, .rangeError] := by
  cases e <;> decide

/-- A pre-check error is recorded and has no other effect (60_exceptions.md R421). -/
theorem raiseError_of_preCheck (h : e.isPreCheck = true) (window : Bool) (info : Word) :
    s.raiseError window e info = s.recordError e info :=
  if_pos h

/-- An execution error is recorded after the results are discarded (60_exceptions.md R420). -/
theorem raiseError_of_not_preCheck (h : ¬e.isPreCheck = true) (window : Bool) (info : Word) :
    s.raiseError window e info = (s.discardResults window).recordError e info :=
  if_neg h

/-- Every byte of a window inside OBUF is drawn (60_exceptions.md R420). -/
theorem read_drawWindow_inside (hout : OutputFits s) {i : Nat} (hi : i < s.range.outCap.toNat) :
    s.drawWindow.mem.read (s.windowBase + i) = some (Config.drawByte s.draws (s.windowBase + i)) := by
  have hsize : s.windowSize = s.range.outCap.toNat := Nat.min_eq_left (Nat.le_sub_of_add_le' hout)
  have hlt : i < (s.drawnBytes s.windowBase s.windowSize).length := by rwa [drawnBytes_length, hsize]
  rw [drawWindow_mem, read_store_inside hlt, drawnBytes_getElem]

/-- Settles O27: the record of the error, after the results are discarded when it is an execution error; the memory it
leaves is that of the drawn window, if the command writes one. -/
theorem errorCompletionsHaveTheirEffects : Obligations.ErrorCompletionsHaveTheirEffects := by
  unfold Obligations.ErrorCompletionsHaveTheirEffects
  intro s window e info
  rw [← isPreCheck_iff_mem]
  refine ⟨fun hpre => raiseError_of_preCheck hpre window info, fun hexec hout =>
    ⟨(s.discardResults window).mem, ?_, ?_, ?_⟩⟩
  · rw [raiseError_of_not_preCheck hexec]
    cases window <;> rfl
  · rintro rfl
    rfl
  · rintro rfl
    exact ⟨fun i hi => read_drawWindow_inside (hout rfl) hi, fun a ha => read_drawWindow_outside ha⟩

end Sys2Proof.Proofs
end

section
/-! ### The checks a command makes of the registers, before it reads a byte -/

namespace Sys2Proof.Proofs

open Sys2Proof.Machine Sys2Proof.Safety

/-! #### A check that fails -/

section checks

variable {s : State}

theorem checkTables_eq_raise {mask : Word} (h : s.status.missing mask ≠ 0) :
    s.checkTables mask = raise .sequenceError (s.status.missing mask).toNat := if_neg h

theorem checkInput_eq_raise (h : s.params.ibufSize.toNat < s.range.inOff.toNat + s.range.inLen.toNat) :
    s.checkInput = raise .rangeError 1 := if_pos h

theorem checkOutput_eq_raise (h : s.params.obufSize.toNat < s.range.outOff.toNat + s.range.outCap.toNat) :
    s.checkOutput = raise .rangeError 2 := if_pos h

theorem checkNonEmpty_eq_raise (h : s.range.inLen = 0) : s.checkNonEmpty = raise .emptyInput 0 := if_pos h

theorem checkEncoded_eq_raise {bits bytes : Nat} (h : word32Max < bits ∨ s.range.outCap.toNat < bytes) :
    s.checkEncoded bits bytes = raise .outputOverflow (saturate bytes) := if_pos h

theorem checkDecoded_eq_raise {n : Word} (h : s.range.outCap.toNat < n.toNat) :
    s.checkDecoded n = raise .outputOverflow n.toNat := if_pos h

end checks

/-! #### The checks of a command, in order -/

/-- The VALID bits a command needs, in STATUS positions (60_exceptions.md R409). -/
def neededTables : Instr → Word
  | .build => 0x10
  | .assign => 0x30
  | .encode => 0x70
  | .decode => 0xB0
  | _ => 0

/-- The commands that read IBUF[IN_OFF .. IN_OFF+IN_LEN−1] (60_exceptions.md R410). -/
def readsInput (i : Instr) : Bool := i ∈ [Instr.scan, .encode, .parse, .compress, .decompress]

/-- The commands an empty input is an error of (60_exceptions.md R402). -/
def needsInput (i : Instr) : Bool := i ∈ [Instr.scan, .encode, .compress]

/-- A check that only some commands make. -/
def checkIf (b : Bool) (check : Run Unit) : Run Unit := if b then check else .ok ()

theorem checkIf_eq_ok {b : Bool} {check : Run Unit} (h : b = true → check = .ok ()) : checkIf b check = .ok () := by
  cases b
  · rfl
  · exact h rfl

/-- The checks of the registers, in the order of 60_exceptions.md R423: the tables, the input range, the output range,
the empty input. -/
def registerChecks (s : State) (i : Instr) : Run Unit := do
  s.checkTables (neededTables i)
  checkIf (readsInput i) s.checkInput
  checkIf (writesObuf i) s.checkOutput
  checkIf (needsInput i) s.checkNonEmpty

theorem checkTables_zero (s : State) : s.checkTables 0 = .ok () :=
  checkTables_eq_ok.mpr (BitVec.zero_and ..)

/-- Every command starts with its checks of the registers. -/
theorem exec_eq_registerChecks_bind (i : Instr) (s : State) :
    ∃ rest : Run State, exec i s = finish i s (registerChecks s i >>= fun _ => rest) := by
  cases i with
  | nop | query =>
    simp only [registerChecks, neededTables, checkTables_zero, run_ok_bind]
    exact ⟨.ok _, rfl⟩
  | _ =>
    simp only [registerChecks, neededTables, checkTables_zero, run_ok_bind, bind_assoc]
    exact ⟨_, rfl⟩

section fails

variable {i : Instr} {s : State}

/-- An error of these checks is the error completion of the command. -/
theorem exec_of_registerChecks_raise {e : ErrorCode} {info : Nat} (h : registerChecks s i = raise e info) :
    exec i s = .next (s.raiseError (writesObuf i) e (BitVec.ofNat 32 info)) := by
  obtain ⟨rest, hexec⟩ := exec_eq_registerChecks_bind i s
  rw [hexec, h]
  rfl

/-- A pre-check error changes nothing but its registers (60_exceptions.md R421). -/
theorem exec_of_preCheck_raise {e : ErrorCode} {info : Nat} (he : e.isPreCheck = true)
    (h : registerChecks s i = raise e info) : exec i s = .next (s.recordError e (BitVec.ofNat 32 info)) := by
  rw [exec_of_registerChecks_raise h, raiseError_of_preCheck he]

/-- SEQUENCE_ERROR comes first (60_exceptions.md R409). -/
theorem exec_of_missing_tables (h : s.status.missing (neededTables i) ≠ 0) :
    exec i s = .next (s.recordError .sequenceError (s.status.missing (neededTables i))) := by
  have hchecks : registerChecks s i = raise .sequenceError (s.status.missing (neededTables i)).toNat := by
    rw [registerChecks, checkTables_eq_raise h, run_raise_bind]
  rw [exec_of_preCheck_raise rfl hchecks, BitVec.ofNat_toNat, BitVec.setWidth_eq]

variable (htab : s.status.missing (neededTables i) = 0)

include htab

/-- RANGE_ERROR(1) comes after SEQUENCE_ERROR (60_exceptions.md R410). -/
theorem exec_of_input_outside (hi : readsInput i = true)
    (h : s.params.ibufSize.toNat < s.range.inOff.toNat + s.range.inLen.toNat) :
    exec i s = .next (s.recordError .rangeError 1) := by
  refine exec_of_preCheck_raise rfl ?_
  rw [registerChecks, checkTables_eq_ok.mpr htab, run_ok_bind, hi, checkInput_eq_raise h]
  rfl

variable (hin : readsInput i = true → s.range.inOff.toNat + s.range.inLen.toNat ≤ s.params.ibufSize.toNat)

include hin

/-- RANGE_ERROR(2) comes after RANGE_ERROR(1) (60_exceptions.md R410). -/
theorem exec_of_output_outside (hi : writesObuf i = true)
    (h : s.params.obufSize.toNat < s.range.outOff.toNat + s.range.outCap.toNat) :
    exec i s = .next (s.recordError .rangeError 2) := by
  refine exec_of_preCheck_raise rfl ?_
  rw [registerChecks, checkTables_eq_ok.mpr htab, run_ok_bind, checkIf_eq_ok fun hr => checkInput_eq_ok.mpr (hin hr),
    run_ok_bind, hi, checkOutput_eq_raise h]
  rfl

/-- EMPTY_INPUT comes after the pre-checks (60_exceptions.md R402, R423). -/
theorem exec_of_empty_input (hout : writesObuf i = true → OutputFits s) (hi : needsInput i = true)
    (h : s.range.inLen = 0) : exec i s = .next (s.raiseError (writesObuf i) .emptyInput 0) := by
  refine exec_of_registerChecks_raise ?_
  rw [registerChecks, checkTables_eq_ok.mpr htab, run_ok_bind, checkIf_eq_ok fun hr => checkInput_eq_ok.mpr (hin hr),
    run_ok_bind, checkIf_eq_ok fun hw => checkOutput_eq_ok.mpr (hout hw), run_ok_bind, hi, checkNonEmpty_eq_raise h]
  rfl

end fails

/-! #### The errors the checks report -/

/-- A command that needs no table never reports SEQUENCE_ERROR: the errors of its own are others. -/
theorem errs_code_ne_sequenceError {i : Instr} {s t : State}
    (hi : i ∉ [Instr.build, Instr.assign, Instr.encode, Instr.decode]) (h : exec i s = .next t) : t.errs.code ≠ 8 := by
  have success {u : State} : u.complete.errs.code ≠ 8 := by
    rw [complete_errs]
    decide
  have error {w : Bool} {e : ErrorCode} {info : Word} (he : e.code ≠ 8) : (s.raiseError w e info).errs.code ≠ 8 := by
    rwa [raiseError_errs]
  cases i with
  | build | assign | encode | decode => simp at hi
  | nop => exact execNop_next.mp h ▸ success
  | query sym => exact execQuery_next.mp h ▸ success
  | scan =>
    rcases execScan_next h with ⟨_, _, _, rfl⟩ | ⟨e, info, he, rfl⟩
    · exact success
    · exact error (by rcases he with rfl | rfl <;> decide)
  | parse =>
    rcases execParse_next h with ⟨_, _, _, _, rfl⟩ | ⟨e, info, he, rfl⟩
    · exact success
    · exact error (by rcases he with rfl | rfl | rfl <;> decide)
  | compress =>
    rcases execCompress_next h with ⟨_, _, _, _, _, _, _, _, _, _, rfl⟩ | ⟨e, info, he, rfl⟩
    · exact success
    · exact error (by rcases he with rfl | rfl | rfl <;> decide)
  | decompress =>
    rcases execDecompress_next h with ⟨_, _, _, _, _, _, _, _, _, rfl⟩ | ⟨e, info, he, rfl⟩
    · exact success
    · exact error (by rcases he with rfl | rfl | rfl | rfl | rfl <;> decide)

/-- Settles O28: the check of the tables comes first, and no other check reports SEQUENCE_ERROR. -/
theorem missingTablesAreReported : Obligations.MissingTablesAreReported := by
  unfold Obligations.MissingTablesAreReported
  refine ⟨?_, fun s t i hi => errs_code_ne_sequenceError hi⟩
  rintro s i mask _ hi rfl hmissing
  obtain rfl : mask = neededTables i := by
    simp only [List.mem_cons, Prod.mk.injEq, List.not_mem_nil, or_false] at hi
    rcases hi with ⟨rfl, rfl⟩ | ⟨rfl, rfl⟩ | ⟨rfl, rfl⟩ | ⟨rfl, rfl⟩ <;> rfl
  exact exec_of_missing_tables hmissing

/-- Of the commands that read or write a range, ENCODE and DECODE need tables (60_exceptions.md R409). -/
theorem missing_neededTables_eq_zero {i : Instr} {st : Status} (hi : (readsInput i || writesObuf i) = true)
    (hencode : i = .encode → st.missing 0x70 = 0) (hdecode : i = .decode → st.missing 0xB0 = 0) :
    st.missing (neededTables i) = 0 := by
  cases i with
  | encode => exact hencode rfl
  | decode => exact hdecode rfl
  | build | assign => exact absurd hi (by decide)
  | _ => exact BitVec.zero_and

/-- Settles O29: with the tables valid the input range is checked, then the output range. -/
theorem rangesOutsideTheBuffersAreReported : Obligations.RangesOutsideTheBuffersAreReported := by
  unfold Obligations.RangesOutsideTheBuffersAreReported
  refine ⟨fun s i hi hencode hin => ?_, fun s i hi hencode hdecode hin hout => ?_⟩
  · have hreads : readsInput i = true := decide_eq_true hi
    have hdecode : i ≠ .decode := by rintro rfl; exact absurd hi (by decide)
    have htab := missing_neededTables_eq_zero (by simp [hreads]) hencode fun h => absurd h hdecode
    exact exec_of_input_outside htab hreads hin
  · have hwrites : writesObuf i = true := (writesObuf_iff i).mpr hi
    have htab := missing_neededTables_eq_zero (by simp [hwrites]) hencode hdecode
    refine exec_of_output_outside htab (fun hreads => hin ?_) hwrites hout
    rintro rfl
    exact absurd hreads (by decide)

/-- Settles O30: with no table missing and the ranges inside the buffers, the check of IN_LEN is next. -/
theorem emptyInputIsReported : Obligations.EmptyInputIsReported := by
  unfold Obligations.EmptyInputIsReported
  intro s i hi hencode hin hout hlen
  have hdecode : i ≠ .decode := by rintro rfl; exact absurd hi (by decide)
  have hsub : [Instr.scan, .encode, .compress] ⊆ [Instr.scan, .encode, .parse, .compress, .decompress] := by decide
  have hreads : readsInput i = true := decide_eq_true (hsub hi)
  have htab := missing_neededTables_eq_zero (by simp [hreads]) hencode fun h => absurd h hdecode
  refine exec_of_empty_input htab (fun _ => by simpa [hlen] using hin) (fun hwrites => hout ?_) (decide_eq_true hi) hlen
  rintro rfl
  exact absurd hwrites (by decide)

end Sys2Proof.Proofs
end

section
/-! ### Output that does not fit -/

namespace Sys2Proof.Proofs

open Sys2Proof.Machine Sys2Proof.Safety

variable {s : State} {bs : List Byte}

/-- COMPRESS once its input is read: the codes it makes, the check of their room, and the updates
(45_pipeline_commands.md R372). -/
theorem execCompress_of_checks (h : InputHolds s bs) (hne : bs ≠ []) (hout : OutputFits s) {ft : FreqTable}
    {tree : Tree} {ct : CodeTable} (hfresh : s.freshCodes bs = (ft, tree, ct)) :
    execCompress s = finish .compress s (do
      s.checkEncoded (totalBits ft ct) (artifactSize ft (totalBits ft ct))
      return s.compressed bs) := by
  have ⟨_, hin, _⟩ := h
  rw [execCompress, checkInput_eq_ok.mpr hin, run_ok_bind, checkOutput_eq_ok.mpr hout, run_ok_bind,
    checkNonEmpty_eq_ok.mpr (inLen_ne_zero_of_inputHolds h hne), run_ok_bind, inputBytes_of_holds h, run_ok_bind,
    hfresh]

/-- COMPRESS of an artifact without room (60_exceptions.md R411). -/
theorem execCompress_of_overflow (h : InputHolds s bs) (hne : bs ≠ []) (hout : OutputFits s) {ft : FreqTable}
    {tree : Tree} {ct : CodeTable} (hfresh : s.freshCodes bs = (ft, tree, ct))
    (hover : word32Max < totalBits ft ct ∨ s.range.outCap.toNat < artifactSize ft (totalBits ft ct)) :
    execCompress s = .next (s.raiseError true .outputOverflow
      (BitVec.ofNat 32 (saturate (artifactSize ft (totalBits ft ct))))) := by
  rw [execCompress_of_checks h hne hout hfresh, checkEncoded_eq_raise hover]
  rfl

/-- ENCODE of a stream without room (60_exceptions.md R411). -/
theorem execEncode_of_overflow (htab : s.status.missing 0x70 = 0) (h : InputHolds s bs) (hne : bs ≠ [])
    (hout : OutputFits s) (hcodes : ∀ b ∈ bs, CodeTable.bits s.ct b ≠ [])
    (hover : word32Max < (stream s.ct bs).length ∨ s.range.outCap.toNat < ceil8 (stream s.ct bs).length) :
    execEncode s = .next (s.raiseError true .outputOverflow
      (BitVec.ofNat 32 (saturate (ceil8 (stream s.ct bs).length)))) := by
  have ⟨hlen, hin, hbytes⟩ := h
  have hread : s.encodeInput 0 s.range.inLen.toNat = .ok bs :=
    encodeInput_eq_ok.mpr ⟨hlen, hbytes, fun b hb => mt len_eq_zero_iff.mp (hcodes b hb)⟩
  rw [execEncode_of_checks htab hin hout (inLen_ne_zero_of_inputHolds h hne), hread, run_ok_bind,
    checkEncoded_eq_raise hover]
  rfl

/-- A decoder without room for the symbols reports their number, which fits ERR_INFO (60_exceptions.md R411). -/
theorem finish_of_decoded_overflow {i : Instr} {n : Word} (h : s.range.outCap.toNat < n.toNat) (rest : Run State) :
    finish i s (s.checkDecoded n >>= fun _ => rest) = .next (s.raiseError (writesObuf i) .outputOverflow n) := by
  rw [checkDecoded_eq_raise h, run_raise_bind, finish_raise, BitVec.ofNat_toNat, BitVec.setWidth_eq]

/-- DECODE without room for the symbols of HDR (60_exceptions.md R411). -/
theorem execDecode_of_overflow (htab : s.status.missing 0xB0 = 0) (hout : OutputFits s)
    (hover : s.range.outCap.toNat < s.hdr.n.toNat) :
    execDecode s = .next (s.raiseError true .outputOverflow s.hdr.n) := by
  rw [execDecode, checkTables_eq_ok.mpr htab, run_ok_bind, checkOutput_eq_ok.mpr hout, run_ok_bind]
  exact finish_of_decoded_overflow hover _

/-- DECOMPRESS without room for the symbols of the artifact (60_exceptions.md R411). -/
theorem execDecompress_of_overflow {ft : FreqTable} {n vbc : Word} (h : ArtifactAt s ft n vbc) (hout : OutputFits s)
    (hover : s.range.outCap.toNat < n.toNat) :
    execDecompress s = .next (s.raiseError true .outputOverflow n) := by
  obtain ⟨hft, hn, hin, hbytes, hlen⟩ := h
  rw [execDecompress, checkInput_eq_ok.mpr hin, run_ok_bind, checkOutput_eq_ok.mpr hout, run_ok_bind,
    parseHeader_of_header hft hn hbytes hlen, run_ok_bind]
  exact finish_of_decoded_overflow hover _

/-- Settles O32: the other checks pass, and the check of the room reports the bytes required. -/
theorem outputOverflowIsReported : Obligations.OutputOverflowIsReported := by
  unfold Obligations.OutputOverflowIsReported
  refine ⟨?_, ?_, fun s => execDecode_of_overflow, ?_⟩
  · rintro s bs _ _ _ h hne hout rfl rfl rfl hover
    exact execCompress_of_overflow h hne hout rfl hover
  · rintro s bs _ htab h hne hout hcodes rfl hover
    exact execEncode_of_overflow htab h hne hout hcodes hover
  · intro s ft n vbc hft hn hin hout hbytes hlen hover
    exact execDecompress_of_overflow ⟨hft, hn, hin, hbytes, hlen⟩ hout hover

end Sys2Proof.Proofs
end

section
/-! ### Power-on reset, and the abort of a pending command -/

namespace Sys2Proof.Proofs

open Sys2Proof.Machine Sys2Proof.Safety

variable {s : State}

/-- The words of COMPRESS, DECOMPRESS, ENCODE and DECODE (30_encoding.md R141) are those of the commands that write
OBUF (20_memory.md R110). -/
theorem mem_obufWords_iff {w : Word} :
    w ∈ [0x01, 0x02, 0x13, 0x15] ↔ ∃ i, decodeWord w = .ok i ∧ writesObuf i = true := by
  have hwords : [0x01, 0x02, 0x13, 0x15] = [Instr.compress, .decompress, .encode, .decode].map encodeWord := rfl
  rw [hwords, List.mem_map]
  refine exists_congr fun i => ?_
  rw [decodeWord_eq_ok, eq_comm (a := encodeWord i), and_comm]
  cases i <;> simp [writesObuf]

/-- A pending command that writes OBUF leaves its window drawn (70_reset_and_hazards.md R452). -/
theorem abandon_of_mem_obufWords (hb : s.status.busy = true) (hw : s.lastCmd ∈ [0x01, 0x02, 0x13, 0x15]) :
    s.abandon = s.drawWindow := by
  obtain ⟨i, hdecode, hi⟩ := mem_obufWords_iff.mp hw
  simp only [State.abandon, hb, hdecode, hi, if_true]

/-- Any other word leaves nothing behind when it is abandoned (70_reset_and_hazards.md R452). -/
theorem abandon_of_not_mem_obufWords (hw : s.lastCmd ∉ [0x01, 0x02, 0x13, 0x15]) : s.abandon = s := by
  rw [State.abandon]
  split
  · split
    · next i hdecode => exact if_neg fun hi => hw (mem_obufWords_iff.mpr ⟨i, hdecode, hi⟩)
    · rfl
  · rfl

/-- Every byte of the window that exists is drawn, also where the window leaves OBUF (10_state.md R44; log 11). -/
theorem read_drawWindow_existing {i : Nat} (hi : i < s.range.outCap.toNat)
    (hexists : s.range.outOff.toNat + i < s.params.obufSize.toNat) :
    s.drawWindow.mem.read (s.windowBase + i) = some (Config.drawByte s.draws (s.windowBase + i)) := by
  have hlt : i < (s.drawnBytes s.windowBase s.windowSize).length := by
    rw [drawnBytes_length, State.windowSize]
    omega
  rw [drawWindow_mem, read_store_inside hlt, drawnBytes_getElem]

/-- Settles O55: a soft reset keeps the memory the abandoned command leaves, which is that of the drawn window if the
command writes OBUF. -/
theorem softResetAbortsTheCommand : Obligations.SoftResetAbortsTheCommand := by
  unfold Obligations.SoftResetAbortsTheCommand
  intro s v hv hb
  have hctrl : s.hostWriteEffect .four 0x004 0xF v = s.abandon.softReset :=
    (hostWriteEffect_csr (a := 0x004) (by decide) rfl).trans (if_pos hv)
  refine ⟨s.abandon.mem, ?_, fun hw => ?_, fun hw => ?_⟩
  · rw [hctrl, State.softReset, State.powerOnReset, abandon_params, abandon_agenda, abandon_reads, abandon_draws]
  · rw [abandon_of_not_mem_obufWords hw]
  · rw [abandon_of_mem_obufWords hb hw]
    exact ⟨fun i hi hexists => read_drawWindow_existing hi hexists, fun a ha => read_drawWindow_outside ha⟩

/-- Settles O53: `step_cons` takes the event off the agenda, and `perform` resets the block. -/
theorem powerOnResetsTheBlock : Obligations.PowerOnResetsTheBlock := by
  unfold Obligations.PowerOnResetsTheBlock
  exact fun s rest h => step_cons h

end Sys2Proof.Proofs
end
